-- ==== Sys2Proof/Word.lean ====
section
/-! DEFINITION. The words of the machine: the widths 00_scope.md R3 fixes. -/

namespace Sys2Proof

/-- A 64-bit value: a general register, the pc, a CSR, an address (00_scope.md R3, XLEN = 64). -/
abbrev Word := BitVec 64

/-- A 32-bit instruction word (00_scope.md R3, ILEN = 32). -/
abbrev InstrWord := BitVec 32

/-- One byte of memory (10_state.md R19). -/
abbrev Byte := BitVec 8

/-- The number of a general register, 0 to 31 (10_state.md R10; 30_encoding.md R64). -/
abbrev Reg := BitVec 5

/-- The 12-bit address of a control and status register (10_state.md R16). -/
abbrev CsrAddr := BitVec 12

end Sys2Proof
end

