-- ==== Sys2Proof/Config.lean ====
section
/-! DEFINITION. The parameters that 00_scope.md R4 leaves open, as plain data, and the one free function. -/

namespace Sys2Proof

/-- A range of byte addresses, both ends included, as the spec writes `0x1000..0x10ff`. -/
structure Region where
  first : Nat
  last : Nat
  deriving DecidableEq, Repr

/-- What a data access at an address that is not a multiple of its size does (`MISALIGNED_DATA`,
00_scope.md R4; 20_memory.md R33, R34). -/
inductive MisalignedData where
  | trap
  | split
  deriving DecidableEq, Repr

/-- The byte order of data (`BYTE_ORDER`, 00_scope.md R4; 20_memory.md R30). -/
inductive ByteOrder where
  | little
  | big
  deriving DecidableEq, Repr

/-- Which function `csr_legalize` is (00_scope.md R4; 10_state.md R17): the default, which stores what
is written, or another one, of which nothing is known (DESIGN CHOICE, log entry 8; safe). -/
inductive CsrLegalize where
  | plain
  | custom
  deriving DecidableEq, Repr

/-- `csr_legalize` where it is not the default: a FREE function of the CSR's address, its old value and
the value written (log entry 8). -/
opaque Config.csrLegalize : CsrAddr → Word → Word → Word

/-- The numbers recorded for the nine exceptions of 60_exceptions.md R220: `CAUSE_CODE` as a table, one
number for each (00_scope.md R4). The spec sets no bound on a number, since no register holds it (R222). -/
structure CauseCodes where
  instructionAddressMisaligned : Nat
  instructionAccessFault : Nat
  illegalInstruction : Nat
  breakpoint : Nat
  loadAddressMisaligned : Nat
  loadAccessFault : Nat
  storeAddressMisaligned : Nat
  storeAccessFault : Nat
  environmentCall : Nat
  deriving DecidableEq, Repr

/-- The default of `CAUSE_CODE`: the table of 60_exceptions.md R222. -/
def CauseCodes.default : CauseCodes where
  instructionAddressMisaligned := 0
  instructionAccessFault := 1
  illegalInstruction := 2
  breakpoint := 3
  loadAddressMisaligned := 4
  loadAccessFault := 5
  storeAddressMisaligned := 6
  storeAccessFault := 7
  environmentCall := 11

/-- The parameters of 00_scope.md R4, all ten, fixed for a run. -/
structure Params where
  /-- `RESET_PC`: the pc after reset, a multiple of 4. -/
  resetPc : Word
  /-- `MEM_VALID`: the byte addresses that hold memory. -/
  memValid : List Region
  /-- `CSR_SET`: the CSR addresses that exist. -/
  csrSet : List CsrAddr
  /-- `CSR_READONLY`: those of them that cannot be written. -/
  csrReadonly : List CsrAddr
  /-- `csr_legalize`. -/
  csrLegalize : CsrLegalize
  /-- `MISALIGNED_DATA`. -/
  misalignedData : MisalignedData
  /-- `BYTE_ORDER`. -/
  byteOrder : ByteOrder
  /-- `RV64M_FULL`: whether the eleven RV64M instructions the source does not list are admitted. -/
  rv64mFull : Bool
  /-- `FENCE_STRICT`: whether a fence word with a non-zero reserved field is illegal. -/
  fenceStrict : Bool
  /-- `CAUSE_CODE`: the number recorded for each exception. An outcome names the exception, and
  `Fault.number` reads its number here; no rule reads it (60_exceptions.md R222; log entry 18). -/
  causeCodes : CauseCodes
  deriving DecidableEq, Repr

/-- The parameters with the defaults of 00_scope.md R4, and for the three that have none: `RESET_PC` =
0x1000 (DESIGN CHOICE, log entry 4; unsafe), `MEM_VALID` = the whole address space (DESIGN CHOICE, log
entry 5; unsafe), `CSR_SET` empty (DESIGN CHOICE, log entry 6; safe). -/
def Params.default : Params where
  resetPc := 0x1000
  memValid := [⟨0, 2 ^ 64 - 1⟩]
  csrSet := []
  csrReadonly := []
  csrLegalize := .plain
  misalignedData := .trap
  byteOrder := .little
  rv64mFull := false
  fenceStrict := true
  causeCodes := .default

end Sys2Proof
end

