-- ==== Sys2Proof/Syntax.lean ====
section
/-! DEFINITION. The instructions: one constructor per row of spec/opcode_table.json, with the operands of
30_encoding.md R74. -/

namespace Sys2Proof

/-- The instructions of 30_encoding.md R67 and, after them, the eleven of 49_rv64m.md R203 to R213. An
operand is the value its encoding fields give: register numbers of 5 bits, the 12-bit I- or
S-immediate, the 13-bit B-offset and the 21-bit J-offset with their bit 0 (0 in every encoding: R60,
R62), the 20-bit U-field, the 6- or 5-bit shift amount (R63). -/
inductive Instr where
  /-- add: R81. -/
  | add (rd rs1 rs2 : Reg)
  /-- sub: R82. -/
  | sub (rd rs1 rs2 : Reg)
  /-- sll: R83. -/
  | sll (rd rs1 rs2 : Reg)
  /-- srl: R84. -/
  | srl (rd rs1 rs2 : Reg)
  /-- sra: R85. -/
  | sra (rd rs1 rs2 : Reg)
  /-- slt: R86. -/
  | slt (rd rs1 rs2 : Reg)
  /-- sltu: R87. -/
  | sltu (rd rs1 rs2 : Reg)
  /-- and: R88. -/
  | and (rd rs1 rs2 : Reg)
  /-- or: R89. -/
  | or (rd rs1 rs2 : Reg)
  /-- xor: R90. -/
  | xor (rd rs1 rs2 : Reg)
  /-- addw: R92. -/
  | addw (rd rs1 rs2 : Reg)
  /-- subw: R93. -/
  | subw (rd rs1 rs2 : Reg)
  /-- sllw: R94. -/
  | sllw (rd rs1 rs2 : Reg)
  /-- srlw: R95. -/
  | srlw (rd rs1 rs2 : Reg)
  /-- sraw: R96. -/
  | sraw (rd rs1 rs2 : Reg)
  /-- lui: R101. -/
  | lui (rd : Reg) (imm20 : BitVec 20)
  /-- auipc: R102. -/
  | auipc (rd : Reg) (imm20 : BitVec 20)
  /-- jal: R105. -/
  | jal (rd : Reg) (offset : BitVec 21)
  /-- sb: R111. -/
  | sb (rs2 rs1 : Reg) (imm : BitVec 12)
  /-- sh: R112. -/
  | sh (rs2 rs1 : Reg) (imm : BitVec 12)
  /-- sw: R113. -/
  | sw (rs2 rs1 : Reg) (imm : BitVec 12)
  /-- sd: R114. -/
  | sd (rs2 rs1 : Reg) (imm : BitVec 12)
  /-- beq: R121. -/
  | beq (rs1 rs2 : Reg) (offset : BitVec 13)
  /-- bne: R122. -/
  | bne (rs1 rs2 : Reg) (offset : BitVec 13)
  /-- blt: R123. -/
  | blt (rs1 rs2 : Reg) (offset : BitVec 13)
  /-- bltu: R124. -/
  | bltu (rs1 rs2 : Reg) (offset : BitVec 13)
  /-- bge: R125. -/
  | bge (rs1 rs2 : Reg) (offset : BitVec 13)
  /-- bgeu: R126. -/
  | bgeu (rs1 rs2 : Reg) (offset : BitVec 13)
  /-- addi: R131. -/
  | addi (rd rs1 : Reg) (imm : BitVec 12)
  /-- slti: R132. -/
  | slti (rd rs1 : Reg) (imm : BitVec 12)
  /-- sltiu: R133. -/
  | sltiu (rd rs1 : Reg) (imm : BitVec 12)
  /-- andi: R134. -/
  | andi (rd rs1 : Reg) (imm : BitVec 12)
  /-- ori: R135. -/
  | ori (rd rs1 : Reg) (imm : BitVec 12)
  /-- xori: R136. -/
  | xori (rd rs1 : Reg) (imm : BitVec 12)
  /-- slli: R137. -/
  | slli (rd rs1 : Reg) (shamt : BitVec 6)
  /-- srli: R138. -/
  | srli (rd rs1 : Reg) (shamt : BitVec 6)
  /-- srai: R139. -/
  | srai (rd rs1 : Reg) (shamt : BitVec 6)
  /-- csrrw: R151. -/
  | csrrw (rd : Reg) (csr : CsrAddr) (rs1 : Reg)
  /-- csrrs: R152. -/
  | csrrs (rd : Reg) (csr : CsrAddr) (rs1 : Reg)
  /-- csrrc: R153. -/
  | csrrc (rd : Reg) (csr : CsrAddr) (rs1 : Reg)
  /-- csrrwi: R154. -/
  | csrrwi (rd : Reg) (csr : CsrAddr) (zimm : BitVec 5)
  /-- csrrsi: R155. -/
  | csrrsi (rd : Reg) (csr : CsrAddr) (zimm : BitVec 5)
  /-- csrrci: R156. -/
  | csrrci (rd : Reg) (csr : CsrAddr) (zimm : BitVec 5)
  /-- lb: R166. -/
  | lb (rd rs1 : Reg) (imm : BitVec 12)
  /-- lh: R167. -/
  | lh (rd rs1 : Reg) (imm : BitVec 12)
  /-- lw: R168. -/
  | lw (rd rs1 : Reg) (imm : BitVec 12)
  /-- lbu: R169. -/
  | lbu (rd rs1 : Reg) (imm : BitVec 12)
  /-- lhu: R170. -/
  | lhu (rd rs1 : Reg) (imm : BitVec 12)
  /-- jalr: R173. -/
  | jalr (rd rs1 : Reg) (imm : BitVec 12)
  /-- ecall: R181. -/
  | ecall
  /-- ebreak: R182. -/
  | ebreak
  /-- fence: R183. -/
  | fence (pred succ : BitVec 4)
  /-- fence.i: R184. -/
  | fenceI
  /-- addiw: R141. -/
  | addiw (rd rs1 : Reg) (imm : BitVec 12)
  /-- slliw: R142. -/
  | slliw (rd rs1 : Reg) (shamt : BitVec 5)
  /-- srliw: R143. -/
  | srliw (rd rs1 : Reg) (shamt : BitVec 5)
  /-- sraiw: R144. -/
  | sraiw (rd rs1 : Reg) (shamt : BitVec 5)
  /-- lwu: R171. -/
  | lwu (rd rs1 : Reg) (imm : BitVec 12)
  /-- ld: R172. -/
  | ld (rd rs1 : Reg) (imm : BitVec 12)
  /-- uret: R186. -/
  | uret
  /-- mret: R187. -/
  | mret
  /-- sret: R188. -/
  | sret
  /-- sfence.vma: R189. -/
  | sfenceVma (rd rs1 rs2 : Reg)
  /-- wfi: R190. -/
  | wfi
  /-- div: R201. -/
  | div (rd rs1 rs2 : Reg)
  /-- divu: R202. -/
  | divu (rd rs1 rs2 : Reg)
  /-- mul: R203. -/
  | mul (rd rs1 rs2 : Reg)
  /-- mulh: R204. -/
  | mulh (rd rs1 rs2 : Reg)
  /-- mulhsu: R205. -/
  | mulhsu (rd rs1 rs2 : Reg)
  /-- mulhu: R206. -/
  | mulhu (rd rs1 rs2 : Reg)
  /-- rem: R207. -/
  | rem (rd rs1 rs2 : Reg)
  /-- remu: R208. -/
  | remu (rd rs1 rs2 : Reg)
  /-- mulw: R209. -/
  | mulw (rd rs1 rs2 : Reg)
  /-- divw: R210. -/
  | divw (rd rs1 rs2 : Reg)
  /-- divuw: R211. -/
  | divuw (rd rs1 rs2 : Reg)
  /-- remw: R212. -/
  | remw (rd rs1 rs2 : Reg)
  /-- remuw: R213. -/
  | remuw (rd rs1 rs2 : Reg)
  deriving DecidableEq, Repr

end Sys2Proof
end

