-- ==== Sys2Proof/WellFormed.lean ====
section
/-! DEFINITION. When an instruction is one an encoding can stand for, and when parameters are legal. -/

namespace Sys2Proof

/-- A B- or J-offset is even: its bit 0 is 0 by construction (30_encoding.md R60, R62). -/
def evenOffset {w : Nat} (offset : BitVec w) : Bool :=
  offset.getLsbD 0 == false

/-- The well-formed instructions: every field other than a B- or J-offset is admitted at every value by
its width (30_encoding.md R51 to R64). -/
def Instr.wf : Instr → Bool
  | .beq _ _ offset | .bne _ _ offset | .blt _ _ offset
  | .bltu _ _ offset | .bge _ _ offset | .bgeu _ _ offset => evenOffset offset
  | .jal _ offset => evenOffset offset
  | .add .. | .sub .. | .sll .. | .srl .. | .sra .. | .slt .. | .sltu .. | .and .. | .or .. | .xor ..
  | .addw .. | .subw .. | .sllw .. | .srlw .. | .sraw .. | .lui .. | .auipc ..
  | .sb .. | .sh .. | .sw .. | .sd ..
  | .addi .. | .slti .. | .sltiu .. | .andi .. | .ori .. | .xori .. | .slli .. | .srli .. | .srai ..
  | .csrrw .. | .csrrs .. | .csrrc .. | .csrrwi .. | .csrrsi .. | .csrrci ..
  | .lb .. | .lh .. | .lw .. | .lbu .. | .lhu .. | .lwu .. | .ld .. | .jalr ..
  | .ecall | .ebreak | .fence .. | .fenceI | .addiw .. | .slliw .. | .srliw .. | .sraiw ..
  | .uret | .mret | .sret | .sfenceVma .. | .wfi
  | .div .. | .divu .. | .mul .. | .mulh .. | .mulhsu .. | .mulhu .. | .rem .. | .remu ..
  | .mulw .. | .divw .. | .divuw .. | .remw .. | .remuw .. => true

/-- The legal parameters: `RESET_PC` is a multiple of 4, `CSR_READONLY` is a subset of `CSR_SET`,
`MEM_VALID` is a subset of the addresses 0 to 2^64 - 1 (00_scope.md R4). -/
def Params.wf (p : Params) : Bool :=
  p.resetPc.toNat % 4 == 0
    && p.csrReadonly.all (fun c => p.csrSet.contains c)
    && p.memValid.all (fun r => r.last < 2 ^ 64)

end Sys2Proof
end

