-- ==== Sys2Proof/Machine/State.lean ====
section
/-! DEFINITION. The state of the machine, the two ways a step can stop, and the state after reset. -/

namespace Sys2Proof.Machine

/-- The synchronous exceptions: the complete list of 60_exceptions.md R220. -/
inductive Cause where
  | instructionAddressMisaligned
  | instructionAccessFault
  | illegalInstruction
  | breakpoint
  | loadAddressMisaligned
  | loadAccessFault
  | storeAddressMisaligned
  | storeAccessFault
  | environmentCall
  deriving DecidableEq, Repr

/-- How the machine stops by itself. -/
inductive Fault where
  /-- The spec's terminal outcome `Trapped(cause, pc, info)` (10_state.md R22; 60_exceptions.md R224):
  raised by a fetch, by the decoding of an illegal word and by the instructions of R220; `pc` is the
  address of the instruction that raised it, and the state stays as it was before the step. Safe: the
  model stops where a chip goes on in a handler (log entry 10). -/
  | trapped (cause : Cause) (pc info : Word)
  deriving DecidableEq, Repr

/-- Why the spec gives a situation no meaning: its outcome `Refused(reason)` (60_exceptions.md R228).
Safe, each of them: nothing is claimed of the hardware. -/
inductive Refusal where
  /-- An instruction the model has no meaning for; no arm of `exec` answers with it. Safe. -/
  | notModelled (mnemonic : String)
  /-- A fetch of bytes stored since the last `fence.i` (20_memory.md R43); raised by `step`. Safe. -/
  | staleFetch
  /-- `uret` (48_i_type_system_fence_privileged.md R186); raised by its meaning. Safe. -/
  | uret
  /-- `mret` (R187); raised by its meaning. Safe. -/
  | mret
  /-- `sret` (R188); raised by its meaning. Safe. -/
  | sret
  /-- `sfence.vma` (R189); raised by its meaning. Safe. -/
  | sfenceVma
  /-- `wfi` (R190); raised by its meaning. Safe. -/
  | wfi
  deriving DecidableEq, Repr

/-- Memory, or the part of it that differs from what an unlisted address reads as: (address, byte)
pairs, the addresses strictly rising (10_state.md R19). -/
abbrev Memory := List Host.Cell

/-- The machine: 10_state.md R10 to R26. It has no flags (R15), no mode (R26), no register that a trap
saves into (60_exceptions.md R224). -/
structure State where
  /-- `x[0]` to `x[31]` (R10), read and written through `State.readReg` and `State.writeReg` only. -/
  regs : Vector Word 32
  /-- The address of the instruction being executed (R13). -/
  pc : Word
  /-- The values of the CSRs that are not 0, by address, strictly rising (R16). -/
  csr : List (Nat × Word)
  /-- The memory (R19). -/
  mem : Memory
  /-- The stale-fetch set: the addresses of the bytes stored since the last `fence.i`, strictly rising
  (R21). -/
  dirty : List Nat
  /-- The parameters of 00_scope.md R4: the model's own field, which no step changes (log entry 1). -/
  params : Params
  deriving DecidableEq, Repr

/-- The state after reset, for any parameters and any of the values the spec leaves unspecified: the pc
at `RESET_PC`, `x[0]` zero, `dirty` empty, memory as the environment loaded it (10_state.md R24;
70_reset_and_hazards.md R250). -/
def State.launch (p : Params) (x : Vector Word 32) (csr : List (Nat × Word)) (mem : Memory) : State where
  regs := x.set 0 0#64
  pc := p.resetPc
  csr := csr
  mem := mem
  dirty := []
  params := p

/-- The one state after reset that the host runs from: the default parameters, every register and CSR
zero (DESIGN CHOICE, log entries 2 and 3; unsafe), nothing loaded into memory. -/
def State.reset : State :=
  State.launch Params.default (Vector.replicate 32 0#64) [] []

end Sys2Proof.Machine
end

