-- ==== Sys2Proof/Machine/Ops.lean ====
section
/-! DEFINITION. The named operations over registers, CSRs, memory and the stale-fetch set, taking an
exception, and the refusal. -/

namespace Sys2Proof.Machine

/-! ### Canonical lists: sparse maps and sets of addresses -/

/-- The value at a key; a key that is not listed has the value `d`. -/
def sparseGet {α : Type} (d : α) : List (Nat × α) → Nat → α
  | [], _ => d
  | (k, v) :: m, a => if k = a then v else sparseGet d m a

/-- Give a key a value. The form stays canonical: keys strictly rising, no entry equal to `d`. -/
def sparseSet {α : Type} [DecidableEq α] (d : α) (a : Nat) (v : α) : List (Nat × α) → List (Nat × α)
  | [] => if v = d then [] else [(a, v)]
  | (k, u) :: m =>
    if a < k then
      if v = d then (k, u) :: m else (a, v) :: (k, u) :: m
    else if a = k then
      if v = d then m else (a, v) :: m
    else (k, u) :: sparseSet d a v m

/-- The canonical form: keys strictly rising, no entry equal to what an unlisted key has. -/
abbrev sparseWf {α : Type} (d : α) (m : List (Nat × α)) : Prop :=
  m.Pairwise (fun e f => e.1 < f.1) ∧ ∀ e ∈ m, e.2 ≠ d

/-- Put an address into a set held as a strictly rising list. -/
def setInsert (a : Nat) : List Nat → List Nat
  | [] => [a]
  | b :: l => if a < b then a :: b :: l else if a = b then b :: l else b :: setInsert a l

/-- The canonical form of a set of addresses. -/
abbrev setWf (l : List Nat) : Prop :=
  l.Pairwise (· < ·)

/-! ### General registers -/

/-- `x[r]`: register 0 reads as zero (10_state.md R11). -/
def State.readReg (s : State) (r : Reg) : Word :=
  if r = 0#5 then 0#64 else s.regs.get r.toFin

/-- `x[r] <- v`: a write to register 0 is discarded (10_state.md R11). -/
def State.writeReg (s : State) (r : Reg) (v : Word) : State :=
  { s with regs := if r = 0#5 then s.regs else s.regs.set r.toNat v r.isLt }

/-! ### The program counter -/

/-- `pc <- t`. -/
def State.setPc (s : State) (t : Word) : State :=
  { s with pc := t }

/-- `pc <- pc + 4`, modulo 2^64 (10_state.md R14). -/
def State.advance (s : State) : State :=
  s.setPc (s.pc + 4#64)

/-! ### Control and status registers (10_state.md R16, R17) -/

/-- Whether a CSR exists: it is in `CSR_SET`. -/
def State.csrExists (s : State) (c : CsrAddr) : Bool :=
  s.params.csrSet.contains c

/-- Whether a CSR cannot be written: it is in `CSR_READONLY`. -/
def State.csrIsReadonly (s : State) (c : CsrAddr) : Bool :=
  s.params.csrReadonly.contains c

/-- `CSR[c]`: a read has no side effect. -/
def State.readCsr (s : State) (c : CsrAddr) : Word :=
  sparseGet 0#64 s.csr c.toNat

/-- The value stored when `new` is written over `old`: `csr_legalize` (00_scope.md R4), the written value
by default, a free value where the parameter is another function (log entry 8). -/
def State.legalize (s : State) (c : CsrAddr) (old new : Word) : Word :=
  match s.params.csrLegalize with
  | .plain => new
  | .custom => Config.csrLegalize c old new

/-- `CSR[c] <- csr_legalize(c, CSR[c], new)`: changes `CSR[c]` only. -/
def State.writeCsr (s : State) (c : CsrAddr) (new : Word) : State :=
  { s with csr := sparseSet 0#64 c.toNat (s.legalize c (s.readCsr c) new) s.csr }

/-! ### Memory, one byte (10_state.md R19; 20_memory.md R37, R38) -/

/-- What a byte that nothing has written reads as (DESIGN CHOICE, log entry 7; unsafe: the spec gives no
value). -/
def Memory.unlisted : Byte := 0#8

/-- The canonical form of memory. -/
abbrev Memory.wf (m : Memory) : Prop :=
  sparseWf Memory.unlisted m

/-- The byte at an address. -/
def Memory.readByte (m : Memory) (a : Nat) : Byte :=
  sparseGet Memory.unlisted m a

/-- The memory with the byte at an address replaced. -/
def Memory.writeByte (m : Memory) (a : Nat) (b : Byte) : Memory :=
  sparseSet Memory.unlisted a b m

/-- Whether an address is in `MEM_VALID`. -/
def isMemory (p : Params) (a : Nat) : Bool :=
  p.memValid.any (fun r => r.first ≤ a && a ≤ r.last)

/-- The byte of memory at an address. -/
def State.readByte (s : State) (a : Nat) : Byte :=
  s.mem.readByte a

/-- Store one byte and put its address into `dirty` (20_memory.md R43). -/
def State.storeByte (s : State) (a : Nat) (b : Byte) : State :=
  { s with mem := s.mem.writeByte a b, dirty := setInsert a s.dirty }

/-! ### Memory, several bytes (20_memory.md R30, R34, R47) -/

/-- The addresses of the `n` bytes at `a`, `a + 1`, ..., modulo 2^64, ascending (R34, R46). -/
def accessBytes (a : Word) (n : Nat) : List Nat :=
  (List.range n).map (fun i => (a + BitVec.ofNat 64 i).toNat)

/-- The value of some bytes, the first the least significant: the sum of `M[addr+i] * 2^(8i)` (R47). -/
def valueOfBytes : List Byte → Nat
  | [] => 0
  | b :: bs => b.toNat + 256 * valueOfBytes bs

/-- The `n` low bytes of a value, the least significant first (R47). -/
def bytesOfValue : Nat → Nat → List Byte
  | 0, _ => []
  | n + 1, v => BitVec.ofNat 8 v :: bytesOfValue n (v / 256)

/-- Some bytes from the least significant to the most, in ascending address order, or back: turned
round where `BYTE_ORDER` is big (R30; 92_eei_decisions.md D2). -/
def arrangeBytes (o : ByteOrder) (bs : List Byte) : List Byte :=
  match o with
  | .little => bs
  | .big => bs.reverse

/-- The value that `MemRead` returns where it raises nothing (R30, R47). -/
def State.memValue (s : State) (a : Word) (n : Nat) : Nat :=
  valueOfBytes (arrangeBytes s.params.byteOrder ((accessBytes a n).map s.readByte))

/-- Store bytes at addresses, in order. -/
def State.storeBytes (s : State) : List (Nat × Byte) → State
  | [] => s
  | (a, b) :: rest => (s.storeByte a b).storeBytes rest

/-- What `MemWrite` does where it raises nothing: the low `n` bytes of the value (R30, R47). -/
def State.storeValue (s : State) (a : Word) (n : Nat) (v : Nat) : State :=
  s.storeBytes ((accessBytes a n).zip (arrangeBytes s.params.byteOrder (bytesOfValue n v)))

/-- The two kinds of data access. -/
inductive AccessKind where
  | load
  | store
  deriving DecidableEq, Repr

/-- The exception of a misaligned access (R33). -/
def AccessKind.misaligned : AccessKind → Cause
  | .load => .loadAddressMisaligned
  | .store => .storeAddressMisaligned

/-- The exception of an access outside `MEM_VALID` (R39). -/
def AccessKind.accessFault : AccessKind → Cause
  | .load => .loadAccessFault
  | .store => .storeAccessFault

/-- Whether every byte of an access is in `MEM_VALID`. -/
def State.inMemory (s : State) (a : Word) (n : Nat) : Bool :=
  (accessBytes a n).all (isMemory s.params)

/-- The check of a data access, misaligned before access fault (R33, R39, R47); with
`MISALIGNED_DATA = split` no address is misaligned (R34). -/
def State.accessCheck (s : State) (k : AccessKind) (a : Word) (n : Nat) : Option Cause :=
  if s.params.misalignedData = .trap ∧ a.toNat % n ≠ 0 then some k.misaligned
  else if s.inMemory a n then none
  else some k.accessFault

/-! ### Outcomes (10_state.md R22) -/

/-- One step's outcome. -/
abbrev Outcome := Host.Outcome State Fault Refusal

/-- TAKING AN EXCEPTION, the one operation of the machine for it (60_exceptions.md R224): precise and
terminal. The outcome names the exception, the pc of the instruction that raises it and the value
recorded with it; nothing is saved, no mode or mask changes, control goes nowhere. No return from an
exception stands beside it: none is entered, so none is returned from (R225). -/
def raise (c : Cause) (info : Word) (s : State) : Outcome :=
  .fault (.trapped c s.pc info)

/-- The spec's `refuse(reason)` (00_scope.md R6; 60_exceptions.md R228). -/
def refuse (r : Refusal) : Outcome :=
  .refused r

/-- `CAUSE_CODE(e)`: the number recorded for an exception, by the parameters (00_scope.md R4;
60_exceptions.md R222). -/
def Cause.number (p : Params) : Cause → Nat
  | .instructionAddressMisaligned => p.causeCodes.instructionAddressMisaligned
  | .instructionAccessFault => p.causeCodes.instructionAccessFault
  | .illegalInstruction => p.causeCodes.illegalInstruction
  | .breakpoint => p.causeCodes.breakpoint
  | .loadAddressMisaligned => p.causeCodes.loadAddressMisaligned
  | .loadAccessFault => p.causeCodes.loadAccessFault
  | .storeAddressMisaligned => p.causeCodes.storeAddressMisaligned
  | .storeAccessFault => p.causeCodes.storeAccessFault
  | .environmentCall => p.causeCodes.environmentCall

/-- The number of the exception that an outcome names, for a reader of the outcome who needs one: no
register of the machine holds it (60_exceptions.md R222; log entry 18). -/
def Fault.number (p : Params) : Fault → Nat
  | .trapped c _ _ => c.number p

/-! ### The shapes of an instruction's effect -/

/-- Write one register and go on to the next instruction (40_r_type.md R80). -/
def State.writeAndAdvance (s : State) (rd : Reg) (v : Word) : Outcome :=
  .next (s.writeReg rd v).advance

/-- Whether a control transfer may go to an address: instruction addresses are multiples of 4
(20_memory.md R32). -/
def isInstrAligned (t : Word) : Bool :=
  t.toNat % 4 == 0

/-- Go to `t`, leaving `pc + 4` in `rd`; a misaligned target raises before anything is written
(42_j_type.md R105; 20_memory.md R32). -/
def State.jumpAndLink (s : State) (rd : Reg) (t : Word) : Outcome :=
  if isInstrAligned t then .next ((s.writeReg rd (s.pc + 4#64)).setPc t)
  else raise .instructionAddressMisaligned t s

/-- A conditional branch to `t` (44_b_type.md R120): not taken, it never raises. -/
def State.branchTo (s : State) (taken : Bool) (t : Word) : Outcome :=
  if taken then
    if isInstrAligned t then .next (s.setPc t) else raise .instructionAddressMisaligned t s
  else .next s.advance

/-- A load of `n` bytes at `a`, the value read extended to 64 bits by `ext` (47_i_type_loads_jalr.md
R165). -/
def State.load (s : State) (n : Nat) (ext : Nat → Word) (rd : Reg) (a : Word) : Outcome :=
  match s.accessCheck .load a n with
  | some c => raise c a s
  | none => s.writeAndAdvance rd (ext (s.memValue a n))

/-- A store of the low `n` bytes of `v` at `a` (43_s_type.md R110). -/
def State.store (s : State) (n : Nat) (a v : Word) : Outcome :=
  match s.accessCheck .store a n with
  | some c => raise c a s
  | none => .next (s.storeValue a n v.toNat).advance

end Sys2Proof.Machine
end

