-- ==== Sys2Proof/Machine/Flags.lean ====
section
/-! DEFINITION. There are no flags (10_state.md R15): what other machines keep in flags is here a comparison of two
values, written to a register or tested by a branch. -/

namespace Sys2Proof.Machine

/-- `a <s b`: both read as signed integers (00_scope.md R6). -/
def ltSigned (a b : Word) : Bool :=
  decide (a.toInt < b.toInt)

/-- `a <u b`: both read as unsigned integers (00_scope.md R6). -/
def ltUnsigned (a b : Word) : Bool :=
  decide (a.toNat < b.toNat)

/-- `a >=s b`, the negation of `<s` (44_b_type.md R125). -/
def geSigned (a b : Word) : Bool :=
  !ltSigned a b

/-- `a >=u b`, the negation of `<u` (44_b_type.md R126). -/
def geUnsigned (a b : Word) : Bool :=
  !ltUnsigned a b

/-- The 64-bit values 1 and 0 that a comparison writes (40_r_type.md R86). -/
def flagWord (b : Bool) : Word :=
  if b then 1#64 else 0#64

end Sys2Proof.Machine
end

