-- ==== Sys2Proof/Machine/Operands.lean ====
section
/-! DEFINITION. Every operand form and every computation on operands: immediates, addresses and targets, shifts,
32-bit results, quotients, remainders and high products; and which registers an instruction names. -/

namespace Sys2Proof.Machine

/-! ### Immediates and shift amounts (30_encoding.md R58 to R63) -/

/-- `sext_64` of a field. -/
def signExtend64 {w : Nat} (v : BitVec w) : Word :=
  v.signExtend 64

/-- `zext_64` of a field: `zimm` (R63). -/
def zeroExtend64 {w : Nat} (v : BitVec w) : Word :=
  v.setWidth 64

/-- `immU = sext_64({w[31:12], 0x000})` (R61). -/
def upperImm (imm20 : BitVec 20) : Word :=
  signExtend64 (imm20 ++ 0#12 : BitVec 32)

/-- A 64-bit shift's count: the low 6 bits of the register (40_r_type.md R80, R83). -/
def shiftCount (v : Word) : Nat :=
  (v.extractLsb' 0 6).toNat

/-- A 32-bit shift's count: the low 5 bits of the register (40_r_type.md R91). -/
def shiftCountW (v : Word) : Nat :=
  (v.extractLsb' 0 5).toNat

/-- The low word `v[31:0]` of a register (40_r_type.md R91). -/
def lowWord (v : Word) : BitVec 32 :=
  v.extractLsb' 0 32

/-! ### Addresses and targets -/

/-- The address of a load, `x[rs1] + immI`, or of a store, `x[rs1] + immS`, modulo 2^64 (20_memory.md
R46). -/
def State.effectiveAddress (s : State) (rs1 : Reg) (imm : BitVec 12) : Word :=
  s.readReg rs1 + signExtend64 imm

/-- The target of `jal` or of a taken branch, relative to the instruction's own address (42_j_type.md
R105; 44_b_type.md R120). -/
def State.relativeTarget {w : Nat} (s : State) (offset : BitVec w) : Word :=
  s.pc + signExtend64 offset

/-- The target of `jalr`, bit 0 cleared (47_i_type_loads_jalr.md R173, R174). -/
def State.indirectTarget (s : State) (rs1 : Reg) (imm : BitVec 12) : Word :=
  s.effectiveAddress rs1 imm &&& 0xFFFFFFFFFFFFFFFE#64

/-! ### What a load makes of the value it reads (20_memory.md R35) -/

/-- `sext_64` of an `n`-byte value. -/
def extendSigned (n : Nat) (v : Nat) : Word :=
  (BitVec.ofNat (8 * n) v).signExtend 64

/-- `zext_64` of an `n`-byte value. -/
def extendUnsigned (n : Nat) (v : Nat) : Word :=
  (BitVec.ofNat (8 * n) v).setWidth 64

/-! ### Products, quotients and remainders (49_rv64m.md) -/

/-- Bits 127 to 64 of a product taken as a 128-bit two's-complement value (R204 to R206). -/
def highProduct (product : Int) : Word :=
  (BitVec.ofInt 128 product).extractLsb' 64 64

/-- The signed quotient: all ones by zero, the dividend on overflow, else rounded toward zero (R200,
R201, R210). -/
def quotientSigned {w : Nat} (a b : BitVec w) : BitVec w :=
  if b = 0#w then BitVec.allOnes w
  else if a = BitVec.intMin w ∧ b = BitVec.allOnes w then BitVec.intMin w
  else BitVec.ofInt w (a.toInt.tdiv b.toInt)

/-- The unsigned quotient: all ones by zero (R202, R211; 90_conflicts.md C2). -/
def quotientUnsigned {w : Nat} (a b : BitVec w) : BitVec w :=
  if b = 0#w then BitVec.allOnes w else BitVec.ofNat w (a.toNat / b.toNat)

/-- The signed remainder: the dividend by zero, 0 on overflow, else `a - b * trunc(a / b)` (R207,
R212). -/
def remainderSigned {w : Nat} (a b : BitVec w) : BitVec w :=
  if b = 0#w then a
  else if a = BitVec.intMin w ∧ b = BitVec.allOnes w then 0#w
  else BitVec.ofInt w (a.toInt - b.toInt * a.toInt.tdiv b.toInt)

/-- The unsigned remainder: the dividend by zero (R208, R213). -/
def remainderUnsigned {w : Nat} (a b : BitVec w) : BitVec w :=
  if b = 0#w then a else BitVec.ofNat w (a.toNat % b.toNat)

/-! ### What an instruction names (10_state.md R12) -/

/-- The register that an instruction writes, if it has an `rd` it writes. -/
def destOf : Instr → Option Reg
  | .add rd .. | .sub rd .. | .sll rd .. | .srl rd .. | .sra rd .. | .slt rd .. | .sltu rd ..
  | .and rd .. | .or rd .. | .xor rd .. | .addw rd .. | .subw rd .. | .sllw rd .. | .srlw rd ..
  | .sraw rd .. | .lui rd .. | .auipc rd .. | .jal rd .. | .addi rd .. | .slti rd .. | .sltiu rd ..
  | .andi rd .. | .ori rd .. | .xori rd .. | .slli rd .. | .srli rd .. | .srai rd ..
  | .csrrw rd .. | .csrrs rd .. | .csrrc rd .. | .csrrwi rd .. | .csrrsi rd .. | .csrrci rd ..
  | .lb rd .. | .lh rd .. | .lw rd .. | .lbu rd .. | .lhu rd .. | .jalr rd .. | .addiw rd ..
  | .slliw rd .. | .srliw rd .. | .sraiw rd .. | .lwu rd .. | .ld rd .. | .div rd .. | .divu rd ..
  | .mul rd .. | .mulh rd .. | .mulhsu rd .. | .mulhu rd .. | .rem rd .. | .remu rd ..
  | .mulw rd .. | .divw rd .. | .divuw rd .. | .remw rd .. | .remuw rd .. => some rd
  | .sb .. | .sh .. | .sw .. | .sd .. | .beq .. | .bne .. | .blt .. | .bltu .. | .bge .. | .bgeu ..
  | .ecall | .ebreak | .fence .. | .fenceI | .uret | .mret | .sret | .sfenceVma .. | .wfi => none

/-- The registers that an instruction reads; `sfence.vma` reads neither it names
(48_i_type_system_fence_privileged.md R189). -/
def sourcesOf : Instr → List Reg
  | .add _ rs1 rs2 | .sub _ rs1 rs2 | .sll _ rs1 rs2 | .srl _ rs1 rs2 | .sra _ rs1 rs2
  | .slt _ rs1 rs2 | .sltu _ rs1 rs2 | .and _ rs1 rs2 | .or _ rs1 rs2 | .xor _ rs1 rs2
  | .addw _ rs1 rs2 | .subw _ rs1 rs2 | .sllw _ rs1 rs2 | .srlw _ rs1 rs2 | .sraw _ rs1 rs2
  | .div _ rs1 rs2 | .divu _ rs1 rs2 | .mul _ rs1 rs2 | .mulh _ rs1 rs2 | .mulhsu _ rs1 rs2
  | .mulhu _ rs1 rs2 | .rem _ rs1 rs2 | .remu _ rs1 rs2 | .mulw _ rs1 rs2 | .divw _ rs1 rs2
  | .divuw _ rs1 rs2 | .remw _ rs1 rs2 | .remuw _ rs1 rs2 => [rs1, rs2]
  | .sb rs2 rs1 _ | .sh rs2 rs1 _ | .sw rs2 rs1 _ | .sd rs2 rs1 _ => [rs1, rs2]
  | .beq rs1 rs2 _ | .bne rs1 rs2 _ | .blt rs1 rs2 _ | .bltu rs1 rs2 _ | .bge rs1 rs2 _
  | .bgeu rs1 rs2 _ => [rs1, rs2]
  | .addi _ rs1 _ | .slti _ rs1 _ | .sltiu _ rs1 _ | .andi _ rs1 _ | .ori _ rs1 _ | .xori _ rs1 _
  | .slli _ rs1 _ | .srli _ rs1 _ | .srai _ rs1 _ | .addiw _ rs1 _ | .slliw _ rs1 _
  | .srliw _ rs1 _ | .sraiw _ rs1 _ | .lb _ rs1 _ | .lh _ rs1 _ | .lw _ rs1 _ | .lbu _ rs1 _
  | .lhu _ rs1 _ | .lwu _ rs1 _ | .ld _ rs1 _ | .jalr _ rs1 _ => [rs1]
  | .csrrw _ _ rs1 | .csrrs _ _ rs1 | .csrrc _ _ rs1 => [rs1]
  | .lui .. | .auipc .. | .jal .. | .csrrwi .. | .csrrsi .. | .csrrci .. | .ecall | .ebreak
  | .fence .. | .fenceI | .uret | .mret | .sret | .sfenceVma .. | .wfi => []

/-- The CSR that an instruction writes: `csrrw` and `csrrwi` always, the others unless their `rs1` field
or `zimm` is 0 (46_i_type_csr.md R157). -/
def csrWrittenBy : Instr → Option CsrAddr
  | .csrrw _ csr _ | .csrrwi _ csr _ => some csr
  | .csrrs _ csr src | .csrrc _ csr src | .csrrsi _ csr src | .csrrci _ csr src =>
    if src = 0#5 then none else some csr
  | _ => none

/-- The access of a load or a store: its kind, its address and its number of bytes (20_memory.md R35). -/
def accessOf (s : State) : Instr → Option (AccessKind × Word × Nat)
  | .lb _ rs1 imm | .lbu _ rs1 imm => some (.load, s.effectiveAddress rs1 imm, 1)
  | .lh _ rs1 imm | .lhu _ rs1 imm => some (.load, s.effectiveAddress rs1 imm, 2)
  | .lw _ rs1 imm | .lwu _ rs1 imm => some (.load, s.effectiveAddress rs1 imm, 4)
  | .ld _ rs1 imm => some (.load, s.effectiveAddress rs1 imm, 8)
  | .sb _ rs1 imm => some (.store, s.effectiveAddress rs1 imm, 1)
  | .sh _ rs1 imm => some (.store, s.effectiveAddress rs1 imm, 2)
  | .sw _ rs1 imm => some (.store, s.effectiveAddress rs1 imm, 4)
  | .sd _ rs1 imm => some (.store, s.effectiveAddress rs1 imm, 8)
  | _ => none

/-- The addresses of the bytes that an instruction stores to. -/
def storedBytes (s : State) (i : Instr) : List Nat :=
  match accessOf s i with
  | some (.store, a, n) => accessBytes a n
  | _ => []

/-- Where an instruction goes if it is a jump or a taken branch (10_state.md R14). -/
def targetOf (s : State) : Instr → Option Word
  | .jal _ offset => some (s.relativeTarget offset)
  | .jalr _ rs1 imm => some (s.indirectTarget rs1 imm)
  | .beq rs1 rs2 offset =>
    if s.readReg rs1 = s.readReg rs2 then some (s.relativeTarget offset) else none
  | .bne rs1 rs2 offset =>
    if s.readReg rs1 ≠ s.readReg rs2 then some (s.relativeTarget offset) else none
  | .blt rs1 rs2 offset =>
    if ltSigned (s.readReg rs1) (s.readReg rs2) then some (s.relativeTarget offset) else none
  | .bltu rs1 rs2 offset =>
    if ltUnsigned (s.readReg rs1) (s.readReg rs2) then some (s.relativeTarget offset) else none
  | .bge rs1 rs2 offset =>
    if geSigned (s.readReg rs1) (s.readReg rs2) then some (s.relativeTarget offset) else none
  | .bgeu rs1 rs2 offset =>
    if geUnsigned (s.readReg rs1) (s.readReg rs2) then some (s.relativeTarget offset) else none
  | _ => none

end Sys2Proof.Machine
end

