-- ==== Sys2Proof/Machine/Branches.lean ====
section
/-! DEFINITION. The conditional branches (44_b_type.md). -/

namespace Sys2Proof.Machine

/-- `beq` (44_b_type.md R121): taken if `x[rs1] = x[rs2]`. -/
def execBeq (rs1 rs2 : Reg) (offset : BitVec 13) (s : State) : Outcome :=
  s.branchTo (decide (s.readReg rs1 = s.readReg rs2)) (s.relativeTarget offset)

/-- `bne` (44_b_type.md R122): taken if `x[rs1] != x[rs2]`. -/
def execBne (rs1 rs2 : Reg) (offset : BitVec 13) (s : State) : Outcome :=
  s.branchTo (decide (s.readReg rs1 ≠ s.readReg rs2)) (s.relativeTarget offset)

/-- `blt` (44_b_type.md R123): taken if `x[rs1] <s x[rs2]`. -/
def execBlt (rs1 rs2 : Reg) (offset : BitVec 13) (s : State) : Outcome :=
  s.branchTo (ltSigned (s.readReg rs1) (s.readReg rs2)) (s.relativeTarget offset)

/-- `bltu` (44_b_type.md R124): taken if `x[rs1] <u x[rs2]`. -/
def execBltu (rs1 rs2 : Reg) (offset : BitVec 13) (s : State) : Outcome :=
  s.branchTo (ltUnsigned (s.readReg rs1) (s.readReg rs2)) (s.relativeTarget offset)

/-- `bge` (44_b_type.md R125): taken if `x[rs1] >=s x[rs2]`. -/
def execBge (rs1 rs2 : Reg) (offset : BitVec 13) (s : State) : Outcome :=
  s.branchTo (geSigned (s.readReg rs1) (s.readReg rs2)) (s.relativeTarget offset)

/-- `bgeu` (44_b_type.md R126): taken if `x[rs1] >=u x[rs2]`. -/
def execBgeu (rs1 rs2 : Reg) (offset : BitVec 13) (s : State) : Outcome :=
  s.branchTo (geUnsigned (s.readReg rs1) (s.readReg rs2)) (s.relativeTarget offset)


end Sys2Proof.Machine
end

