-- ==== Sys2Proof/Decode.lean ====
section
/-! DEFINITION. The decoder and the encoder, from 30_encoding.md. -/

namespace Sys2Proof

/-! ### The fields of an instruction word (30_encoding.md R51 to R64) -/

/-- `w[6:0]`. -/
def opcodeOf (w : InstrWord) : BitVec 7 := w.extractLsb' 0 7
/-- `rd = w[11:7]` (R64). -/
def rdOf (w : InstrWord) : Reg := w.extractLsb' 7 5
/-- `w[14:12]`. -/
def func3Of (w : InstrWord) : BitVec 3 := w.extractLsb' 12 3
/-- `rs1 = w[19:15]` (R64), or `zimm` (R63). -/
def rs1Of (w : InstrWord) : Reg := w.extractLsb' 15 5
/-- `rs2 = w[24:20]` (R64), or the 5-bit `shamt` (R63). -/
def rs2Of (w : InstrWord) : Reg := w.extractLsb' 20 5
/-- `w[31:25]`. -/
def func7Of (w : InstrWord) : BitVec 7 := w.extractLsb' 25 7
/-- `w[31:20]`: the I-immediate (R58) or the CSR address (R63). -/
def imm12Of (w : InstrWord) : BitVec 12 := w.extractLsb' 20 12
/-- `w[31:26]`, constant in the 6-bit shift forms (R69). -/
def func6Of (w : InstrWord) : BitVec 6 := w.extractLsb' 26 6
/-- `shamt = w[25:20]`, 6 bits (R63). -/
def shamt6Of (w : InstrWord) : BitVec 6 := w.extractLsb' 20 6
/-- The S-immediate `{w[31:25], w[11:7]}` (R59). -/
def immSOf (w : InstrWord) : BitVec 12 := w.extractLsb' 25 7 ++ w.extractLsb' 7 5
/-- The B-immediate `{w[31], w[7], w[30:25], w[11:8], 0}` (R60). -/
def immBOf (w : InstrWord) : BitVec 13 :=
  w.extractLsb' 31 1 ++ w.extractLsb' 7 1 ++ w.extractLsb' 25 6 ++ w.extractLsb' 8 4 ++ 0#1
/-- The U-field `w[31:12]` (R61). -/
def imm20Of (w : InstrWord) : BitVec 20 := w.extractLsb' 12 20
/-- The J-immediate `{w[31], w[19:12], w[20], w[30:21], 0}` (R62). -/
def immJOf (w : InstrWord) : BitVec 21 :=
  w.extractLsb' 31 1 ++ w.extractLsb' 12 8 ++ w.extractLsb' 20 1 ++ w.extractLsb' 21 10 ++ 0#1
/-- `w[31:28]`, constant in `fence` (R70). -/
def fenceModeOf (w : InstrWord) : BitVec 4 := w.extractLsb' 28 4
/-- `pred = w[27:24]` (R63). -/
def predOf (w : InstrWord) : BitVec 4 := w.extractLsb' 24 4
/-- `succ = w[23:20]` (R63). -/
def succOf (w : InstrWord) : BitVec 4 := w.extractLsb' 20 4

/-! ### The decoder (30_encoding.md R65 to R72, 49_rv64m.md R214) -/

/-- Opcode 0000011: the loads. -/
def decodeLoad (w : InstrWord) : Option Instr :=
  match func3Of w with
  | 0b000 => some (.lb (rdOf w) (rs1Of w) (imm12Of w))
  | 0b001 => some (.lh (rdOf w) (rs1Of w) (imm12Of w))
  | 0b010 => some (.lw (rdOf w) (rs1Of w) (imm12Of w))
  | 0b011 => some (.ld (rdOf w) (rs1Of w) (imm12Of w))
  | 0b100 => some (.lbu (rdOf w) (rs1Of w) (imm12Of w))
  | 0b101 => some (.lhu (rdOf w) (rs1Of w) (imm12Of w))
  | 0b110 => some (.lwu (rdOf w) (rs1Of w) (imm12Of w))
  | _ => none

/-- Opcode 0001111: `fence` and `fence.i`. With `FENCE_STRICT` the fields the source writes as zeros
must be zeros; without it they are ignored (R70; 48_i_type_system_fence_privileged.md R183, R184). -/
def decodeFence (p : Params) (w : InstrWord) : Option Instr :=
  match func3Of w with
  | 0b000 =>
    if p.fenceStrict = false ∨ (fenceModeOf w = 0#4 ∧ rs1Of w = 0#5 ∧ rdOf w = 0#5) then
      some (.fence (predOf w) (succOf w))
    else none
  | 0b001 =>
    if p.fenceStrict = false ∨ (imm12Of w = 0#12 ∧ rs1Of w = 0#5 ∧ rdOf w = 0#5) then
      some .fenceI
    else none
  | _ => none

/-- Opcode 0010011: arithmetic, logic and 64-bit shifts with an immediate; the shifts need their
constant in `w[31:26]` (R69). -/
def decodeOpImm (w : InstrWord) : Option Instr :=
  match func3Of w with
  | 0b000 => some (.addi (rdOf w) (rs1Of w) (imm12Of w))
  | 0b001 =>
    match func6Of w with
    | 0b000000 => some (.slli (rdOf w) (rs1Of w) (shamt6Of w))
    | _ => none
  | 0b010 => some (.slti (rdOf w) (rs1Of w) (imm12Of w))
  | 0b011 => some (.sltiu (rdOf w) (rs1Of w) (imm12Of w))
  | 0b100 => some (.xori (rdOf w) (rs1Of w) (imm12Of w))
  | 0b101 =>
    match func6Of w with
    | 0b000000 => some (.srli (rdOf w) (rs1Of w) (shamt6Of w))
    | 0b010000 => some (.srai (rdOf w) (rs1Of w) (shamt6Of w))
    | _ => none
  | 0b110 => some (.ori (rdOf w) (rs1Of w) (imm12Of w))
  | 0b111 => some (.andi (rdOf w) (rs1Of w) (imm12Of w))
  | _ => none

/-- Opcode 0011011: `addiw` and the 32-bit shifts with an immediate (R69: `w[25] = 1` is illegal). -/
def decodeOpImm32 (w : InstrWord) : Option Instr :=
  match func3Of w with
  | 0b000 => some (.addiw (rdOf w) (rs1Of w) (imm12Of w))
  | 0b001 =>
    match func7Of w with
    | 0b0000000 => some (.slliw (rdOf w) (rs1Of w) (rs2Of w))
    | _ => none
  | 0b101 =>
    match func7Of w with
    | 0b0000000 => some (.srliw (rdOf w) (rs1Of w) (rs2Of w))
    | 0b0100000 => some (.sraiw (rdOf w) (rs1Of w) (rs2Of w))
    | _ => none
  | _ => none

/-- Opcode 0100011: the stores. -/
def decodeStore (w : InstrWord) : Option Instr :=
  match func3Of w with
  | 0b000 => some (.sb (rs2Of w) (rs1Of w) (immSOf w))
  | 0b001 => some (.sh (rs2Of w) (rs1Of w) (immSOf w))
  | 0b010 => some (.sw (rs2Of w) (rs1Of w) (immSOf w))
  | 0b011 => some (.sd (rs2Of w) (rs1Of w) (immSOf w))
  | _ => none

/-- Opcode 0110011 with `func7 = 0000001`: `div`, `divu`, and the six that only `RV64M_FULL` admits
(49_rv64m.md R214). -/
def decodeMulDiv (p : Params) (w : InstrWord) : Option Instr :=
  match func3Of w with
  | 0b100 => some (.div (rdOf w) (rs1Of w) (rs2Of w))
  | 0b101 => some (.divu (rdOf w) (rs1Of w) (rs2Of w))
  | f3 =>
    if p.rv64mFull then
      match f3 with
      | 0b000 => some (.mul (rdOf w) (rs1Of w) (rs2Of w))
      | 0b001 => some (.mulh (rdOf w) (rs1Of w) (rs2Of w))
      | 0b010 => some (.mulhsu (rdOf w) (rs1Of w) (rs2Of w))
      | 0b011 => some (.mulhu (rdOf w) (rs1Of w) (rs2Of w))
      | 0b110 => some (.rem (rdOf w) (rs1Of w) (rs2Of w))
      | 0b111 => some (.remu (rdOf w) (rs1Of w) (rs2Of w))
      | _ => none
    else none

/-- Opcode 0111011 with `func7 = 0000001`: the five that only `RV64M_FULL` admits (49_rv64m.md R214). -/
def decodeMulDiv32 (p : Params) (w : InstrWord) : Option Instr :=
  if p.rv64mFull then
    match func3Of w with
    | 0b000 => some (.mulw (rdOf w) (rs1Of w) (rs2Of w))
    | 0b100 => some (.divw (rdOf w) (rs1Of w) (rs2Of w))
    | 0b101 => some (.divuw (rdOf w) (rs1Of w) (rs2Of w))
    | 0b110 => some (.remw (rdOf w) (rs1Of w) (rs2Of w))
    | 0b111 => some (.remuw (rdOf w) (rs1Of w) (rs2Of w))
    | _ => none
  else none

/-- Opcode 0110011: register with register, 64 bits. -/
def decodeOp (p : Params) (w : InstrWord) : Option Instr :=
  match func7Of w with
  | 0b0000000 =>
    match func3Of w with
    | 0b000 => some (.add (rdOf w) (rs1Of w) (rs2Of w))
    | 0b001 => some (.sll (rdOf w) (rs1Of w) (rs2Of w))
    | 0b010 => some (.slt (rdOf w) (rs1Of w) (rs2Of w))
    | 0b011 => some (.sltu (rdOf w) (rs1Of w) (rs2Of w))
    | 0b100 => some (.xor (rdOf w) (rs1Of w) (rs2Of w))
    | 0b101 => some (.srl (rdOf w) (rs1Of w) (rs2Of w))
    | 0b110 => some (.or (rdOf w) (rs1Of w) (rs2Of w))
    | 0b111 => some (.and (rdOf w) (rs1Of w) (rs2Of w))
    | _ => none
  | 0b0100000 =>
    match func3Of w with
    | 0b000 => some (.sub (rdOf w) (rs1Of w) (rs2Of w))
    | 0b101 => some (.sra (rdOf w) (rs1Of w) (rs2Of w))
    | _ => none
  | 0b0000001 => decodeMulDiv p w
  | _ => none

/-- Opcode 0111011: register with register, 32 bits. -/
def decodeOp32 (p : Params) (w : InstrWord) : Option Instr :=
  match func7Of w with
  | 0b0000000 =>
    match func3Of w with
    | 0b000 => some (.addw (rdOf w) (rs1Of w) (rs2Of w))
    | 0b001 => some (.sllw (rdOf w) (rs1Of w) (rs2Of w))
    | 0b101 => some (.srlw (rdOf w) (rs1Of w) (rs2Of w))
    | _ => none
  | 0b0100000 =>
    match func3Of w with
    | 0b000 => some (.subw (rdOf w) (rs1Of w) (rs2Of w))
    | 0b101 => some (.sraw (rdOf w) (rs1Of w) (rs2Of w))
    | _ => none
  | 0b0000001 => decodeMulDiv32 p w
  | _ => none

/-- Opcode 1100011: the branches. -/
def decodeBranch (w : InstrWord) : Option Instr :=
  match func3Of w with
  | 0b000 => some (.beq (rs1Of w) (rs2Of w) (immBOf w))
  | 0b001 => some (.bne (rs1Of w) (rs2Of w) (immBOf w))
  | 0b100 => some (.blt (rs1Of w) (rs2Of w) (immBOf w))
  | 0b101 => some (.bge (rs1Of w) (rs2Of w) (immBOf w))
  | 0b110 => some (.bltu (rs1Of w) (rs2Of w) (immBOf w))
  | 0b111 => some (.bgeu (rs1Of w) (rs2Of w) (immBOf w))
  | _ => none

/-- Opcode 1110011 with `func3 = 000`: six fixed words and the `sfence.vma` pattern, whose bits 11~7
are free (48_i_type_system_fence_privileged.md R180; 90_conflicts.md C6). -/
def decodePrivileged (w : InstrWord) : Option Instr :=
  match func7Of w with
  | 0b0001001 => some (.sfenceVma (rdOf w) (rs1Of w) (rs2Of w))
  | _ =>
    if rs1Of w = 0#5 ∧ rdOf w = 0#5 then
      match imm12Of w with
      | 0b000000000000 => some .ecall
      | 0b000000000001 => some .ebreak
      | 0b000000000010 => some .uret
      | 0b000100000010 => some .sret
      | 0b000100000101 => some .wfi
      | 0b001100000010 => some .mret
      | _ => none
    else none

/-- Opcode 1110011: the CSR instructions and, under `func3 = 000`, the system instructions. -/
def decodeSystem (w : InstrWord) : Option Instr :=
  match func3Of w with
  | 0b000 => decodePrivileged w
  | 0b001 => some (.csrrw (rdOf w) (imm12Of w) (rs1Of w))
  | 0b010 => some (.csrrs (rdOf w) (imm12Of w) (rs1Of w))
  | 0b011 => some (.csrrc (rdOf w) (imm12Of w) (rs1Of w))
  | 0b101 => some (.csrrwi (rdOf w) (imm12Of w) (rs1Of w))
  | 0b110 => some (.csrrsi (rdOf w) (imm12Of w) (rs1Of w))
  | 0b111 => some (.csrrci (rdOf w) (imm12Of w) (rs1Of w))
  | _ => none

/-- The instruction that a word stands for, if it matches a row of the opcode table (R65, R66). -/
def decodeInstr (p : Params) (w : InstrWord) : Option Instr :=
  match opcodeOf w with
  | 0b0000011 => decodeLoad w
  | 0b0001111 => decodeFence p w
  | 0b0010011 => decodeOpImm w
  | 0b0010111 => some (.auipc (rdOf w) (imm20Of w))
  | 0b0011011 => decodeOpImm32 w
  | 0b0100011 => decodeStore w
  | 0b0110011 => decodeOp p w
  | 0b0110111 => some (.lui (rdOf w) (imm20Of w))
  | 0b0111011 => decodeOp32 p w
  | 0b1100011 => decodeBranch w
  | 0b1100111 =>
    match func3Of w with
    | 0b000 => some (.jalr (rdOf w) (rs1Of w) (imm12Of w))
    | _ => none
  | 0b1101111 => some (.jal (rdOf w) (immJOf w))
  | 0b1110011 => decodeSystem w
  | _ => none

/-- What the decoder answers: an instruction, or that the word is illegal (30_encoding.md R68). -/
inductive Decoded where
  | instr (i : Instr)
  | illegal (w : InstrWord)
  deriving DecidableEq, Repr

/-- The decoder, total on 32-bit words (30_encoding.md R66, R68). -/
def decode (p : Params) (w : InstrWord) : Decoded :=
  match decodeInstr p w with
  | some i => .instr i
  | none => .illegal w

/-- The instruction word of four bytes, the lowest address first: little-endian (20_memory.md R31). -/
def wordOfBytes (b0 b1 b2 b3 : Byte) : InstrWord :=
  b3 ++ b2 ++ b1 ++ b0

/-- The four bytes of an instruction word, the lowest address first (20_memory.md R31). -/
def bytesOfWord (w : InstrWord) : List Byte :=
  [w.extractLsb' 0 8, w.extractLsb' 8 8, w.extractLsb' 16 8, w.extractLsb' 24 8]

/-- The decoder on bytes: what it reads from the first four, and the bytes after them; `none` where
there are fewer than four (30_encoding.md R50). -/
def decodeBytes (p : Params) : List Byte → Option (Decoded × List Byte)
  | b0 :: b1 :: b2 :: b3 :: rest => some (decode p (wordOfBytes b0 b1 b2 b3), rest)
  | _ => none

/-- The parameters under which every row of spec/opcode_table.json is admitted. -/
def Params.tableParams : Params :=
  { Params.default with rv64mFull := true }

/-- The host's question: the instruction the decoder reads from an instruction whose bits are `w`, every
row of the table admitted (log entry 14). -/
def decodeTableWord (nbits w : Nat) : Option Instr :=
  match decodeBytes Params.tableParams (bytesOfWord (BitVec.ofNat 32 (w % 2 ^ nbits))) with
  | some (.instr i, _) => some i
  | _ => none

/-! ### The encoder (30_encoding.md R51 to R56, R67) -/

/-- R format (R51). -/
def encR (func7 : BitVec 7) (rs2 rs1 : Reg) (func3 : BitVec 3) (rd : Reg) (opcode : BitVec 7) : InstrWord :=
  func7 ++ rs2 ++ rs1 ++ func3 ++ rd ++ opcode

/-- I format (R52). -/
def encI (imm : BitVec 12) (rs1 : Reg) (func3 : BitVec 3) (rd : Reg) (opcode : BitVec 7) : InstrWord :=
  imm ++ rs1 ++ func3 ++ rd ++ opcode

/-- S format (R53). -/
def encS (imm : BitVec 12) (rs2 rs1 : Reg) (func3 : BitVec 3) (opcode : BitVec 7) : InstrWord :=
  imm.extractLsb' 5 7 ++ rs2 ++ rs1 ++ func3 ++ imm.extractLsb' 0 5 ++ opcode

/-- B format (R54). -/
def encB (offset : BitVec 13) (rs2 rs1 : Reg) (func3 : BitVec 3) (opcode : BitVec 7) : InstrWord :=
  offset.extractLsb' 12 1 ++ offset.extractLsb' 5 6 ++ rs2 ++ rs1 ++ func3
    ++ offset.extractLsb' 1 4 ++ offset.extractLsb' 11 1 ++ opcode

/-- U format (R55). -/
def encU (imm20 : BitVec 20) (rd : Reg) (opcode : BitVec 7) : InstrWord :=
  imm20 ++ rd ++ opcode

/-- J format (R56). -/
def encJ (offset : BitVec 21) (rd : Reg) (opcode : BitVec 7) : InstrWord :=
  offset.extractLsb' 20 1 ++ offset.extractLsb' 1 10 ++ offset.extractLsb' 11 1
    ++ offset.extractLsb' 12 8 ++ rd ++ opcode

/-- The word of an instruction (R67; 49_rv64m.md R203 to R213). -/
def encode : Instr → InstrWord
  | .add rd rs1 rs2 => encR 0b0000000#7 rs2 rs1 0b000#3 rd 0b0110011#7
  | .sub rd rs1 rs2 => encR 0b0100000#7 rs2 rs1 0b000#3 rd 0b0110011#7
  | .sll rd rs1 rs2 => encR 0b0000000#7 rs2 rs1 0b001#3 rd 0b0110011#7
  | .srl rd rs1 rs2 => encR 0b0000000#7 rs2 rs1 0b101#3 rd 0b0110011#7
  | .sra rd rs1 rs2 => encR 0b0100000#7 rs2 rs1 0b101#3 rd 0b0110011#7
  | .slt rd rs1 rs2 => encR 0b0000000#7 rs2 rs1 0b010#3 rd 0b0110011#7
  | .sltu rd rs1 rs2 => encR 0b0000000#7 rs2 rs1 0b011#3 rd 0b0110011#7
  | .and rd rs1 rs2 => encR 0b0000000#7 rs2 rs1 0b111#3 rd 0b0110011#7
  | .or rd rs1 rs2 => encR 0b0000000#7 rs2 rs1 0b110#3 rd 0b0110011#7
  | .xor rd rs1 rs2 => encR 0b0000000#7 rs2 rs1 0b100#3 rd 0b0110011#7
  | .addw rd rs1 rs2 => encR 0b0000000#7 rs2 rs1 0b000#3 rd 0b0111011#7
  | .subw rd rs1 rs2 => encR 0b0100000#7 rs2 rs1 0b000#3 rd 0b0111011#7
  | .sllw rd rs1 rs2 => encR 0b0000000#7 rs2 rs1 0b001#3 rd 0b0111011#7
  | .srlw rd rs1 rs2 => encR 0b0000000#7 rs2 rs1 0b101#3 rd 0b0111011#7
  | .sraw rd rs1 rs2 => encR 0b0100000#7 rs2 rs1 0b101#3 rd 0b0111011#7
  | .lui rd imm20 => encU imm20 rd 0b0110111#7
  | .auipc rd imm20 => encU imm20 rd 0b0010111#7
  | .jal rd offset => encJ offset rd 0b1101111#7
  | .sb rs2 rs1 imm => encS imm rs2 rs1 0b000#3 0b0100011#7
  | .sh rs2 rs1 imm => encS imm rs2 rs1 0b001#3 0b0100011#7
  | .sw rs2 rs1 imm => encS imm rs2 rs1 0b010#3 0b0100011#7
  | .sd rs2 rs1 imm => encS imm rs2 rs1 0b011#3 0b0100011#7
  | .beq rs1 rs2 offset => encB offset rs2 rs1 0b000#3 0b1100011#7
  | .bne rs1 rs2 offset => encB offset rs2 rs1 0b001#3 0b1100011#7
  | .blt rs1 rs2 offset => encB offset rs2 rs1 0b100#3 0b1100011#7
  | .bltu rs1 rs2 offset => encB offset rs2 rs1 0b110#3 0b1100011#7
  | .bge rs1 rs2 offset => encB offset rs2 rs1 0b101#3 0b1100011#7
  | .bgeu rs1 rs2 offset => encB offset rs2 rs1 0b111#3 0b1100011#7
  | .addi rd rs1 imm => encI imm rs1 0b000#3 rd 0b0010011#7
  | .slti rd rs1 imm => encI imm rs1 0b010#3 rd 0b0010011#7
  | .sltiu rd rs1 imm => encI imm rs1 0b011#3 rd 0b0010011#7
  | .andi rd rs1 imm => encI imm rs1 0b111#3 rd 0b0010011#7
  | .ori rd rs1 imm => encI imm rs1 0b110#3 rd 0b0010011#7
  | .xori rd rs1 imm => encI imm rs1 0b100#3 rd 0b0010011#7
  | .slli rd rs1 shamt => encI (0b000000#6 ++ shamt) rs1 0b001#3 rd 0b0010011#7
  | .srli rd rs1 shamt => encI (0b000000#6 ++ shamt) rs1 0b101#3 rd 0b0010011#7
  | .srai rd rs1 shamt => encI (0b010000#6 ++ shamt) rs1 0b101#3 rd 0b0010011#7
  | .csrrw rd csr rs1 => encI csr rs1 0b001#3 rd 0b1110011#7
  | .csrrs rd csr rs1 => encI csr rs1 0b010#3 rd 0b1110011#7
  | .csrrc rd csr rs1 => encI csr rs1 0b011#3 rd 0b1110011#7
  | .csrrwi rd csr zimm => encI csr zimm 0b101#3 rd 0b1110011#7
  | .csrrsi rd csr zimm => encI csr zimm 0b110#3 rd 0b1110011#7
  | .csrrci rd csr zimm => encI csr zimm 0b111#3 rd 0b1110011#7
  | .lb rd rs1 imm => encI imm rs1 0b000#3 rd 0b0000011#7
  | .lh rd rs1 imm => encI imm rs1 0b001#3 rd 0b0000011#7
  | .lw rd rs1 imm => encI imm rs1 0b010#3 rd 0b0000011#7
  | .lbu rd rs1 imm => encI imm rs1 0b100#3 rd 0b0000011#7
  | .lhu rd rs1 imm => encI imm rs1 0b101#3 rd 0b0000011#7
  | .jalr rd rs1 imm => encI imm rs1 0b000#3 rd 0b1100111#7
  | .ecall => encI 0b000000000000#12 0#5 0b000#3 0#5 0b1110011#7
  | .ebreak => encI 0b000000000001#12 0#5 0b000#3 0#5 0b1110011#7
  | .fence pred succ => encI (0b0000#4 ++ pred ++ succ) 0#5 0b000#3 0#5 0b0001111#7
  | .fenceI => encI 0#12 0#5 0b001#3 0#5 0b0001111#7
  | .addiw rd rs1 imm => encI imm rs1 0b000#3 rd 0b0011011#7
  | .slliw rd rs1 shamt => encI (0b0000000#7 ++ shamt) rs1 0b001#3 rd 0b0011011#7
  | .srliw rd rs1 shamt => encI (0b0000000#7 ++ shamt) rs1 0b101#3 rd 0b0011011#7
  | .sraiw rd rs1 shamt => encI (0b0100000#7 ++ shamt) rs1 0b101#3 rd 0b0011011#7
  | .lwu rd rs1 imm => encI imm rs1 0b110#3 rd 0b0000011#7
  | .ld rd rs1 imm => encI imm rs1 0b011#3 rd 0b0000011#7
  | .uret => encI 0b000000000010#12 0#5 0b000#3 0#5 0b1110011#7
  | .mret => encI 0b001100000010#12 0#5 0b000#3 0#5 0b1110011#7
  | .sret => encI 0b000100000010#12 0#5 0b000#3 0#5 0b1110011#7
  | .sfenceVma rd rs1 rs2 => encR 0b0001001#7 rs2 rs1 0b000#3 rd 0b1110011#7
  | .wfi => encR 0b0001000#7 0b00101#5 0#5 0b000#3 0#5 0b1110011#7
  | .div rd rs1 rs2 => encR 0b0000001#7 rs2 rs1 0b100#3 rd 0b0110011#7
  | .divu rd rs1 rs2 => encR 0b0000001#7 rs2 rs1 0b101#3 rd 0b0110011#7
  | .mul rd rs1 rs2 => encR 0b0000001#7 rs2 rs1 0b000#3 rd 0b0110011#7
  | .mulh rd rs1 rs2 => encR 0b0000001#7 rs2 rs1 0b001#3 rd 0b0110011#7
  | .mulhsu rd rs1 rs2 => encR 0b0000001#7 rs2 rs1 0b010#3 rd 0b0110011#7
  | .mulhu rd rs1 rs2 => encR 0b0000001#7 rs2 rs1 0b011#3 rd 0b0110011#7
  | .rem rd rs1 rs2 => encR 0b0000001#7 rs2 rs1 0b110#3 rd 0b0110011#7
  | .remu rd rs1 rs2 => encR 0b0000001#7 rs2 rs1 0b111#3 rd 0b0110011#7
  | .mulw rd rs1 rs2 => encR 0b0000001#7 rs2 rs1 0b000#3 rd 0b0111011#7
  | .divw rd rs1 rs2 => encR 0b0000001#7 rs2 rs1 0b100#3 rd 0b0111011#7
  | .divuw rd rs1 rs2 => encR 0b0000001#7 rs2 rs1 0b101#3 rd 0b0111011#7
  | .remw rd rs1 rs2 => encR 0b0000001#7 rs2 rs1 0b110#3 rd 0b0111011#7
  | .remuw rd rs1 rs2 => encR 0b0000001#7 rs2 rs1 0b111#3 rd 0b0111011#7

/-! ### The opcode table (30_encoding.md R67, 49_rv64m.md R203 to R213) -/

/-- One row's `match` and `mask`: the row is selected exactly when `w & mask = match` (R66, R67). -/
structure OpcodeRow where
  mask : InstrWord
  bits : InstrWord
  deriving DecidableEq, Repr

/-- Whether a word matches a row. -/
def OpcodeRow.selects (r : OpcodeRow) (w : InstrWord) : Bool :=
  w &&& r.mask == r.bits

/-- Whether the parameters admit an instruction: the eleven that the source does not list need
`RV64M_FULL` (49_rv64m.md R214). -/
def Instr.admitted (p : Params) : Instr → Bool
  | .mul .. | .mulh .. | .mulhsu .. | .mulhu .. | .rem .. | .remu ..
  | .mulw .. | .divw .. | .divuw .. | .remw .. | .remuw .. => p.rv64mFull
  | .add .. | .sub .. | .sll .. | .srl .. | .sra .. | .slt .. | .sltu .. | .and .. | .or .. | .xor ..
  | .addw .. | .subw .. | .sllw .. | .srlw .. | .sraw .. | .lui .. | .auipc .. | .jal ..
  | .sb .. | .sh .. | .sw .. | .sd .. | .beq .. | .bne .. | .blt .. | .bltu .. | .bge .. | .bgeu ..
  | .addi .. | .slti .. | .sltiu .. | .andi .. | .ori .. | .xori .. | .slli .. | .srli .. | .srai ..
  | .csrrw .. | .csrrs .. | .csrrc .. | .csrrwi .. | .csrrsi .. | .csrrci ..
  | .lb .. | .lh .. | .lw .. | .lbu .. | .lhu .. | .lwu .. | .ld .. | .jalr ..
  | .ecall | .ebreak | .fence .. | .fenceI | .addiw .. | .slliw .. | .srliw .. | .sraiw ..
  | .uret | .mret | .sret | .sfenceVma .. | .wfi | .div .. | .divu .. => true

/-- The row of an instruction; the rows of `fence` and `fence.i` depend on `FENCE_STRICT` (R70). -/
def Instr.opcodeRow (p : Params) : Instr → OpcodeRow
  | .add .. => ⟨0xfe00707f#32, 0x00000033#32⟩
  | .sub .. => ⟨0xfe00707f#32, 0x40000033#32⟩
  | .sll .. => ⟨0xfe00707f#32, 0x00001033#32⟩
  | .srl .. => ⟨0xfe00707f#32, 0x00005033#32⟩
  | .sra .. => ⟨0xfe00707f#32, 0x40005033#32⟩
  | .slt .. => ⟨0xfe00707f#32, 0x00002033#32⟩
  | .sltu .. => ⟨0xfe00707f#32, 0x00003033#32⟩
  | .and .. => ⟨0xfe00707f#32, 0x00007033#32⟩
  | .or .. => ⟨0xfe00707f#32, 0x00006033#32⟩
  | .xor .. => ⟨0xfe00707f#32, 0x00004033#32⟩
  | .addw .. => ⟨0xfe00707f#32, 0x0000003b#32⟩
  | .subw .. => ⟨0xfe00707f#32, 0x4000003b#32⟩
  | .sllw .. => ⟨0xfe00707f#32, 0x0000103b#32⟩
  | .srlw .. => ⟨0xfe00707f#32, 0x0000503b#32⟩
  | .sraw .. => ⟨0xfe00707f#32, 0x4000503b#32⟩
  | .lui .. => ⟨0x0000007f#32, 0x00000037#32⟩
  | .auipc .. => ⟨0x0000007f#32, 0x00000017#32⟩
  | .jal .. => ⟨0x0000007f#32, 0x0000006f#32⟩
  | .sb .. => ⟨0x0000707f#32, 0x00000023#32⟩
  | .sh .. => ⟨0x0000707f#32, 0x00001023#32⟩
  | .sw .. => ⟨0x0000707f#32, 0x00002023#32⟩
  | .sd .. => ⟨0x0000707f#32, 0x00003023#32⟩
  | .beq .. => ⟨0x0000707f#32, 0x00000063#32⟩
  | .bne .. => ⟨0x0000707f#32, 0x00001063#32⟩
  | .blt .. => ⟨0x0000707f#32, 0x00004063#32⟩
  | .bltu .. => ⟨0x0000707f#32, 0x00006063#32⟩
  | .bge .. => ⟨0x0000707f#32, 0x00005063#32⟩
  | .bgeu .. => ⟨0x0000707f#32, 0x00007063#32⟩
  | .addi .. => ⟨0x0000707f#32, 0x00000013#32⟩
  | .slti .. => ⟨0x0000707f#32, 0x00002013#32⟩
  | .sltiu .. => ⟨0x0000707f#32, 0x00003013#32⟩
  | .andi .. => ⟨0x0000707f#32, 0x00007013#32⟩
  | .ori .. => ⟨0x0000707f#32, 0x00006013#32⟩
  | .xori .. => ⟨0x0000707f#32, 0x00004013#32⟩
  | .slli .. => ⟨0xfc00707f#32, 0x00001013#32⟩
  | .srli .. => ⟨0xfc00707f#32, 0x00005013#32⟩
  | .srai .. => ⟨0xfc00707f#32, 0x40005013#32⟩
  | .csrrw .. => ⟨0x0000707f#32, 0x00001073#32⟩
  | .csrrs .. => ⟨0x0000707f#32, 0x00002073#32⟩
  | .csrrc .. => ⟨0x0000707f#32, 0x00003073#32⟩
  | .csrrwi .. => ⟨0x0000707f#32, 0x00005073#32⟩
  | .csrrsi .. => ⟨0x0000707f#32, 0x00006073#32⟩
  | .csrrci .. => ⟨0x0000707f#32, 0x00007073#32⟩
  | .lb .. => ⟨0x0000707f#32, 0x00000003#32⟩
  | .lh .. => ⟨0x0000707f#32, 0x00001003#32⟩
  | .lw .. => ⟨0x0000707f#32, 0x00002003#32⟩
  | .lbu .. => ⟨0x0000707f#32, 0x00004003#32⟩
  | .lhu .. => ⟨0x0000707f#32, 0x00005003#32⟩
  | .jalr .. => ⟨0x0000707f#32, 0x00000067#32⟩
  | .ecall => ⟨0xffffffff#32, 0x00000073#32⟩
  | .ebreak => ⟨0xffffffff#32, 0x00100073#32⟩
  | .fence .. => if p.fenceStrict then ⟨0xf00fffff#32, 0x0000000f#32⟩ else ⟨0x0000707f#32, 0x0000000f#32⟩
  | .fenceI => if p.fenceStrict then ⟨0xffffffff#32, 0x0000100f#32⟩ else ⟨0x0000707f#32, 0x0000100f#32⟩
  | .addiw .. => ⟨0x0000707f#32, 0x0000001b#32⟩
  | .slliw .. => ⟨0xfe00707f#32, 0x0000101b#32⟩
  | .srliw .. => ⟨0xfe00707f#32, 0x0000501b#32⟩
  | .sraiw .. => ⟨0xfe00707f#32, 0x4000501b#32⟩
  | .lwu .. => ⟨0x0000707f#32, 0x00006003#32⟩
  | .ld .. => ⟨0x0000707f#32, 0x00003003#32⟩
  | .uret => ⟨0xffffffff#32, 0x00200073#32⟩
  | .mret => ⟨0xffffffff#32, 0x30200073#32⟩
  | .sret => ⟨0xffffffff#32, 0x10200073#32⟩
  | .sfenceVma .. => ⟨0xfe00707f#32, 0x12000073#32⟩
  | .wfi => ⟨0xffffffff#32, 0x10500073#32⟩
  | .div .. => ⟨0xfe00707f#32, 0x02004033#32⟩
  | .divu .. => ⟨0xfe00707f#32, 0x02005033#32⟩
  | .mul .. => ⟨0xfe00707f#32, 0x02000033#32⟩
  | .mulh .. => ⟨0xfe00707f#32, 0x02001033#32⟩
  | .mulhsu .. => ⟨0xfe00707f#32, 0x02002033#32⟩
  | .mulhu .. => ⟨0xfe00707f#32, 0x02003033#32⟩
  | .rem .. => ⟨0xfe00707f#32, 0x02006033#32⟩
  | .remu .. => ⟨0xfe00707f#32, 0x02007033#32⟩
  | .mulw .. => ⟨0xfe00707f#32, 0x0200003b#32⟩
  | .divw .. => ⟨0xfe00707f#32, 0x0200403b#32⟩
  | .divuw .. => ⟨0xfe00707f#32, 0x0200503b#32⟩
  | .remw .. => ⟨0xfe00707f#32, 0x0200603b#32⟩
  | .remuw .. => ⟨0xfe00707f#32, 0x0200703b#32⟩

end Sys2Proof
end

