-- ==== Sys2Proof/Machine/Csr.lean ====
section
/-! DEFINITION. The CSR instructions (46_i_type_csr.md). -/

namespace Sys2Proof.Machine

/-- What the six have in common (46_i_type_csr.md R150, R157): an absent CSR, or a write to a read-only
one, raises `IllegalInstruction` with the instruction's own word (log entry 15); else the old value goes
to `rd` and, if the instruction writes, the new value, made from the old one, to the CSR. -/
def State.accessCsr (s : State) (w : InstrWord) (rd : Reg) (c : CsrAddr) (writes : Bool)
    (new : Word → Word) : Outcome :=
  if s.csrExists c && !(writes && s.csrIsReadonly c) then
    if writes then (s.writeCsr c (new (s.readCsr c))).writeAndAdvance rd (s.readCsr c)
    else s.writeAndAdvance rd (s.readCsr c)
  else raise .illegalInstruction (zeroExtend64 w) s

/-- `csrrw` (46_i_type_csr.md R151): the CSR gets `x[rs1]`; it always writes. -/
def execCsrrw (rd : Reg) (csr : CsrAddr) (rs1 : Reg) (s : State) : Outcome :=
  s.accessCsr (encode (.csrrw rd csr rs1)) rd csr true (fun _ => s.readReg rs1)

/-- `csrrs` (46_i_type_csr.md R152): the bits set in `x[rs1]` are set in the CSR; it writes unless the `rs1` field is 0. -/
def execCsrrs (rd : Reg) (csr : CsrAddr) (rs1 : Reg) (s : State) : Outcome :=
  s.accessCsr (encode (.csrrs rd csr rs1)) rd csr (decide (rs1 ≠ 0#5)) (fun t => t ||| s.readReg rs1)

/-- `csrrc` (46_i_type_csr.md R153): the bits set in `x[rs1]` are cleared in the CSR; it writes unless the `rs1` field is 0. -/
def execCsrrc (rd : Reg) (csr : CsrAddr) (rs1 : Reg) (s : State) : Outcome :=
  s.accessCsr (encode (.csrrc rd csr rs1)) rd csr (decide (rs1 ≠ 0#5)) (fun t => t &&& ~~~(s.readReg rs1))

/-- `csrrwi` (46_i_type_csr.md R154): the CSR gets `zimm`; it always writes. -/
def execCsrrwi (rd : Reg) (csr : CsrAddr) (zimm : BitVec 5) (s : State) : Outcome :=
  s.accessCsr (encode (.csrrwi rd csr zimm)) rd csr true (fun _ => zeroExtend64 zimm)

/-- `csrrsi` (46_i_type_csr.md R155): the bits set in `zimm` are set in the CSR; it writes unless `zimm` is 0. -/
def execCsrrsi (rd : Reg) (csr : CsrAddr) (zimm : BitVec 5) (s : State) : Outcome :=
  s.accessCsr (encode (.csrrsi rd csr zimm)) rd csr (decide (zimm ≠ 0#5)) (fun t => t ||| zeroExtend64 zimm)

/-- `csrrci` (46_i_type_csr.md R156): the bits set in `zimm` are cleared in the CSR; it writes unless `zimm` is 0. -/
def execCsrrci (rd : Reg) (csr : CsrAddr) (zimm : BitVec 5) (s : State) : Outcome :=
  s.accessCsr (encode (.csrrci rd csr zimm)) rd csr (decide (zimm ≠ 0#5)) (fun t => t &&& ~~~(zeroExtend64 zimm))


end Sys2Proof.Machine
end

