-- ==== Sys2Proof/Machine/ImmAlu.lean ====
section
/-! DEFINITION. Arithmetic, logic and shifts with an immediate (45_i_type_alu.md). -/

namespace Sys2Proof.Machine

/-- `addi` (45_i_type_alu.md R131): `x[rd] <- x[rs1] + immI`, overflow ignored. -/
def execAddi (rd rs1 : Reg) (imm : BitVec 12) (s : State) : Outcome :=
  s.writeAndAdvance rd (s.readReg rs1 + signExtend64 imm)

/-- `slti` (45_i_type_alu.md R132): 1 if `x[rs1] <s immI`, else 0. -/
def execSlti (rd rs1 : Reg) (imm : BitVec 12) (s : State) : Outcome :=
  s.writeAndAdvance rd (flagWord (ltSigned (s.readReg rs1) (signExtend64 imm)))

/-- `sltiu` (45_i_type_alu.md R133): 1 if `x[rs1] <u immI`, the sign-extended immediate read as unsigned, else 0. -/
def execSltiu (rd rs1 : Reg) (imm : BitVec 12) (s : State) : Outcome :=
  s.writeAndAdvance rd (flagWord (ltUnsigned (s.readReg rs1) (signExtend64 imm)))

/-- `andi` (45_i_type_alu.md R134): bitwise AND with the sign-extended immediate. -/
def execAndi (rd rs1 : Reg) (imm : BitVec 12) (s : State) : Outcome :=
  s.writeAndAdvance rd (s.readReg rs1 &&& signExtend64 imm)

/-- `ori` (45_i_type_alu.md R135): bitwise OR with the sign-extended immediate. -/
def execOri (rd rs1 : Reg) (imm : BitVec 12) (s : State) : Outcome :=
  s.writeAndAdvance rd (s.readReg rs1 ||| signExtend64 imm)

/-- `xori` (45_i_type_alu.md R136): bitwise exclusive OR with the sign-extended immediate. -/
def execXori (rd rs1 : Reg) (imm : BitVec 12) (s : State) : Outcome :=
  s.writeAndAdvance rd (s.readReg rs1 ^^^ signExtend64 imm)

/-- `addiw` (45_i_type_alu.md R141): the low 32 bits of `x[rs1] + immI`, sign-extended. -/
def execAddiw (rd rs1 : Reg) (imm : BitVec 12) (s : State) : Outcome :=
  s.writeAndAdvance rd (signExtend64 (lowWord (s.readReg rs1 + signExtend64 imm)))

/-- `slli` (45_i_type_alu.md R137): logical left shift by the 6-bit `shamt`. -/
def execSlli (rd rs1 : Reg) (shamt : BitVec 6) (s : State) : Outcome :=
  s.writeAndAdvance rd (s.readReg rs1 <<< shamt.toNat)

/-- `srli` (45_i_type_alu.md R138): logical right shift by the 6-bit `shamt`. -/
def execSrli (rd rs1 : Reg) (shamt : BitVec 6) (s : State) : Outcome :=
  s.writeAndAdvance rd (s.readReg rs1 >>> shamt.toNat)

/-- `srai` (45_i_type_alu.md R139): arithmetic right shift by the 6-bit `shamt`. -/
def execSrai (rd rs1 : Reg) (shamt : BitVec 6) (s : State) : Outcome :=
  s.writeAndAdvance rd ((s.readReg rs1).sshiftRight shamt.toNat)

/-- `slliw` (45_i_type_alu.md R142): the low word shifted left by the 5-bit `shamt`, sign-extended. -/
def execSlliw (rd rs1 : Reg) (shamt : BitVec 5) (s : State) : Outcome :=
  s.writeAndAdvance rd (signExtend64 (lowWord (s.readReg rs1) <<< shamt.toNat))

/-- `srliw` (45_i_type_alu.md R143): the low word shifted right logically, sign-extended. -/
def execSrliw (rd rs1 : Reg) (shamt : BitVec 5) (s : State) : Outcome :=
  s.writeAndAdvance rd (signExtend64 (lowWord (s.readReg rs1) >>> shamt.toNat))

/-- `sraiw` (45_i_type_alu.md R144): the low word shifted right arithmetically, sign-extended. -/
def execSraiw (rd rs1 : Reg) (shamt : BitVec 5) (s : State) : Outcome :=
  s.writeAndAdvance rd (signExtend64 ((lowWord (s.readReg rs1)).sshiftRight shamt.toNat))


end Sys2Proof.Machine
end

