-- ==== Sys2Proof/Machine/Jumps.lean ====
section
/-! DEFINITION. The jumps `jal` (42_j_type.md) and `jalr` (47_i_type_loads_jalr.md). -/

namespace Sys2Proof.Machine

/-- `jal` (42_j_type.md R105): go to `pc + immJ`, `pc + 4` in `x[rd]`; a misaligned target raises first. -/
def execJal (rd : Reg) (offset : BitVec 21) (s : State) : Outcome :=
  s.jumpAndLink rd (s.relativeTarget offset)

/-- `jalr` (47_i_type_loads_jalr.md R173): go to `x[rs1] + immI` with bit 0 cleared, `pc + 4` in `x[rd]`;
a misaligned target raises first. -/
def execJalr (rd rs1 : Reg) (imm : BitVec 12) (s : State) : Outcome :=
  s.jumpAndLink rd (s.indirectTarget rs1 imm)


end Sys2Proof.Machine
end

