-- ==== Sys2Proof/Machine/Loads.lean ====
section
/-! DEFINITION. The loads (47_i_type_loads_jalr.md). -/

namespace Sys2Proof.Machine

/-- `lb` (47_i_type_loads_jalr.md R166): a byte, sign-extended, from `x[rs1] + immI`. -/
def execLb (rd rs1 : Reg) (imm : BitVec 12) (s : State) : Outcome :=
  s.load 1 (extendSigned 1) rd (s.effectiveAddress rs1 imm)

/-- `lh` (47_i_type_loads_jalr.md R167): a halfword, sign-extended, from `x[rs1] + immI`. -/
def execLh (rd rs1 : Reg) (imm : BitVec 12) (s : State) : Outcome :=
  s.load 2 (extendSigned 2) rd (s.effectiveAddress rs1 imm)

/-- `lw` (47_i_type_loads_jalr.md R168): a word, sign-extended, from `x[rs1] + immI`. -/
def execLw (rd rs1 : Reg) (imm : BitVec 12) (s : State) : Outcome :=
  s.load 4 (extendSigned 4) rd (s.effectiveAddress rs1 imm)

/-- `lbu` (47_i_type_loads_jalr.md R169): a byte, zero-extended, from `x[rs1] + immI`. -/
def execLbu (rd rs1 : Reg) (imm : BitVec 12) (s : State) : Outcome :=
  s.load 1 (extendUnsigned 1) rd (s.effectiveAddress rs1 imm)

/-- `lhu` (47_i_type_loads_jalr.md R170): a halfword, zero-extended, from `x[rs1] + immI`. -/
def execLhu (rd rs1 : Reg) (imm : BitVec 12) (s : State) : Outcome :=
  s.load 2 (extendUnsigned 2) rd (s.effectiveAddress rs1 imm)

/-- `lwu` (47_i_type_loads_jalr.md R171): a word, zero-extended, from `x[rs1] + immI`. -/
def execLwu (rd rs1 : Reg) (imm : BitVec 12) (s : State) : Outcome :=
  s.load 4 (extendUnsigned 4) rd (s.effectiveAddress rs1 imm)

/-- `ld` (47_i_type_loads_jalr.md R172): a doubleword, which needs no extension, from `x[rs1] + immI`. -/
def execLd (rd rs1 : Reg) (imm : BitVec 12) (s : State) : Outcome :=
  s.load 8 (extendUnsigned 8) rd (s.effectiveAddress rs1 imm)


end Sys2Proof.Machine
end

