-- ==== Sys2Proof/Machine/RType.lean ====
section
/-! DEFINITION. The register-register instructions (40_r_type.md). -/

namespace Sys2Proof.Machine

/-- `add` (40_r_type.md R81): `x[rd] <- x[rs1] + x[rs2]`, overflow ignored. -/
def execAdd (rd rs1 rs2 : Reg) (s : State) : Outcome :=
  s.writeAndAdvance rd (s.readReg rs1 + s.readReg rs2)

/-- `sub` (40_r_type.md R82): `x[rd] <- x[rs1] - x[rs2]`, overflow ignored. -/
def execSub (rd rs1 rs2 : Reg) (s : State) : Outcome :=
  s.writeAndAdvance rd (s.readReg rs1 - s.readReg rs2)

/-- `sll` (40_r_type.md R83): logical left shift by the low 6 bits of `x[rs2]`. -/
def execSll (rd rs1 rs2 : Reg) (s : State) : Outcome :=
  s.writeAndAdvance rd (s.readReg rs1 <<< shiftCount (s.readReg rs2))

/-- `srl` (40_r_type.md R84): logical right shift by the low 6 bits of `x[rs2]`. -/
def execSrl (rd rs1 rs2 : Reg) (s : State) : Outcome :=
  s.writeAndAdvance rd (s.readReg rs1 >>> shiftCount (s.readReg rs2))

/-- `sra` (40_r_type.md R85): arithmetic right shift by the low 6 bits of `x[rs2]`. -/
def execSra (rd rs1 rs2 : Reg) (s : State) : Outcome :=
  s.writeAndAdvance rd ((s.readReg rs1).sshiftRight (shiftCount (s.readReg rs2)))

/-- `slt` (40_r_type.md R86): 1 if `x[rs1] <s x[rs2]`, else 0. -/
def execSlt (rd rs1 rs2 : Reg) (s : State) : Outcome :=
  s.writeAndAdvance rd (flagWord (ltSigned (s.readReg rs1) (s.readReg rs2)))

/-- `sltu` (40_r_type.md R87): 1 if `x[rs1] <u x[rs2]`, else 0. -/
def execSltu (rd rs1 rs2 : Reg) (s : State) : Outcome :=
  s.writeAndAdvance rd (flagWord (ltUnsigned (s.readReg rs1) (s.readReg rs2)))

/-- `and` (40_r_type.md R88): bitwise AND. -/
def execAnd (rd rs1 rs2 : Reg) (s : State) : Outcome :=
  s.writeAndAdvance rd (s.readReg rs1 &&& s.readReg rs2)

/-- `or` (40_r_type.md R89): bitwise OR. -/
def execOr (rd rs1 rs2 : Reg) (s : State) : Outcome :=
  s.writeAndAdvance rd (s.readReg rs1 ||| s.readReg rs2)

/-- `xor` (40_r_type.md R90): bitwise exclusive OR. -/
def execXor (rd rs1 rs2 : Reg) (s : State) : Outcome :=
  s.writeAndAdvance rd (s.readReg rs1 ^^^ s.readReg rs2)

/-- `addw` (40_r_type.md R92): the 32-bit sum of the low words, sign-extended. -/
def execAddw (rd rs1 rs2 : Reg) (s : State) : Outcome :=
  s.writeAndAdvance rd (signExtend64 (lowWord (s.readReg rs1) + lowWord (s.readReg rs2)))

/-- `subw` (40_r_type.md R93): the 32-bit difference of the low words, sign-extended. -/
def execSubw (rd rs1 rs2 : Reg) (s : State) : Outcome :=
  s.writeAndAdvance rd (signExtend64 (lowWord (s.readReg rs1) - lowWord (s.readReg rs2)))

/-- `sllw` (40_r_type.md R94): the low word shifted left by the low 5 bits of `x[rs2]`, sign-extended. -/
def execSllw (rd rs1 rs2 : Reg) (s : State) : Outcome :=
  s.writeAndAdvance rd (signExtend64 (lowWord (s.readReg rs1) <<< shiftCountW (s.readReg rs2)))

/-- `srlw` (40_r_type.md R95): the low word shifted right logically, sign-extended. -/
def execSrlw (rd rs1 rs2 : Reg) (s : State) : Outcome :=
  s.writeAndAdvance rd (signExtend64 (lowWord (s.readReg rs1) >>> shiftCountW (s.readReg rs2)))

/-- `sraw` (40_r_type.md R96): the low word shifted right arithmetically, sign-extended. -/
def execSraw (rd rs1 rs2 : Reg) (s : State) : Outcome :=
  s.writeAndAdvance rd (signExtend64 ((lowWord (s.readReg rs1)).sshiftRight (shiftCountW (s.readReg rs2))))


end Sys2Proof.Machine
end

