-- ==== Sys2Proof/Machine/Rv64m.lean ====
section
/-! DEFINITION. Multiplication and division (49_rv64m.md). The eleven beyond `div` and `divu` are admitted by the
decoder only with `RV64M_FULL` (R214; log entry 14). -/

namespace Sys2Proof.Machine

/-- `div` (49_rv64m.md R201): signed quotient. -/
def execDiv (rd rs1 rs2 : Reg) (s : State) : Outcome :=
  s.writeAndAdvance rd (quotientSigned (s.readReg rs1) (s.readReg rs2))

/-- `divu` (49_rv64m.md R202): unsigned quotient. -/
def execDivu (rd rs1 rs2 : Reg) (s : State) : Outcome :=
  s.writeAndAdvance rd (quotientUnsigned (s.readReg rs1) (s.readReg rs2))

/-- `mul` (49_rv64m.md R203): low 64 bits of the product. -/
def execMul (rd rs1 rs2 : Reg) (s : State) : Outcome :=
  s.writeAndAdvance rd (s.readReg rs1 * s.readReg rs2)

/-- `mulh` (49_rv64m.md R204): high 64 bits of the signed product. -/
def execMulh (rd rs1 rs2 : Reg) (s : State) : Outcome :=
  s.writeAndAdvance rd (highProduct ((s.readReg rs1).toInt * (s.readReg rs2).toInt))

/-- `mulhsu` (49_rv64m.md R205): high 64 bits of the product of `x[rs1]` signed and `x[rs2]` unsigned. -/
def execMulhsu (rd rs1 rs2 : Reg) (s : State) : Outcome :=
  s.writeAndAdvance rd (highProduct ((s.readReg rs1).toInt * ((s.readReg rs2).toNat : Int)))

/-- `mulhu` (49_rv64m.md R206): high 64 bits of the unsigned product. -/
def execMulhu (rd rs1 rs2 : Reg) (s : State) : Outcome :=
  s.writeAndAdvance rd (highProduct (((s.readReg rs1).toNat : Int) * ((s.readReg rs2).toNat : Int)))

/-- `rem` (49_rv64m.md R207): signed remainder. -/
def execRem (rd rs1 rs2 : Reg) (s : State) : Outcome :=
  s.writeAndAdvance rd (remainderSigned (s.readReg rs1) (s.readReg rs2))

/-- `remu` (49_rv64m.md R208): unsigned remainder. -/
def execRemu (rd rs1 rs2 : Reg) (s : State) : Outcome :=
  s.writeAndAdvance rd (remainderUnsigned (s.readReg rs1) (s.readReg rs2))

/-- `mulw` (49_rv64m.md R209): the low 32 bits of the product of the low words, sign-extended. -/
def execMulw (rd rs1 rs2 : Reg) (s : State) : Outcome :=
  s.writeAndAdvance rd (signExtend64 (lowWord (s.readReg rs1) * lowWord (s.readReg rs2)))

/-- `divw` (49_rv64m.md R210): signed quotient of the low words, sign-extended. -/
def execDivw (rd rs1 rs2 : Reg) (s : State) : Outcome :=
  s.writeAndAdvance rd (signExtend64 (quotientSigned (lowWord (s.readReg rs1)) (lowWord (s.readReg rs2))))

/-- `divuw` (49_rv64m.md R211): unsigned quotient of the low words, sign-extended. -/
def execDivuw (rd rs1 rs2 : Reg) (s : State) : Outcome :=
  s.writeAndAdvance rd (signExtend64 (quotientUnsigned (lowWord (s.readReg rs1)) (lowWord (s.readReg rs2))))

/-- `remw` (49_rv64m.md R212): signed remainder of the low words, sign-extended. -/
def execRemw (rd rs1 rs2 : Reg) (s : State) : Outcome :=
  s.writeAndAdvance rd (signExtend64 (remainderSigned (lowWord (s.readReg rs1)) (lowWord (s.readReg rs2))))

/-- `remuw` (49_rv64m.md R213): unsigned remainder of the low words, sign-extended. -/
def execRemuw (rd rs1 rs2 : Reg) (s : State) : Outcome :=
  s.writeAndAdvance rd (signExtend64 (remainderUnsigned (lowWord (s.readReg rs1)) (lowWord (s.readReg rs2))))


end Sys2Proof.Machine
end

