-- ==== Sys2Proof/Machine/Stores.lean ====
section
/-! DEFINITION. The stores (43_s_type.md). -/

namespace Sys2Proof.Machine

/-- `sb` (43_s_type.md R111): the low byte of `x[rs2]` to memory at `x[rs1] + immS`. -/
def execSb (rs2 rs1 : Reg) (imm : BitVec 12) (s : State) : Outcome :=
  s.store 1 (s.effectiveAddress rs1 imm) (s.readReg rs2)

/-- `sh` (43_s_type.md R112): the low halfword of `x[rs2]` to memory at `x[rs1] + immS`. -/
def execSh (rs2 rs1 : Reg) (imm : BitVec 12) (s : State) : Outcome :=
  s.store 2 (s.effectiveAddress rs1 imm) (s.readReg rs2)

/-- `sw` (43_s_type.md R113): the low word of `x[rs2]` to memory at `x[rs1] + immS`. -/
def execSw (rs2 rs1 : Reg) (imm : BitVec 12) (s : State) : Outcome :=
  s.store 4 (s.effectiveAddress rs1 imm) (s.readReg rs2)

/-- `sd` (43_s_type.md R114): the low doubleword of `x[rs2]` to memory at `x[rs1] + immS`. -/
def execSd (rs2 rs1 : Reg) (imm : BitVec 12) (s : State) : Outcome :=
  s.store 8 (s.effectiveAddress rs1 imm) (s.readReg rs2)


end Sys2Proof.Machine
end

