-- ==== Sys2Proof/Machine/System.lean ====
section
/-! DEFINITION. `ecall`, `ebreak`, `fence`, `fence.i` and the five privileged instructions
(48_i_type_system_fence_privileged.md). -/

namespace Sys2Proof.Machine

/-- Empty the stale-fetch set (20_memory.md R43). -/
def State.clearDirty (s : State) : State :=
  { s with dirty := [] }

/-- `ecall` (48_i_type_system_fence_privileged.md R181): always raises `EnvironmentCall(0)`. -/
def execEcall (s : State) : Outcome :=
  raise .environmentCall 0#64 s

/-- `ebreak` (R182): always raises `Breakpoint(pc)`. -/
def execEbreak (s : State) : Outcome :=
  raise .breakpoint s.pc s

/-- `fence` (R183): with one hart and sequential memory there is nothing to order, so only the pc advances,
whatever `pred` and `succ` are. -/
def execFence (_pred _succ : BitVec 4) (s : State) : Outcome :=
  .next s.advance

/-- `fence.i` (R184): every earlier store becomes visible to instruction fetch. -/
def execFenceI (s : State) : Outcome :=
  .next s.clearDirty.advance

/-- `uret` (R185, R186): the spec gives it an encoding and no meaning, and refuses it. -/
def execUret (_s : State) : Outcome :=
  refuse .uret

/-- `mret` (R185, R187): the spec gives it an encoding and no meaning, and refuses it. -/
def execMret (_s : State) : Outcome :=
  refuse .mret

/-- `sret` (R185, R188): the spec gives it an encoding and no meaning, and refuses it. -/
def execSret (_s : State) : Outcome :=
  refuse .sret

/-- `sfence.vma` (R185, R189): the spec refuses it; the registers it names are not read. -/
def execSfenceVma (_rd _rs1 _rs2 : Reg) (_s : State) : Outcome :=
  refuse .sfenceVma

/-- `wfi` (R185, R190): the spec refuses it; a no-op could hide a hang. -/
def execWfi (_s : State) : Outcome :=
  refuse .wfi


end Sys2Proof.Machine
end

