-- ==== Sys2Proof/Machine/UType.lean ====
section
/-! DEFINITION. The U-type instructions (41_u_type.md). -/

namespace Sys2Proof.Machine

/-- `lui` (41_u_type.md R101): `x[rd] <- immU`. -/
def execLui (rd : Reg) (imm20 : BitVec 20) (s : State) : Outcome :=
  s.writeAndAdvance rd (upperImm imm20)

/-- `auipc` (41_u_type.md R102): `x[rd] <- pc + immU`, the pc of the `auipc` itself. -/
def execAuipc (rd : Reg) (imm20 : BitVec 20) (s : State) : Outcome :=
  s.writeAndAdvance rd (s.pc + upperImm imm20)


end Sys2Proof.Machine
end

