-- ==== Sys2Proof/Machine/Fetch.lean ====
section
/-! DEFINITION. Instruction fetch (20_memory.md R31, R47; 60_exceptions.md R223), and the placing of a word
where the next fetch finds it. -/

namespace Sys2Proof.Machine

/-- What a fetch answers. -/
inductive Fetched where
  | word (w : InstrWord)
  | trap (c : Cause)
  | stale
  deriving DecidableEq, Repr

/-- The instruction word at the pc: little-endian whatever `BYTE_ORDER` is (R31; log entry 9). -/
def State.wordAtPc (s : State) : InstrWord :=
  wordOfBytes (s.readByte s.pc.toNat) (s.readByte (s.pc + 1#64).toNat) (s.readByte (s.pc + 2#64).toNat)
    (s.readByte (s.pc + 3#64).toNat)

/-- Whether a byte of the word at the pc is in `dirty`. -/
def State.staleAtPc (s : State) : Bool :=
  (accessBytes s.pc 4).any s.dirty.contains

/-- `Fetch(pc)` (R47): misaligned, then outside `MEM_VALID`, then stale, then the word. -/
def State.fetch (s : State) : Fetched :=
  if isInstrAligned s.pc then
    if s.inMemory s.pc 4 then
      if s.staleAtPc then .stale else .word s.wordAtPc
    else .trap .instructionAccessFault
  else .trap .instructionAddressMisaligned

/-- The state with the bytes of a word stored at the pc as the environment loads a program (10_state.md
R24): the bytes are memory and fetchable without a `fence.i`, and an instruction that only `RV64M_FULL`
admits is admitted (log entry 13). -/
def State.placeWord (s : State) (w : InstrWord) : State :=
  let bytes := accessBytes s.pc 4
  { s with
    mem := (bytes.zip (bytesOfWord w)).foldl (fun m e => m.writeByte e.1 e.2) s.mem
    dirty := s.dirty.filter (fun a => !bytes.contains a)
    params := { s.params with
      memValid :=
        if s.inMemory s.pc 4 then s.params.memValid
        else ⟨s.pc.toNat, s.pc.toNat + 3⟩ :: s.params.memValid
      rv64mFull :=
        s.params.rv64mFull ||
          decide (decodeInstr s.params w = none ∧
            decodeInstr { s.params with rv64mFull := true } w ≠ none) } }

end Sys2Proof.Machine
end

