-- ==== Sys2Proof/Machine/Step.lean ====
section
/-! DEFINITION. One step of the hart: fetch, decode, execute (10_state.md R23; 60_exceptions.md R223). -/

namespace Sys2Proof.Machine

/-- One step. A fetch that raises records the pc (60_exceptions.md R220), a word that matches no row
raises `IllegalInstruction` with the word (30_encoding.md R68). -/
def step (s : State) : Host.Outcome State Fault Refusal :=
  match s.fetch with
  | .trap c => raise c s.pc s
  | .stale => refuse .staleFetch
  | .word w =>
    match decode s.params w with
    | .instr i => exec i s
    | .illegal w => raise .illegalInstruction (zeroExtend64 w) s

/-- The state with an instruction stored where `step` fetches its next one; `nbits` is at most 32, since
every instruction is one 32-bit word (30_encoding.md R50). How a program comes to run: log entry 13. -/
def State.withFetchWord (s : State) (nbits w : Nat) : State :=
  s.placeWord (BitVec.ofNat 32 (w % 2 ^ nbits))

end Sys2Proof.Machine
end

