-- ==== Sys2Proof/Safety.lean ====
section
/-! DEFINITION. What a good state and a good run are, and the terms that the claims are stated in. They are
written over integers and over reads of one register, one CSR, one byte, not over the operations of the
machine. -/

namespace Sys2Proof.Machine

/-! ### Good states -/

/-- The invariant of the machine: the parameters are legal (00_scope.md R4), the pc is a multiple of 4
(10_state.md R14), `x[0]` holds zero (R11), only CSRs and bytes that exist hold a value or are stale
(R16, R19, R21), and the three lists are in their one canonical form. -/
structure State.Inv (s : State) : Prop where
  paramsLegal : s.params.wf = true
  pcAligned : s.pc.toNat % 4 = 0
  zeroSlot : s.regs.get 0 = 0#64
  csrCanonical : sparseWf 0#64 s.csr
  csrExisting : ∀ e ∈ s.csr, ∃ c ∈ s.params.csrSet, e.1 = c.toNat
  memCanonical : s.mem.wf
  memExisting : ∀ e ∈ s.mem, isMemory s.params e.1 = true
  dirtyCanonical : setWf s.dirty
  dirtyExisting : ∀ a ∈ s.dirty, isMemory s.params a = true

/-- What a launch must meet (00_scope.md R4; 70_reset_and_hazards.md R251, points 1 and 2): legal
parameters, and CSR values and a program image that lie in what exists. -/
structure LaunchPremises (p : Params) (csr : List (Nat × Word)) (mem : Memory) : Prop where
  paramsLegal : p.wf = true
  csrCanonical : sparseWf 0#64 csr
  csrExisting : ∀ e ∈ csr, ∃ c ∈ p.csrSet, e.1 = c.toNat
  memCanonical : mem.wf
  memExisting : ∀ e ∈ mem, isMemory p e.1 = true

/-! ### Runs (70_reset_and_hazards.md R253) -/

/-- `t` is the state of the run from `s` after some number of steps. -/
inductive Reaches (s : State) : State → Prop where
  | start : Reaches s s
  | next {t u : State} : Reaches s t → step t = .next u → Reaches s u

/-- The run from `s` ends: `final` is its final state, the state before the first step that does not
answer a next state. -/
def EndsIn (s final : State) : Prop :=
  Reaches s final ∧ ∀ t, step final ≠ .next t

/-- A run that ends as a program ends by itself, with `ecall` or `ebreak`. -/
def EndsNormally (s final : State) : Prop :=
  Reaches s final ∧
    (step final = .fault (.trapped .environmentCall final.pc 0#64) ∨
      step final = .fault (.trapped .breakpoint final.pc final.pc))

/-- A safe run: it never comes to an instruction that the spec gives no meaning, so that its end, if it
has one, is a behaviour of the hardware (60_exceptions.md R228). -/
def NeverRefused (s : State) : Prop :=
  ∀ t, Reaches s t → ∀ r, step t ≠ .refused r

/-! ### What an instruction leaves unchanged -/

/-- The general registers of `t` are those of `s`. -/
def RegsKept (s t : State) : Prop :=
  ∀ q, t.readReg q = s.readReg q

/-- The general registers of `t` are those of `s` with `v` written to `x[rd]`, which register 0 discards
(10_state.md R11). -/
def RegsWritten (s t : State) (rd : Reg) (v : Word) : Prop :=
  ∀ q, t.readReg q = if q = 0#5 then 0#64 else if q = rd then v else s.readReg q

/-- Every CSR of `t` has the value it has in `s`. -/
def CsrsKept (s t : State) : Prop :=
  ∀ c, t.readCsr c = s.readCsr c

/-- Every byte of memory of `t` is what it is in `s`. -/
def MemoryKept (s t : State) : Prop :=
  ∀ a, t.readByte a = s.readByte a

/-- From `s` to `t` only the pc changes, to `target`. -/
structure OnlyPcChanged (s t : State) (target : Word) : Prop where
  pc : t.pc = target
  regs : RegsKept s t
  csrs : CsrsKept s t
  memory : MemoryKept s t
  dirty : t.dirty = s.dirty
  params : t.params = s.params

/-- From `s` to `t` only `x[rd]` and the pc change, to `v` and to `target`. -/
structure OnlyRegAndPcChanged (s t : State) (rd : Reg) (v target : Word) : Prop where
  regs : RegsWritten s t rd v
  pc : t.pc = target
  csrs : CsrsKept s t
  memory : MemoryKept s t
  dirty : t.dirty = s.dirty
  params : t.params = s.params

/-- The address of the next instruction in memory, modulo 2^64 (10_state.md R13, R14). -/
def State.nextPc (s : State) : Word :=
  BitVec.ofNat 64 (s.pc.toNat + 4)

/-- The instruction completes: it writes `v` to `x[rd]`, goes on to the next instruction, and changes
nothing else. -/
def Completes (i : Instr) (s : State) (rd : Reg) (v : Word) : Prop :=
  ∃ t, exec i s = .next t ∧ OnlyRegAndPcChanged s t rd v s.nextPc

/-! ### Numbers -/

/-- `sext_64` of the low 32 bits of an integer. -/
def wordResult (x : Int) : Word :=
  BitVec.ofInt 64 (x.bmod (2 ^ 32))

/-- The low 32 bits of a register, read as an unsigned integer. -/
def lowU (v : Word) : Nat :=
  v.toNat % 2 ^ 32

/-- The low 32 bits of a register, read as a signed integer. -/
def lowS (v : Word) : Int :=
  (v.toNat : Int).bmod (2 ^ 32)

/-! ### Rows of the opcode table: exactly the words that match decode to the instruction, with the fields
of its format (30_encoding.md R51 to R56, R66) -/

/-- A row of the R format. -/
def RowR (mk : Reg → Reg → Reg → Instr) (mask bits : InstrWord) : Prop :=
  ∀ p w rd rs1 rs2, decode p w = .instr (mk rd rs1 rs2) ↔
    w &&& mask = bits ∧ rd = w.extractLsb' 7 5 ∧ rs1 = w.extractLsb' 15 5 ∧ rs2 = w.extractLsb' 20 5

/-- A row of the R format that only `RV64M_FULL` adds (49_rv64m.md R214). -/
def RowRFull (mk : Reg → Reg → Reg → Instr) (mask bits : InstrWord) : Prop :=
  ∀ p w rd rs1 rs2, decode p w = .instr (mk rd rs1 rs2) ↔
    p.rv64mFull = true ∧
      w &&& mask = bits ∧ rd = w.extractLsb' 7 5 ∧ rs1 = w.extractLsb' 15 5 ∧ rs2 = w.extractLsb' 20 5

/-- A row of the I format. -/
def RowI (mk : Reg → Reg → BitVec 12 → Instr) (mask bits : InstrWord) : Prop :=
  ∀ p w rd rs1 imm, decode p w = .instr (mk rd rs1 imm) ↔
    w &&& mask = bits ∧ rd = w.extractLsb' 7 5 ∧ rs1 = w.extractLsb' 15 5 ∧ imm = w.extractLsb' 20 12

/-- A row of the I format with a shift amount of `n` bits, `w[20+n-1:20]` (R63). -/
def RowShift (n : Nat) (mk : Reg → Reg → BitVec n → Instr) (mask bits : InstrWord) : Prop :=
  ∀ p w rd rs1 shamt, decode p w = .instr (mk rd rs1 shamt) ↔
    w &&& mask = bits ∧ rd = w.extractLsb' 7 5 ∧ rs1 = w.extractLsb' 15 5 ∧ shamt = w.extractLsb' 20 n

/-- A row of a CSR instruction: the CSR's address is `w[31:20]`, the source field, a register number or
`zimm`, is `w[19:15]` (R52, R63). -/
def RowCsr (mk : Reg → CsrAddr → BitVec 5 → Instr) (mask bits : InstrWord) : Prop :=
  ∀ p w rd c src, decode p w = .instr (mk rd c src) ↔
    w &&& mask = bits ∧ rd = w.extractLsb' 7 5 ∧ c = w.extractLsb' 20 12 ∧ src = w.extractLsb' 15 5

/-- A row of the S format (R53, R59). -/
def RowS (mk : Reg → Reg → BitVec 12 → Instr) (mask bits : InstrWord) : Prop :=
  ∀ p w rs2 rs1 imm, decode p w = .instr (mk rs2 rs1 imm) ↔
    w &&& mask = bits ∧ rs2 = w.extractLsb' 20 5 ∧ rs1 = w.extractLsb' 15 5 ∧
      imm.extractLsb' 5 7 = w.extractLsb' 25 7 ∧ imm.extractLsb' 0 5 = w.extractLsb' 7 5

/-- A row of the B format: which bit of the word is which bit of the offset, its bit 0 being 0 (R54,
R60). -/
def RowB (mk : Reg → Reg → BitVec 13 → Instr) (mask bits : InstrWord) : Prop :=
  ∀ p w rs1 rs2 offset, decode p w = .instr (mk rs1 rs2 offset) ↔
    w &&& mask = bits ∧ rs1 = w.extractLsb' 15 5 ∧ rs2 = w.extractLsb' 20 5 ∧
      offset.extractLsb' 12 1 = w.extractLsb' 31 1 ∧ offset.extractLsb' 11 1 = w.extractLsb' 7 1 ∧
      offset.extractLsb' 5 6 = w.extractLsb' 25 6 ∧ offset.extractLsb' 1 4 = w.extractLsb' 8 4 ∧
      offset.extractLsb' 0 1 = 0#1

/-- A row of the U format (R55, R61). -/
def RowU (mk : Reg → BitVec 20 → Instr) (mask bits : InstrWord) : Prop :=
  ∀ p w rd imm20, decode p w = .instr (mk rd imm20) ↔
    w &&& mask = bits ∧ rd = w.extractLsb' 7 5 ∧ imm20 = w.extractLsb' 12 20

/-- A row of the J format: which bit of the word is which bit of the offset, its bit 0 being 0 (R56,
R62). -/
def RowJ (mk : Reg → BitVec 21 → Instr) (mask bits : InstrWord) : Prop :=
  ∀ p w rd offset, decode p w = .instr (mk rd offset) ↔
    w &&& mask = bits ∧ rd = w.extractLsb' 7 5 ∧
      offset.extractLsb' 20 1 = w.extractLsb' 31 1 ∧ offset.extractLsb' 12 8 = w.extractLsb' 12 8 ∧
      offset.extractLsb' 11 1 = w.extractLsb' 20 1 ∧ offset.extractLsb' 1 10 = w.extractLsb' 21 10 ∧
      offset.extractLsb' 0 1 = 0#1

/-- A row that is one fixed word. -/
def RowWord (i : Instr) (word : InstrWord) : Prop :=
  ∀ p w, decode p w = .instr i ↔ w = word

/-! ### Memory accesses (20_memory.md) -/

/-- The address of byte `i` of an access at `a`, modulo 2^64 (R46). -/
def byteAddr (a : Word) (i : Nat) : Nat :=
  (a.toNat + i) % 2 ^ 64

/-- Which byte of an `n`-byte value, the least significant being byte 0, the byte at `addr + i` holds
(R30; 92_eei_decisions.md D2). -/
def byteLane (o : ByteOrder) (n i : Nat) : Nat :=
  match o with
  | .little => i
  | .big => n - 1 - i

/-- The value of the `n` bytes at `a` (R30, R47). -/
def State.valueAt (s : State) (a : Word) (n : Nat) : Nat :=
  ((List.range n).map fun i =>
    (s.readByte (byteAddr a i)).toNat * 256 ^ byteLane s.params.byteOrder n i).sum

/-- Every one of the `n` bytes at `a` exists (R39). -/
def State.existsAt (s : State) (a : Word) (n : Nat) : Prop :=
  ∀ i < n, isMemory s.params (byteAddr a i) = true

/-- An access of `n` bytes at `a` is misaligned: the address is no multiple of `n`, and such accesses
trap (R33; with `MISALIGNED_DATA = split` none is, R34). -/
def State.misalignedAt (s : State) (a : Word) (n : Nat) : Prop :=
  s.params.misalignedData = .trap ∧ a.toNat % n ≠ 0

/-- From `s` to `t` the low `n` bytes of `v` are stored at `a`, their addresses become stale for fetch
(R43), the pc goes on, and nothing else changes. -/
structure Stored (s t : State) (a : Word) (n : Nat) (v : Word) : Prop where
  bytes : s.mem.wf → ∀ i < n, t.readByte (byteAddr a i) =
    BitVec.ofNat 8 (v.toNat / 256 ^ byteLane s.params.byteOrder n i)
  others : ∀ x, (∀ i < n, x ≠ byteAddr a i) → t.readByte x = s.readByte x
  dirty : ∀ x, x ∈ t.dirty ↔ x ∈ s.dirty ∨ ∃ i < n, x = byteAddr a i
  regs : RegsKept s t
  csrs : CsrsKept s t
  pc : t.pc = s.nextPc
  params : t.params = s.params

/-- A load of `n` bytes at `a` into `x[rd]`, the value being `v`: it completes, or is misaligned, or, that
being checked first, meets a byte that does not exist (47_i_type_loads_jalr.md R165). -/
def LoadMeaning (i : Instr) (s : State) (rd : Reg) (a : Word) (n : Nat) (v : Word) : Prop :=
  (¬ s.misalignedAt a n → s.existsAt a n → Completes i s rd v) ∧
  (s.misalignedAt a n → exec i s = .fault (.trapped .loadAddressMisaligned s.pc a)) ∧
  (¬ s.misalignedAt a n → ¬ s.existsAt a n → exec i s = .fault (.trapped .loadAccessFault s.pc a))

/-- A store of the low `n` bytes of `v` at `a`, likewise (43_s_type.md R110). -/
def StoreMeaning (i : Instr) (s : State) (a : Word) (n : Nat) (v : Word) : Prop :=
  (¬ s.misalignedAt a n → s.existsAt a n → ∃ t, exec i s = .next t ∧ Stored s t a n v) ∧
  (s.misalignedAt a n → exec i s = .fault (.trapped .storeAddressMisaligned s.pc a)) ∧
  (¬ s.misalignedAt a n → ¬ s.existsAt a n → exec i s = .fault (.trapped .storeAccessFault s.pc a))

/-! ### Jumps and branches (20_memory.md R32) -/

/-- A jump to `target` that leaves the address of the next instruction in `x[rd]`; a target that is no
multiple of 4 raises first. -/
def JumpMeaning (i : Instr) (s : State) (rd : Reg) (target : Word) : Prop :=
  (target.toNat % 4 = 0 → ∃ t, exec i s = .next t ∧ OnlyRegAndPcChanged s t rd s.nextPc target) ∧
  (target.toNat % 4 ≠ 0 → exec i s = .fault (.trapped .instructionAddressMisaligned s.pc target))

/-- A branch to `pc + offset`, modulo 2^64, taken where `cond` holds (44_b_type.md R120). -/
def BranchMeaning (i : Instr) (s : State) (cond : Prop) (offset : BitVec 13) : Prop :=
  let target := BitVec.ofInt 64 (s.pc.toNat + offset.toInt)
  (¬ cond → ∃ t, exec i s = .next t ∧ OnlyPcChanged s t s.nextPc) ∧
  (cond → target.toNat % 4 = 0 → ∃ t, exec i s = .next t ∧ OnlyPcChanged s t target) ∧
  (cond → target.toNat % 4 ≠ 0 →
    exec i s = .fault (.trapped .instructionAddressMisaligned s.pc target))

/-! ### CSR instructions (46_i_type_csr.md) -/

/-- The CSR an instruction accesses. -/
def csrOf : Instr → Option CsrAddr
  | .csrrw _ c _ | .csrrs _ c _ | .csrrc _ c _ | .csrrwi _ c _ | .csrrsi _ c _ | .csrrci _ c _ => some c
  | _ => none

/-- A CSR instruction is legal: the CSR exists, and is not read-only if the instruction writes it (R157 a,
c). -/
def State.csrLegal (s : State) (c : CsrAddr) (writes : Prop) : Prop :=
  c ∈ s.params.csrSet ∧ (writes → c ∉ s.params.csrReadonly)

/-- From `s` to `t` the old value of the CSR goes to `x[rd]`, the pc goes on, and where the instruction
writes the CSR gets `csr_legalize(c, old, new)`; nothing else changes. The new value is read back in
states whose CSR file is canonical. -/
structure CsrAccessed (s t : State) (rd : Reg) (c : CsrAddr) (writes : Prop) (new : Word) : Prop where
  regs : RegsWritten s t rd (s.readCsr c)
  pc : t.pc = s.nextPc
  written : writes → sparseWf 0#64 s.csr → t.readCsr c =
    match s.params.csrLegalize with
    | .plain => new
    | .custom => Config.csrLegalize c (s.readCsr c) new
  unwritten : ¬ writes → t.readCsr c = s.readCsr c
  others : ∀ e, e ≠ c → t.readCsr e = s.readCsr e
  memory : MemoryKept s t
  dirty : t.dirty = s.dirty
  params : t.params = s.params

/-- A CSR instruction: it completes where it is legal, and else raises with the word it was decoded from
(R150, R157). -/
def CsrMeaning (i : Instr) (s : State) (rd : Reg) (c : CsrAddr) (writes : Prop) (new : Word) : Prop :=
  (s.csrLegal c writes → ∃ t, exec i s = .next t ∧ CsrAccessed s t rd c writes new) ∧
  (¬ s.csrLegal c writes → ∀ w, decode s.params w = .instr i →
    exec i s = .fault (.trapped .illegalInstruction s.pc (w.setWidth 64)))

/-! ### The events of a step (60_exceptions.md R220, R223) -/

/-- The step at `s` fetches `w` and decodes it to `i`. -/
def Runs (s : State) (w : InstrWord) (i : Instr) : Prop :=
  s.fetch = .word w ∧ decode s.params w = .instr i

/-- No row of the opcode table that the parameters admit selects the word (30_encoding.md R68). -/
def matchesNoRow (p : Params) (w : InstrWord) : Prop :=
  ∀ i : Instr, i.admitted p = true → (i.opcodeRow p).selects w = false

/-- The table of R220: when a step at `s` raises an exception, and the value recorded with it. -/
def Raises (s : State) : Cause → Word → Prop
  | .instructionAddressMisaligned, info =>
    (s.pc.toNat % 4 ≠ 0 ∧ info = s.pc) ∨
      ∃ w i, Runs s w i ∧ targetOf s i = some info ∧ info.toNat % 4 ≠ 0
  | .instructionAccessFault, info => s.pc.toNat % 4 = 0 ∧ ¬ s.existsAt s.pc 4 ∧ info = s.pc
  | .illegalInstruction, info =>
    ∃ w, s.fetch = .word w ∧ info = w.setWidth 64 ∧
      (matchesNoRow s.params w ∨
        ∃ i c, decode s.params w = .instr i ∧ csrOf i = some c ∧
          ¬ s.csrLegal c (csrWrittenBy i = some c))
  | .breakpoint, info => ∃ w, Runs s w .ebreak ∧ info = s.pc
  | .loadAddressMisaligned, info =>
    ∃ w i n, Runs s w i ∧ accessOf s i = some (.load, info, n) ∧ s.misalignedAt info n
  | .loadAccessFault, info =>
    ∃ w i n, Runs s w i ∧ accessOf s i = some (.load, info, n) ∧ ¬ s.misalignedAt info n ∧
      ¬ s.existsAt info n
  | .storeAddressMisaligned, info =>
    ∃ w i n, Runs s w i ∧ accessOf s i = some (.store, info, n) ∧ s.misalignedAt info n
  | .storeAccessFault, info =>
    ∃ w i n, Runs s w i ∧ accessOf s i = some (.store, info, n) ∧ ¬ s.misalignedAt info n ∧
      ¬ s.existsAt info n
  | .environmentCall, info => ∃ w, Runs s w .ecall ∧ info = 0#64

/-- The step at `s` comes to what the spec gives no meaning (R228): a stale fetch, or one of the five
privileged instructions. -/
def Refuses (s : State) : Refusal → Prop
  | .staleFetch => s.pc.toNat % 4 = 0 ∧ s.existsAt s.pc 4 ∧ ∃ i < 4, byteAddr s.pc i ∈ s.dirty
  | .uret => ∃ w, Runs s w .uret
  | .mret => ∃ w, Runs s w .mret
  | .sret => ∃ w, Runs s w .sret
  | .sfenceVma => ∃ w rd rs1 rs2, Runs s w (.sfenceVma rd rs1 rs2)
  | .wfi => ∃ w, Runs s w .wfi
  | _ => False

/-- The instruction with another destination register, if it has one. -/
def withDest (i : Instr) (r : Reg) : Instr :=
  match i with
  | .add _ a b => .add r a b
  | .sub _ a b => .sub r a b
  | .sll _ a b => .sll r a b
  | .srl _ a b => .srl r a b
  | .sra _ a b => .sra r a b
  | .slt _ a b => .slt r a b
  | .sltu _ a b => .sltu r a b
  | .and _ a b => .and r a b
  | .or _ a b => .or r a b
  | .xor _ a b => .xor r a b
  | .addw _ a b => .addw r a b
  | .subw _ a b => .subw r a b
  | .sllw _ a b => .sllw r a b
  | .srlw _ a b => .srlw r a b
  | .sraw _ a b => .sraw r a b
  | .lui _ a => .lui r a
  | .auipc _ a => .auipc r a
  | .jal _ a => .jal r a
  | .addi _ a b => .addi r a b
  | .slti _ a b => .slti r a b
  | .sltiu _ a b => .sltiu r a b
  | .andi _ a b => .andi r a b
  | .ori _ a b => .ori r a b
  | .xori _ a b => .xori r a b
  | .slli _ a b => .slli r a b
  | .srli _ a b => .srli r a b
  | .srai _ a b => .srai r a b
  | .csrrw _ a b => .csrrw r a b
  | .csrrs _ a b => .csrrs r a b
  | .csrrc _ a b => .csrrc r a b
  | .csrrwi _ a b => .csrrwi r a b
  | .csrrsi _ a b => .csrrsi r a b
  | .csrrci _ a b => .csrrci r a b
  | .lb _ a b => .lb r a b
  | .lh _ a b => .lh r a b
  | .lw _ a b => .lw r a b
  | .lbu _ a b => .lbu r a b
  | .lhu _ a b => .lhu r a b
  | .jalr _ a b => .jalr r a b
  | .addiw _ a b => .addiw r a b
  | .slliw _ a b => .slliw r a b
  | .srliw _ a b => .srliw r a b
  | .sraiw _ a b => .sraiw r a b
  | .lwu _ a b => .lwu r a b
  | .ld _ a b => .ld r a b
  | .div _ a b => .div r a b
  | .divu _ a b => .divu r a b
  | .mul _ a b => .mul r a b
  | .mulh _ a b => .mulh r a b
  | .mulhsu _ a b => .mulhsu r a b
  | .mulhu _ a b => .mulhu r a b
  | .rem _ a b => .rem r a b
  | .remu _ a b => .remu r a b
  | .mulw _ a b => .mulw r a b
  | .divw _ a b => .divw r a b
  | .divuw _ a b => .divuw r a b
  | .remw _ a b => .remw r a b
  | .remuw _ a b => .remuw r a b
  | .sb .. | .sh .. | .sw .. | .sd .. | .beq .. | .bne .. | .blt .. | .bltu .. | .bge .. | .bgeu ..
  | .ecall | .ebreak | .fence .. | .fenceI | .uret | .mret | .sret | .sfenceVma .. | .wfi => i

/-- The outcome with its next state, if it has one, put through a function. -/
def mapNext (f : State → State) : Outcome → Outcome
  | .next s => .next (f s)
  | .fault r => .fault r
  | .refused r => .refused r

/-! ### Immediates, as the instructions' rules name them (30_encoding.md R58 to R62) -/

/-- The 12-bit I-immediate of the instructions that R58 lists. -/
def iImmediateOf : Instr → Option (BitVec 12)
  | .addi _ _ imm | .slti _ _ imm | .sltiu _ _ imm | .andi _ _ imm | .ori _ _ imm | .xori _ _ imm
  | .addiw _ _ imm | .lb _ _ imm | .lh _ _ imm | .lw _ _ imm | .lbu _ _ imm | .lhu _ _ imm
  | .lwu _ _ imm | .ld _ _ imm | .jalr _ _ imm => some imm
  | _ => none

/-- The 12-bit S-immediate of the instructions that R59 lists. -/
def sImmediateOf : Instr → Option (BitVec 12)
  | .sb _ _ imm | .sh _ _ imm | .sw _ _ imm | .sd _ _ imm => some imm
  | _ => none

/-- The 13-bit B-offset of the six branches (R60). -/
def bImmediateOf : Instr → Option (BitVec 13)
  | .beq _ _ offset | .bne _ _ offset | .blt _ _ offset | .bltu _ _ offset | .bge _ _ offset
  | .bgeu _ _ offset => some offset
  | _ => none

/-- The 20-bit field of `lui` and `auipc` (R61). -/
def uImmediateOf : Instr → Option (BitVec 20)
  | .lui _ imm20 | .auipc _ imm20 => some imm20
  | _ => none

/-- The 21-bit J-offset of `jal` (R62). -/
def jImmediateOf : Instr → Option (BitVec 21)
  | .jal _ offset => some offset
  | _ => none

end Sys2Proof.Machine
end

