-- ==== Sys2Proof/Certificates/Slice0/Obligations.lean ====
section
/-! DEFINITION. The statements for the provers, in the terms of Sys2Proof/Safety.lean. -/

section Statements

open Sys2Proof Sys2Proof.Machine

/-! ### Encoding (30_encoding.md) -/

/-- Decoding an encoded instruction gives it back, for every well-formed instruction that the parameters
admit and every value of every operand (R51 to R56, R66). -/
def Obligations.DecodeOfEncode : Prop :=
  ∀ (p : Params) (i : Instr), i.wf = true → i.admitted p = true → decode p (encode i) = .instr i

/-- No bit of a word is dropped: the instruction decoded encodes to the word it was decoded from; only
`fence` and `fence.i` words with ignored fields, which `FENCE_STRICT = false` admits, do not (R66, R70). -/
def Obligations.EncodeOfDecode : Prop :=
  ∀ (p : Params) (w : InstrWord) (i : Instr), decode p w = .instr i →
    i.wf = true ∧ i.admitted p = true ∧
      (p.fenceStrict = true ∨ w.extractLsb' 0 7 ≠ 0b0001111#7 → encode i = w)

/-- The decoder follows the opcode table: a word that an admitted row selects decodes to an instruction of
that row, a word that decodes is selected by its instruction's row, a word that no row selects is
illegal. So no word matches two rows (R66, R67). -/
def Obligations.DecodeFollowsOpcodeTable : Prop :=
  ∀ (p : Params) (w : InstrWord),
    (∀ i : Instr, i.admitted p = true → (i.opcodeRow p).selects w = true →
      ∃ j, decode p w = .instr j ∧ j.opcodeRow p = i.opcodeRow p) ∧
    (∀ j, decode p w = .instr j → j.admitted p = true ∧ (j.opcodeRow p).selects w = true) ∧
    (matchesNoRow p w → decode p w = .illegal w)

/-- A word that matches no row raises `IllegalInstruction(w)`, and the words R68 lists match no row; the
spec marks the last two, all zeros and all ones, as its own derivation. -/
def Obligations.UnlistedWordTraps : Prop :=
  (∀ (s : State) (w : InstrWord), s.fetch = .word w → matchesNoRow s.params w →
    step s = .fault (.trapped .illegalInstruction s.pc (w.setWidth 64))) ∧
  (∀ (p : Params) (w : InstrWord),
    w.extractLsb' 0 2 ≠ 0b11#2 ∨
    w.extractLsb' 0 7 ∉ [0b0000011#7, 0b0001111#7, 0b0010011#7, 0b0010111#7, 0b0011011#7, 0b0100011#7,
      0b0110011#7, 0b0110111#7, 0b0111011#7, 0b1100011#7, 0b1100111#7, 0b1101111#7, 0b1110011#7] ∨
    (w.extractLsb' 0 7 = 0b0110011#7 ∧ w.extractLsb' 25 7 = 0b0100000#7 ∧ w.extractLsb' 12 3 = 0b001#3) ∨
    (w.extractLsb' 0 7 = 0b1100011#7 ∧ w.extractLsb' 12 3 ∈ [0b010#3, 0b011#3]) ∨
    (w.extractLsb' 0 7 = 0b0000011#7 ∧ w.extractLsb' 12 3 = 0b111#3) ∨
    (w.extractLsb' 0 7 = 0b0100011#7 ∧ w.extractLsb' 12 3 ∈ [0b100#3, 0b101#3, 0b110#3, 0b111#3]) ∨
    (w.extractLsb' 0 7 = 0b1100111#7 ∧ w.extractLsb' 12 3 ≠ 0b000#3) ∨
    (w.extractLsb' 0 7 = 0b1110011#7 ∧ w.extractLsb' 12 3 = 0b100#3) ∨
    (w.extractLsb' 0 7 = 0b0011011#7 ∧ w.extractLsb' 12 3 ∉ [0b000#3, 0b001#3, 0b101#3]) ∨
    (w.extractLsb' 0 7 = 0b0001111#7 ∧ w.extractLsb' 12 3 ∉ [0b000#3, 0b001#3]) ∨
    (w.extractLsb' 0 7 = 0b1110011#7 ∧ w.extractLsb' 12 3 = 0b000#3 ∧
      w ∉ [0x00000073#32, 0x00100073#32, 0x00200073#32, 0x10200073#32, 0x30200073#32, 0x10500073#32] ∧
      w.extractLsb' 25 7 ≠ 0b0001001#7) ∨
    w = 0x00000000#32 ∨ w = 0xffffffff#32 → matchesNoRow p w)

/-- The shift-immediate encodings need the constants of R69 above the shift amount; with any other value
there the word is illegal, for a 32-bit shift also with `w[25] = 1`. -/
def Obligations.ShiftImmediateConstants : Prop :=
  ∀ (p : Params) (w : InstrWord),
    (w.extractLsb' 0 7 = 0b0010011#7 → w.extractLsb' 12 3 = 0b001#3 →
      w.extractLsb' 26 6 ≠ 0b000000#6 → decode p w = .illegal w) ∧
    (w.extractLsb' 0 7 = 0b0010011#7 → w.extractLsb' 12 3 = 0b101#3 →
      w.extractLsb' 26 6 ≠ 0b000000#6 → w.extractLsb' 26 6 ≠ 0b010000#6 → decode p w = .illegal w) ∧
    (w.extractLsb' 0 7 = 0b0011011#7 → w.extractLsb' 12 3 = 0b001#3 →
      w.extractLsb' 25 7 ≠ 0b0000000#7 → decode p w = .illegal w) ∧
    (w.extractLsb' 0 7 = 0b0011011#7 → w.extractLsb' 12 3 = 0b101#3 →
      w.extractLsb' 25 7 ≠ 0b0000000#7 → w.extractLsb' 25 7 ≠ 0b0100000#7 → decode p w = .illegal w)

/-- With `FENCE_STRICT` a `fence` or `fence.i` word with a reserved bit set is illegal; without it those
bits are ignored (R70). -/
def Obligations.FenceReservedFields : Prop :=
  ∀ (p : Params) (w : InstrWord), w.extractLsb' 0 7 = 0b0001111#7 →
    (w.extractLsb' 12 3 = 0b000#3 → p.fenceStrict = true →
      w.extractLsb' 28 4 ≠ 0#4 ∨ w.extractLsb' 15 5 ≠ 0#5 ∨ w.extractLsb' 7 5 ≠ 0#5 →
      decode p w = .illegal w) ∧
    (w.extractLsb' 12 3 = 0b001#3 → p.fenceStrict = true →
      w.extractLsb' 20 12 ≠ 0#12 ∨ w.extractLsb' 15 5 ≠ 0#5 ∨ w.extractLsb' 7 5 ≠ 0#5 →
      decode p w = .illegal w) ∧
    (w.extractLsb' 12 3 = 0b000#3 → p.fenceStrict = false →
      decode p w = .instr (.fence (w.extractLsb' 24 4) (w.extractLsb' 20 4))) ∧
    (w.extractLsb' 12 3 = 0b001#3 → p.fenceStrict = false → decode p w = .instr .fenceI)

/-- Which words with func7 = 0000001 are instructions: with `RV64M_FULL = false` only `div` and `divu`;
with `RV64M_FULL = true`, which rests on general knowledge, all but three values of func3 under opcode
0111011 (49_rv64m.md R214). -/
def Obligations.Rv64mAdmission : Prop :=
  ∀ (p : Params) (w : InstrWord), w.extractLsb' 25 7 = 0b0000001#7 →
    (w.extractLsb' 0 7 = 0b0110011#7 → w.extractLsb' 12 3 = 0b100#3 →
      decode p w = .instr (.div (w.extractLsb' 7 5) (w.extractLsb' 15 5) (w.extractLsb' 20 5))) ∧
    (w.extractLsb' 0 7 = 0b0110011#7 → w.extractLsb' 12 3 = 0b101#3 →
      decode p w = .instr (.divu (w.extractLsb' 7 5) (w.extractLsb' 15 5) (w.extractLsb' 20 5))) ∧
    (p.rv64mFull = false → w.extractLsb' 0 7 = 0b0110011#7 →
      w.extractLsb' 12 3 ∉ [0b100#3, 0b101#3] → decode p w = .illegal w) ∧
    (p.rv64mFull = false → w.extractLsb' 0 7 = 0b0111011#7 → decode p w = .illegal w) ∧
    (p.rv64mFull = true → w.extractLsb' 0 7 = 0b0110011#7 → ∃ i, decode p w = .instr i) ∧
    (p.rv64mFull = true → w.extractLsb' 0 7 = 0b0111011#7 →
      w.extractLsb' 12 3 ∉ [0b001#3, 0b010#3, 0b011#3] → ∃ i, decode p w = .instr i) ∧
    (w.extractLsb' 0 7 = 0b0111011#7 → w.extractLsb' 12 3 ∈ [0b001#3, 0b010#3, 0b011#3] →
      decode p w = .illegal w)

/-- The 64-bit value of each immediate, computed from the bits of the word, and its range (R58 to R62; the
range of a B-offset is the spec's own derivation). -/
def Obligations.ImmediateValues : Prop :=
  ∀ (p : Params) (w : InstrWord) (i : Instr), decode p w = .instr i →
    (∀ imm, iImmediateOf i = some imm →
      (signExtend64 imm).toInt = (w.extractLsb' 20 12).toNat - 2 ^ 12 * (w.extractLsb' 31 1).toNat ∧
      -2048 ≤ (signExtend64 imm).toInt ∧ (signExtend64 imm).toInt ≤ 2047) ∧
    (∀ imm, sImmediateOf i = some imm →
      (signExtend64 imm).toInt = 2 ^ 5 * (w.extractLsb' 25 7).toNat + (w.extractLsb' 7 5).toNat
        - 2 ^ 12 * (w.extractLsb' 31 1).toNat ∧
      -2048 ≤ (signExtend64 imm).toInt ∧ (signExtend64 imm).toInt ≤ 2047) ∧
    (∀ offset, bImmediateOf i = some offset →
      (signExtend64 offset).toInt = 2 ^ 11 * (w.extractLsb' 7 1).toNat + 2 ^ 5 * (w.extractLsb' 25 6).toNat
        + 2 * (w.extractLsb' 8 4).toNat - 2 ^ 12 * (w.extractLsb' 31 1).toNat ∧
      (signExtend64 offset).toInt % 2 = 0 ∧
      -4096 ≤ (signExtend64 offset).toInt ∧ (signExtend64 offset).toInt ≤ 4094) ∧
    (∀ imm20, uImmediateOf i = some imm20 →
      (upperImm imm20).toInt = 2 ^ 12 * (w.extractLsb' 12 20).toNat - 2 ^ 32 * (w.extractLsb' 31 1).toNat ∧
      (upperImm imm20).toInt % 4096 = 0 ∧
      -2 ^ 31 ≤ (upperImm imm20).toInt ∧ (upperImm imm20).toInt ≤ 2 ^ 31 - 4096) ∧
    (∀ offset, jImmediateOf i = some offset →
      (signExtend64 offset).toInt = 2 ^ 12 * (w.extractLsb' 12 8).toNat + 2 ^ 11 * (w.extractLsb' 20 1).toNat
        + 2 * (w.extractLsb' 21 10).toNat - 2 ^ 20 * (w.extractLsb' 31 1).toNat ∧
      (signExtend64 offset).toInt % 2 = 0 ∧
      -1048576 ≤ (signExtend64 offset).toInt ∧ (signExtend64 offset).toInt ≤ 1048574)

/-- Sample words of the spec, one for each format and for the fixed words, decode to what they stand
for. -/
def Obligations.SampleWordsDecode : Prop :=
  decode Params.default 0x002081b3#32 = .instr (.add 3#5 1#5 2#5) ∧
  decode Params.default 0x123452b7#32 = .instr (.lui 5#5 0x12345#20) ∧
  decode Params.default 0xff9ff0ef#32 = .instr (.jal 1#5 (BitVec.ofInt 21 (-8))) ∧
  decode Params.default 0x7e208fa3#32 = .instr (.sb 2#5 1#5 2047#12) ∧
  decode Params.default 0xfe2088e3#32 = .instr (.beq 1#5 2#5 (BitVec.ofInt 13 (-16))) ∧
  decode Params.default 0xff908193#32 = .instr (.addi 3#5 1#5 (BitVec.ofInt 12 (-7))) ∧
  decode Params.default 0x43f0d193#32 = .instr (.srai 3#5 1#5 63#6) ∧
  decode Params.default 0x340fd1f3#32 = .instr (.csrrwi 3#5 0x340#12 31#5) ∧
  decode Params.default 0x00c0a183#32 = .instr (.lw 3#5 1#5 12#12) ∧
  decode Params.default 0x0330000f#32 = .instr (.fence 0b0011#4 0b0011#4) ∧
  decode Params.default 0x00100073#32 = .instr .ebreak ∧
  decode Params.default 0x12628073#32 = .instr (.sfenceVma 0#5 5#5 6#5) ∧
  decode Params.default 0x0220c1b3#32 = .instr (.div 3#5 1#5 2#5)

/-! ### The step (10_state.md R22, R23; 60_exceptions.md R220 to R228) -/

/-- A step runs the decoded instruction: where the fetch gives a word and the word decodes to `i`, the
step is `exec i`, and nothing is added around it. -/
def Obligations.StepRunsDecodedInstruction : Prop :=
  ∀ (s : State) (w : InstrWord) (i : Instr), s.fetch = .word w → decode s.params w = .instr i →
    step s = exec i s

/-- A step runs the instruction whose word lies at the pc, its lowest byte at the pc (20_memory.md R31;
30_encoding.md R50; for `BYTE_ORDER` = big, log entry 9). -/
def Obligations.StepRunsBytesAtPc : Prop :=
  ∀ (s : State) (i : Instr), s.pc.toNat % 4 = 0 → s.existsAt s.pc 4 →
    (∀ k < 4, byteAddr s.pc k ∉ s.dirty) →
    (∀ k < 4, s.readByte (byteAddr s.pc k) = (encode i).extractLsb' (8 * k) 8) →
    i.wf = true → i.admitted s.params = true → step s = exec i s

/-- What a fetch does, in the order of R223: a misaligned pc, a byte outside `MEM_VALID`, a stale byte,
else the word whose byte `k` is the memory byte at `pc + k` (20_memory.md R31, R32, R39, R43; for
`BYTE_ORDER` = big, log entry 9). -/
def Obligations.FetchChecksInOrder : Prop :=
  ∀ s : State,
    (s.pc.toNat % 4 ≠ 0 → step s = .fault (.trapped .instructionAddressMisaligned s.pc s.pc)) ∧
    (s.pc.toNat % 4 = 0 → ¬ s.existsAt s.pc 4 →
      step s = .fault (.trapped .instructionAccessFault s.pc s.pc)) ∧
    (s.pc.toNat % 4 = 0 → s.existsAt s.pc 4 → (∃ k < 4, byteAddr s.pc k ∈ s.dirty) →
      step s = .refused .staleFetch) ∧
    (s.pc.toNat % 4 = 0 → s.existsAt s.pc 4 → (∀ k < 4, byteAddr s.pc k ∉ s.dirty) →
      ∃ w, s.fetch = .word w ∧ ∀ k < 4, w.extractLsb' (8 * k) 8 = s.readByte (byteAddr s.pc k))

/-- The complete list of exceptions: a step traps exactly where the table of R220 says, with the pc of the
instruction that raised it and the table's value. R220 marks seven of the nine exceptions as general
knowledge; the order of the checks is R223, the misaligned accesses are R33 with R34 for `split`, the words
that match no row R68, the CSR accesses R157. -/
def Obligations.EveryTrapIsListed : Prop :=
  ∀ (s : State) (f : Fault),
    step s = .fault f ↔ ∃ c info, f = .trapped c s.pc info ∧ Raises s c info

/-- A step is refused exactly at a stale fetch and at the five privileged instructions (R228). -/
def Obligations.EveryRefusalIsListed : Prop :=
  ∀ (s : State) (r : Refusal), step s = .refused r ↔ Refuses s r

/-- Where every instruction completes: exactly where it is none of the seven that always stop, its target
is a multiple of 4, its access is aligned and exists, its CSR access is legal (R220, R223). -/
def Obligations.CompletesExactlyWhenNothingIsRaised : Prop :=
  ∀ (i : Instr) (s : State), (∃ t, exec i s = .next t) ↔
    i ∉ [Instr.ecall, .ebreak, .uret, .mret, .sret, .wfi] ∧
    (∀ rd rs1 rs2, i ≠ .sfenceVma rd rs1 rs2) ∧
    (∀ a, targetOf s i = some a → a.toNat % 4 = 0) ∧
    (∀ k a n, accessOf s i = some (k, a, n) → ¬ s.misalignedAt a n ∧ s.existsAt a n) ∧
    (∀ c, csrOf i = some c → s.csrLegal c (csrWrittenBy i = some c))

/-! ### The whole machine -/

/-- Every step keeps the invariant `State.Inv`, from every state that has it. -/
def Obligations.StepKeepsInvariant : Prop :=
  ∀ s t : State, s.Inv → step s = .next t → t.Inv

/-- Every launch that meets its premises has the invariant, and so has the reset state the host runs
from, whose values are the model's (log entries 2 to 7). -/
def Obligations.LaunchMeetsInvariant : Prop :=
  (∀ (p : Params) (x : Vector Word 32) (csr : List (Nat × Word)) (mem : Memory),
    LaunchPremises p csr mem → (State.launch p x csr mem).Inv) ∧
  State.reset.Inv

/-- State after reset: the pc is `RESET_PC`, `x[0]` is 0, `dirty` is empty, and every other register, CSR
and byte may hold anything: the launch states are exactly the states with those three
(70_reset_and_hazards.md R250). -/
def Obligations.LaunchIsStateAfterReset : Prop :=
  (∀ (p : Params) (x : Vector Word 32) (csr : List (Nat × Word)) (mem : Memory),
    let s := State.launch p x csr mem
    s.pc = p.resetPc ∧ s.readReg 0#5 = 0#64 ∧ s.regs.get 0 = 0#64 ∧ s.dirty = [] ∧
      (∀ r : Reg, r ≠ 0#5 → s.readReg r = x.get r.toFin) ∧
      (∀ c, s.readCsr c = sparseGet 0#64 csr c.toNat) ∧ (∀ a, s.readByte a = mem.readByte a)) ∧
  (∀ s : State, s.pc = s.params.resetPc → s.regs.get 0 = 0#64 → s.dirty = [] →
    ∃ x csr mem, s = State.launch s.params x csr mem)

/-- The frame of every instruction: registers other than `rd`, CSRs other than the one it writes, bytes it
does not store to, and the parameters are unchanged; `dirty` gains the bytes stored to, and only
`fence.i` empties it (10_state.md R12, R16, R21; 20_memory.md R35, R43). -/
def Obligations.FrameOfEveryInstruction : Prop :=
  ∀ (i : Instr) (s t : State), exec i s = .next t →
    (∀ q, destOf i ≠ some q → t.readReg q = s.readReg q) ∧
    (∀ c, csrWrittenBy i ≠ some c → t.readCsr c = s.readCsr c) ∧
    (∀ a, a ∉ storedBytes s i → t.readByte a = s.readByte a) ∧
    (∀ a, a ∈ t.dirty ↔ i ≠ .fenceI ∧ (a ∈ s.dirty ∨ a ∈ storedBytes s i)) ∧
    t.params = s.params

/-- No instruction reads or writes a register it does not name: changing such a register beforehand
changes the outcome in that register only, changing one that is only the destination changes nothing, and
a register that is not the destination keeps its value (10_state.md R12). -/
def Obligations.OnlyNamedRegistersMatter : Prop :=
  ∀ (i : Instr) (s : State) (r : Reg) (v : Word),
    (r ∉ sourcesOf i → destOf i ≠ some r →
      exec i (s.writeReg r v) = mapNext (fun t => t.writeReg r v) (exec i s)) ∧
    (r ∉ sourcesOf i → destOf i = some r → exec i (s.writeReg r v) = exec i s) ∧
    (∀ t, exec i s = .next t → destOf i ≠ some r → t.readReg r = s.readReg r)

/-- `x[0]` reads as zero, a write to it is discarded, and an instruction with `rd = x0` has every other
effect and every exception that it has with another `rd` (10_state.md R11, which the spec supplies from
general knowledge; 30_encoding.md R71). -/
def Obligations.RegisterZeroDiscardsWrites : Prop :=
  ∀ s : State,
    s.readReg 0#5 = 0#64 ∧ (∀ v, s.writeReg 0#5 v = s) ∧
    (∀ i q r t, destOf i = some q → exec (withDest i 0#5) s = .next t →
      t.readReg 0#5 = 0#64 ∧ ∃ v, exec (withDest i r) s = .next (t.writeReg r v)) ∧
    (∀ i q r c pc info, destOf i = some q → exec (withDest i r) s = .fault (.trapped c pc info) →
      ∃ info', exec (withDest i 0#5) s = .fault (.trapped c pc info'))

/-- Where the pc goes: a jump or a taken branch sets it to its target, everything else to `pc + 4` modulo
2^64; it is a multiple of 4 before and after every step; a target that is not raises instead (10_state.md
R14; sequential execution is the spec's own derivation). -/
def Obligations.PcFollowsTheRule : Prop :=
  ∀ s : State,
    (∀ t, step s = .next t → s.pc.toNat % 4 = 0 ∧ t.pc.toNat % 4 = 0 ∧
      ∃ w i, Runs s w i ∧ t.pc = (targetOf s i).getD s.nextPc) ∧
    (∀ w i a, Runs s w i → targetOf s i = some a → a.toNat % 4 ≠ 0 →
      step s = .fault (.trapped .instructionAddressMisaligned s.pc a))

/-- Where a run ends (70_reset_and_hazards.md R253): exactly where it comes to a state that raises one of
the exceptions of R220 or that is refused (R228), and there is one such state at most; by itself exactly at
an `ecall` or `ebreak` word; never from a state that fetches `jal x0, 0`, which every step leaves as it is.
All along a run the parameters are those of its start, and the invariant holds if it held there. -/
def Obligations.RunEndsWhereRaisedOrRefused : Prop :=
  ∀ s f : State,
    (EndsIn s f ↔ Reaches s f ∧ ((∃ c info, Raises f c info) ∨ ∃ r, Refuses f r)) ∧
    (EndsNormally s f ↔ Reaches s f ∧ (Runs f 0x00000073#32 .ecall ∨ Runs f 0x00100073#32 .ebreak)) ∧
    (s.fetch = .word 0x0000006f#32 → (Reaches s f ↔ f = s) ∧ ¬ EndsIn s f) ∧
    (Reaches s f → f.params = s.params ∧ (s.Inv → f.Inv)) ∧
    (∀ g, EndsIn s f → EndsIn s g → f = g)

/-- The model's own loading of one instruction word (log entry 13): afterwards the fetch at the pc gives
exactly that word, whatever was there and whatever was stale. -/
def Obligations.PlacedWordIsFetched : Prop :=
  ∀ (s : State) (w : Nat), s.pc.toNat % 4 = 0 → s.mem.wf → w < 2 ^ 32 →
    (s.withFetchWord 32 w).fetch = .word (BitVec.ofNat 32 w)

/-! ### Memory (20_memory.md) -/

/-- A load or store at an address that is no multiple of its size raises the misaligned exception of its
kind with the address, whether or not the bytes exist; a one-byte access never does (R33). -/
def Obligations.MisalignedAccessTraps : Prop :=
  ∀ (i : Instr) (s : State) (k : AccessKind) (a : Word) (n : Nat), accessOf s i = some (k, a, n) →
    (s.misalignedAt a n → exec i s = .fault (.trapped
      (match k with | .load => .loadAddressMisaligned | .store => .storeAddressMisaligned) s.pc a)) ∧
    (n = 1 → ¬ s.misalignedAt a n) ∧ (n = 1 ∨ n = 2 ∨ n = 4 ∨ n = 8)

/-- An access any of whose bytes is outside `MEM_VALID` raises the access fault of its kind, with the
address of its first byte, if it is not misaligned (R39, which the spec supplies from general knowledge). -/
def Obligations.AccessOutsideMemoryTraps : Prop :=
  (∀ (i : Instr) (s : State) (k : AccessKind) (a : Word) (n : Nat), accessOf s i = some (k, a, n) →
    ¬ s.existsAt a n → ¬ s.misalignedAt a n → exec i s = .fault (.trapped
      (match k with | .load => .loadAccessFault | .store => .storeAccessFault) s.pc a)) ∧
  (∀ (i : Instr) (s : State) (k : AccessKind) (a : Word) (n : Nat), accessOf s i = some (k, a, n) →
    ¬ s.existsAt a n → s.misalignedAt a n → exec i s = .fault (.trapped
      (match k with | .load => .loadAddressMisaligned | .store => .storeAddressMisaligned) s.pc a)) ∧
  (∀ s : State, s.pc.toNat % 4 = 0 → ¬ s.existsAt s.pc 4 →
    step s = .fault (.trapped .instructionAccessFault s.pc s.pc))

/-- With `MISALIGNED_DATA = split` no address is misaligned: an access whose bytes, at successive addresses
modulo 2^64, all exist completes, and one with a byte outside `MEM_VALID` raises the access fault (R34;
log entry 19). -/
def Obligations.SplitAccessCompletes : Prop :=
  ∀ (i : Instr) (s : State) (k : AccessKind) (a : Word) (n : Nat),
    s.params.misalignedData = .split → accessOf s i = some (k, a, n) →
    (s.existsAt a n → ∃ t, exec i s = .next t) ∧
    (¬ s.existsAt a n → exec i s = .fault (.trapped
      (match k with | .load => .loadAccessFault | .store => .storeAccessFault) s.pc a))

/-- A load of what was just stored completes and returns the stored value, whatever is stale and in either
byte order (R30, R41, R44; for `BYTE_ORDER` = big, log entry 22). -/
def Obligations.StoreThenLoadReturnsValue : Prop :=
  ∀ (s t : State) (rs2 rs1 rd : Reg) (imm : BitVec 12), s.mem.wf →
    (exec (.sb rs2 rs1 imm) s = .next t →
      Completes (.lb rd rs1 imm) t rd (((s.readReg rs2).setWidth 8).signExtend 64) ∧
      Completes (.lbu rd rs1 imm) t rd (((s.readReg rs2).setWidth 8).setWidth 64)) ∧
    (exec (.sh rs2 rs1 imm) s = .next t →
      Completes (.lh rd rs1 imm) t rd (((s.readReg rs2).setWidth 16).signExtend 64) ∧
      Completes (.lhu rd rs1 imm) t rd (((s.readReg rs2).setWidth 16).setWidth 64)) ∧
    (exec (.sw rs2 rs1 imm) s = .next t →
      Completes (.lw rd rs1 imm) t rd (((s.readReg rs2).setWidth 32).signExtend 64) ∧
      Completes (.lwu rd rs1 imm) t rd (((s.readReg rs2).setWidth 32).setWidth 64)) ∧
    (exec (.sd rs2 rs1 imm) s = .next t → Completes (.ld rd rs1 imm) t rd (s.readReg rs2))

/-- The stale-fetch set: a store adds the address of every byte it writes, a fetch that reads one is
refused, after `fence.i` there is none and the fetch returns the bytes as memory holds them (R31, R43, R47,
R223). That the fetched word is little-endian also for `BYTE_ORDER` = big is the model's reading (log entry
9). -/
def Obligations.StaleFetchSet : Prop :=
  (∀ (i : Instr) (s t : State) (a : Word) (n : Nat), accessOf s i = some (.store, a, n) →
    exec i s = .next t → ∀ k < n, byteAddr a k ∈ t.dirty) ∧
  (∀ s : State, s.pc.toNat % 4 = 0 → s.existsAt s.pc 4 → (∃ k < 4, byteAddr s.pc k ∈ s.dirty) →
    step s = .refused .staleFetch) ∧
  (∀ s : State, ∃ t, exec .fenceI s = .next t ∧ t.dirty = [] ∧ MemoryKept s t ∧
    (t.pc.toNat % 4 = 0 → t.existsAt t.pc 4 →
      ∃ w, t.fetch = .word w ∧ ∀ k < 4, w.extractLsb' (8 * k) 8 = s.readByte (byteAddr t.pc k)))

/-! ### Register with register (40_r_type.md) -/

/-- `add` (R81) and `sub` (R82). -/
def Obligations.AddAndSub : Prop :=
  RowR .add 0xfe00707f#32 0x00000033#32 ∧ RowR .sub 0xfe00707f#32 0x40000033#32 ∧
  ∀ (s : State) (rd rs1 rs2 : Reg),
    let a := s.readReg rs1
    let b := s.readReg rs2
    Completes (.add rd rs1 rs2) s rd (BitVec.ofNat 64 (a.toNat + b.toNat)) ∧
    Completes (.sub rd rs1 rs2) s rd (BitVec.ofInt 64 ((a.toNat : Int) - b.toNat))

/-- `sll` (R83), `srl` (R84) and `sra` (R85): the count is the register modulo 64. -/
def Obligations.ShiftsByRegister : Prop :=
  RowR .sll 0xfe00707f#32 0x00001033#32 ∧ RowR .srl 0xfe00707f#32 0x00005033#32 ∧
  RowR .sra 0xfe00707f#32 0x40005033#32 ∧
  ∀ (s : State) (rd rs1 rs2 : Reg),
    let a := s.readReg rs1
    let n := (s.readReg rs2).toNat % 64
    Completes (.sll rd rs1 rs2) s rd (BitVec.ofNat 64 (a.toNat * 2 ^ n)) ∧
    Completes (.srl rd rs1 rs2) s rd (BitVec.ofNat 64 (a.toNat / 2 ^ n)) ∧
    Completes (.sra rd rs1 rs2) s rd (BitVec.ofInt 64 (a.toInt / 2 ^ n))

/-- `slt` (R86) and `sltu` (R87). -/
def Obligations.SetLessThan : Prop :=
  RowR .slt 0xfe00707f#32 0x00002033#32 ∧ RowR .sltu 0xfe00707f#32 0x00003033#32 ∧
  ∀ (s : State) (rd rs1 rs2 : Reg),
    let a := s.readReg rs1
    let b := s.readReg rs2
    Completes (.slt rd rs1 rs2) s rd (if a.toInt < b.toInt then 1#64 else 0#64) ∧
    Completes (.sltu rd rs1 rs2) s rd (if a.toNat < b.toNat then 1#64 else 0#64)

/-- `and` (R88), `or` (R89) and `xor` (R90), bit by bit. -/
def Obligations.BitwiseLogic : Prop :=
  RowR .and 0xfe00707f#32 0x00007033#32 ∧ RowR .or 0xfe00707f#32 0x00006033#32 ∧
  RowR .xor 0xfe00707f#32 0x00004033#32 ∧
  ∀ (s : State) (rd rs1 rs2 : Reg),
    let a := s.readReg rs1
    let b := s.readReg rs2
    (∃ v, Completes (.and rd rs1 rs2) s rd v ∧
      ∀ k < 64, v.getLsbD k = (a.getLsbD k && b.getLsbD k)) ∧
    (∃ v, Completes (.or rd rs1 rs2) s rd v ∧
      ∀ k < 64, v.getLsbD k = (a.getLsbD k || b.getLsbD k)) ∧
    (∃ v, Completes (.xor rd rs1 rs2) s rd v ∧
      ∀ k < 64, v.getLsbD k = (a.getLsbD k != b.getLsbD k))

/-- `addw` (R92) and `subw` (R93): 32 bits, sign-extended. -/
def Obligations.AddAndSubWord : Prop :=
  RowR .addw 0xfe00707f#32 0x0000003b#32 ∧ RowR .subw 0xfe00707f#32 0x4000003b#32 ∧
  ∀ (s : State) (rd rs1 rs2 : Reg),
    let a := s.readReg rs1
    let b := s.readReg rs2
    Completes (.addw rd rs1 rs2) s rd (wordResult ((lowU a : Int) + lowU b)) ∧
    Completes (.subw rd rs1 rs2) s rd (wordResult ((lowU a : Int) - lowU b))

/-- `sllw` (R94), `srlw` (R95) and `sraw` (R96): the low 32 bits, the count modulo 32, sign-extended. -/
def Obligations.ShiftsByRegisterWord : Prop :=
  RowR .sllw 0xfe00707f#32 0x0000103b#32 ∧ RowR .srlw 0xfe00707f#32 0x0000503b#32 ∧
  RowR .sraw 0xfe00707f#32 0x4000503b#32 ∧
  ∀ (s : State) (rd rs1 rs2 : Reg),
    let a := s.readReg rs1
    let n := (s.readReg rs2).toNat % 32
    Completes (.sllw rd rs1 rs2) s rd (wordResult (lowU a * 2 ^ n)) ∧
    Completes (.srlw rd rs1 rs2) s rd (wordResult (lowU a / 2 ^ n)) ∧
    Completes (.sraw rd rs1 rs2) s rd (wordResult (lowS a / 2 ^ n))

/-! ### Upper immediates and jumps (41_u_type.md, 42_j_type.md, 47_i_type_loads_jalr.md) -/

/-- `lui` (R101) and `auipc` (R102): the 20-bit field times 4096, sign-extended from bit 31. -/
def Obligations.UpperImmediates : Prop :=
  RowU .lui 0x0000007f#32 0x00000037#32 ∧ RowU .auipc 0x0000007f#32 0x00000017#32 ∧
  ∀ (s : State) (rd : Reg) (imm20 : BitVec 20),
    Completes (.lui rd imm20) s rd (wordResult (imm20.toNat * 4096)) ∧
    Completes (.auipc rd imm20) s rd
      (BitVec.ofInt 64 (s.pc.toNat + (wordResult (imm20.toNat * 4096)).toInt))

/-- `jal` (R105): to `pc + offset`, with `pc + 4` in `x[rd]`. -/
def Obligations.JumpAndLink : Prop :=
  RowJ .jal 0x0000007f#32 0x0000006f#32 ∧
  ∀ (s : State) (rd : Reg) (offset : BitVec 21),
    JumpMeaning (.jal rd offset) s rd (BitVec.ofInt 64 (s.pc.toNat + offset.toInt))

/-- `jalr` (R173): to `x[rs1] + imm` with bit 0 cleared, the old `x[rs1]` even where `rd = rs1`, with
`pc + 4` in `x[rd]`. -/
def Obligations.JumpAndLinkRegister : Prop :=
  RowI .jalr 0x0000707f#32 0x00000067#32 ∧
  ∀ (s : State) (rd rs1 : Reg) (imm : BitVec 12),
    JumpMeaning (.jalr rd rs1 imm) s rd
      (BitVec.ofInt 64 (2 * (((s.readReg rs1).toNat + imm.toInt) / 2)))

/-! ### Stores and loads (43_s_type.md, 47_i_type_loads_jalr.md) -/

/-- `sb`, `sh`, `sw`, `sd` (R110 to R114); what `BYTE_ORDER` = big means is the model's reading (log entry
22). -/
def Obligations.StoresWriteLowBytes : Prop :=
  RowS .sb 0x0000707f#32 0x00000023#32 ∧ RowS .sh 0x0000707f#32 0x00001023#32 ∧
  RowS .sw 0x0000707f#32 0x00002023#32 ∧ RowS .sd 0x0000707f#32 0x00003023#32 ∧
  ∀ (s : State) (rs2 rs1 : Reg) (imm : BitVec 12),
    let a := s.effectiveAddress rs1 imm
    a = BitVec.ofInt 64 ((s.readReg rs1).toNat + imm.toInt) ∧
    StoreMeaning (.sb rs2 rs1 imm) s a 1 (s.readReg rs2) ∧
    StoreMeaning (.sh rs2 rs1 imm) s a 2 (s.readReg rs2) ∧
    StoreMeaning (.sw rs2 rs1 imm) s a 4 (s.readReg rs2) ∧
    StoreMeaning (.sd rs2 rs1 imm) s a 8 (s.readReg rs2)

/-- `lb` (R166), `lh` (R167), `lw` (R168): sign-extended; for `BYTE_ORDER` = big, log entry 22. -/
def Obligations.SignedLoads : Prop :=
  RowI .lb 0x0000707f#32 0x00000003#32 ∧ RowI .lh 0x0000707f#32 0x00001003#32 ∧
  RowI .lw 0x0000707f#32 0x00002003#32 ∧
  ∀ (s : State) (rd rs1 : Reg) (imm : BitVec 12),
    let a := s.effectiveAddress rs1 imm
    a = BitVec.ofInt 64 ((s.readReg rs1).toNat + imm.toInt) ∧
    LoadMeaning (.lb rd rs1 imm) s rd a 1 (BitVec.ofInt 64 ((s.valueAt a 1 : Int).bmod (2 ^ 8))) ∧
    LoadMeaning (.lh rd rs1 imm) s rd a 2 (BitVec.ofInt 64 ((s.valueAt a 2 : Int).bmod (2 ^ 16))) ∧
    LoadMeaning (.lw rd rs1 imm) s rd a 4 (BitVec.ofInt 64 ((s.valueAt a 4 : Int).bmod (2 ^ 32)))

/-- `lbu` (R169), `lhu` (R170), `lwu` (R171), zero-extended, and `ld` (R172); for `BYTE_ORDER` = big,
log entry 22. -/
def Obligations.UnsignedLoads : Prop :=
  RowI .lbu 0x0000707f#32 0x00004003#32 ∧ RowI .lhu 0x0000707f#32 0x00005003#32 ∧
  RowI .lwu 0x0000707f#32 0x00006003#32 ∧ RowI .ld 0x0000707f#32 0x00003003#32 ∧
  ∀ (s : State) (rd rs1 : Reg) (imm : BitVec 12),
    let a := s.effectiveAddress rs1 imm
    a = BitVec.ofInt 64 ((s.readReg rs1).toNat + imm.toInt) ∧
    LoadMeaning (.lbu rd rs1 imm) s rd a 1 (BitVec.ofNat 64 (s.valueAt a 1)) ∧
    LoadMeaning (.lhu rd rs1 imm) s rd a 2 (BitVec.ofNat 64 (s.valueAt a 2)) ∧
    LoadMeaning (.lwu rd rs1 imm) s rd a 4 (BitVec.ofNat 64 (s.valueAt a 4)) ∧
    LoadMeaning (.ld rd rs1 imm) s rd a 8 (BitVec.ofNat 64 (s.valueAt a 8))

/-! ### Branches (44_b_type.md) -/

/-- `beq` (R121) and `bne` (R122). -/
def Obligations.BranchesOnEquality : Prop :=
  RowB .beq 0x0000707f#32 0x00000063#32 ∧ RowB .bne 0x0000707f#32 0x00001063#32 ∧
  ∀ (s : State) (rs1 rs2 : Reg) (offset : BitVec 13),
    let a := s.readReg rs1
    let b := s.readReg rs2
    BranchMeaning (.beq rs1 rs2 offset) s (a.toNat = b.toNat) offset ∧
    BranchMeaning (.bne rs1 rs2 offset) s (a.toNat ≠ b.toNat) offset

/-- `blt` (R123), `bge` (R125), signed, and `bltu` (R124), `bgeu` (R126), unsigned. -/
def Obligations.BranchesOnOrder : Prop :=
  RowB .blt 0x0000707f#32 0x00004063#32 ∧ RowB .bltu 0x0000707f#32 0x00006063#32 ∧
  RowB .bge 0x0000707f#32 0x00005063#32 ∧ RowB .bgeu 0x0000707f#32 0x00007063#32 ∧
  ∀ (s : State) (rs1 rs2 : Reg) (offset : BitVec 13),
    let a := s.readReg rs1
    let b := s.readReg rs2
    BranchMeaning (.blt rs1 rs2 offset) s (a.toInt < b.toInt) offset ∧
    BranchMeaning (.bltu rs1 rs2 offset) s (a.toNat < b.toNat) offset ∧
    BranchMeaning (.bge rs1 rs2 offset) s (a.toInt ≥ b.toInt) offset ∧
    BranchMeaning (.bgeu rs1 rs2 offset) s (a.toNat ≥ b.toNat) offset

/-! ### Arithmetic, logic and shifts with an immediate (45_i_type_alu.md) -/

/-- `addi` (R131), `slti` (R132) and `sltiu` (R133). -/
def Obligations.AddAndCompareImmediate : Prop :=
  RowI .addi 0x0000707f#32 0x00000013#32 ∧ RowI .slti 0x0000707f#32 0x00002013#32 ∧
  RowI .sltiu 0x0000707f#32 0x00003013#32 ∧
  ∀ (s : State) (rd rs1 : Reg) (imm : BitVec 12),
    let a := s.readReg rs1
    Completes (.addi rd rs1 imm) s rd (BitVec.ofInt 64 (a.toNat + imm.toInt)) ∧
    Completes (.slti rd rs1 imm) s rd (if a.toInt < imm.toInt then 1#64 else 0#64) ∧
    Completes (.sltiu rd rs1 imm) s rd (if (a.toNat : Int) < imm.toInt % 2 ^ 64 then 1#64 else 0#64)

/-- `andi` (R134), `ori` (R135) and `xori` (R136), bit by bit, bit 11 of the immediate standing for every
higher one. -/
def Obligations.BitwiseLogicImmediate : Prop :=
  RowI .andi 0x0000707f#32 0x00007013#32 ∧ RowI .ori 0x0000707f#32 0x00006013#32 ∧
  RowI .xori 0x0000707f#32 0x00004013#32 ∧
  ∀ (s : State) (rd rs1 : Reg) (imm : BitVec 12),
    let a := s.readReg rs1
    (∃ v, Completes (.andi rd rs1 imm) s rd v ∧
      ∀ k < 64, v.getLsbD k = (a.getLsbD k && imm.getLsbD (min k 11))) ∧
    (∃ v, Completes (.ori rd rs1 imm) s rd v ∧
      ∀ k < 64, v.getLsbD k = (a.getLsbD k || imm.getLsbD (min k 11))) ∧
    (∃ v, Completes (.xori rd rs1 imm) s rd v ∧
      ∀ k < 64, v.getLsbD k = (a.getLsbD k != imm.getLsbD (min k 11)))

/-- `slli` (R137), `srli` (R138) and `srai` (R139), by 0 to 63. -/
def Obligations.ShiftsByImmediate : Prop :=
  RowShift 6 .slli 0xfc00707f#32 0x00001013#32 ∧ RowShift 6 .srli 0xfc00707f#32 0x00005013#32 ∧
  RowShift 6 .srai 0xfc00707f#32 0x40005013#32 ∧
  ∀ (s : State) (rd rs1 : Reg) (shamt : BitVec 6),
    let a := s.readReg rs1
    Completes (.slli rd rs1 shamt) s rd (BitVec.ofNat 64 (a.toNat * 2 ^ shamt.toNat)) ∧
    Completes (.srli rd rs1 shamt) s rd (BitVec.ofNat 64 (a.toNat / 2 ^ shamt.toNat)) ∧
    Completes (.srai rd rs1 shamt) s rd (BitVec.ofInt 64 (a.toInt / 2 ^ shamt.toNat))

/-- `addiw` (R141), `slliw` (R142), `srliw` (R143) and `sraiw` (R144): 32 bits, sign-extended. -/
def Obligations.ImmediateWordInstructions : Prop :=
  RowI .addiw 0x0000707f#32 0x0000001b#32 ∧ RowShift 5 .slliw 0xfe00707f#32 0x0000101b#32 ∧
  RowShift 5 .srliw 0xfe00707f#32 0x0000501b#32 ∧ RowShift 5 .sraiw 0xfe00707f#32 0x4000501b#32 ∧
  (∀ (s : State) (rd rs1 : Reg) (imm : BitVec 12),
    Completes (.addiw rd rs1 imm) s rd (wordResult ((s.readReg rs1).toNat + imm.toInt))) ∧
  ∀ (s : State) (rd rs1 : Reg) (shamt : BitVec 5),
    let a := s.readReg rs1
    Completes (.slliw rd rs1 shamt) s rd (wordResult (lowU a * 2 ^ shamt.toNat)) ∧
    Completes (.srliw rd rs1 shamt) s rd (wordResult (lowU a / 2 ^ shamt.toNat)) ∧
    Completes (.sraiw rd rs1 shamt) s rd (wordResult (lowS a / 2 ^ shamt.toNat))

/-! ### CSR instructions (46_i_type_csr.md) -/

/-- `csrrw` (R151) and `csrrwi` (R154): always write. -/
def Obligations.CsrReadAndWrite : Prop :=
  RowCsr .csrrw 0x0000707f#32 0x00001073#32 ∧ RowCsr .csrrwi 0x0000707f#32 0x00005073#32 ∧
  ∀ (s : State) (rd src : Reg) (c : CsrAddr),
    CsrMeaning (.csrrw rd c src) s rd c True (s.readReg src) ∧
    CsrMeaning (.csrrwi rd c src) s rd c True (BitVec.ofNat 64 src.toNat)

/-- `csrrs` (R152) and `csrrsi` (R155): set bits; they write unless the source field is 0. -/
def Obligations.CsrReadAndSet : Prop :=
  RowCsr .csrrs 0x0000707f#32 0x00002073#32 ∧ RowCsr .csrrsi 0x0000707f#32 0x00006073#32 ∧
  ∀ (s : State) (rd src : Reg) (c : CsrAddr),
    CsrMeaning (.csrrs rd c src) s rd c (src ≠ 0#5) (s.readCsr c ||| s.readReg src) ∧
    CsrMeaning (.csrrsi rd c src) s rd c (src ≠ 0#5) (s.readCsr c ||| BitVec.ofNat 64 src.toNat)

/-- `csrrc` (R153) and `csrrci` (R156): clear bits; they write unless the source field is 0. -/
def Obligations.CsrReadAndClear : Prop :=
  RowCsr .csrrc 0x0000707f#32 0x00003073#32 ∧ RowCsr .csrrci 0x0000707f#32 0x00007073#32 ∧
  ∀ (s : State) (rd src : Reg) (c : CsrAddr),
    CsrMeaning (.csrrc rd c src) s rd c (src ≠ 0#5) (s.readCsr c &&& ~~~(s.readReg src)) ∧
    CsrMeaning (.csrrci rd c src) s rd c (src ≠ 0#5) (s.readCsr c &&& ~~~(BitVec.ofNat 64 src.toNat))

/-- When a CSR instruction is illegal and when it does not write: (a) an absent CSR, every one of the six;
(b) which write; (c) a write to a read-only CSR is illegal, a read of it is not; (d) the old value is
discarded where `rd = x0` (R157, which the spec takes from general knowledge). -/
def Obligations.CsrLegality : Prop :=
  ∀ (i : Instr) (s : State) (c : CsrAddr), csrOf i = some c →
    (c ∉ s.params.csrSet → ∀ w, decode s.params w = .instr i →
      exec i s = .fault (.trapped .illegalInstruction s.pc (w.setWidth 64))) ∧
    (c ∈ s.params.csrSet → c ∈ s.params.csrReadonly → csrWrittenBy i = some c →
      ∀ w, decode s.params w = .instr i →
        exec i s = .fault (.trapped .illegalInstruction s.pc (w.setWidth 64))) ∧
    (c ∈ s.params.csrSet → csrWrittenBy i = none →
      ∃ t, exec i s = .next t ∧ ∀ e, t.readCsr e = s.readCsr e) ∧
    ((∃ rd src, i = .csrrw rd c src ∨ i = .csrrwi rd c src) → csrWrittenBy i = some c) ∧
    (∀ rd src, i = .csrrs rd c src ∨ i = .csrrc rd c src ∨ i = .csrrsi rd c src ∨ i = .csrrci rd c src →
      (csrWrittenBy i = none ↔ src = 0#5)) ∧
    (destOf i = some 0#5 → ∀ t, exec i s = .next t → ∀ q, t.readReg q = s.readReg q)

/-! ### System instructions (48_i_type_system_fence_privileged.md) -/

/-- `ecall` (R181) and `ebreak` (R182) always raise; nothing is saved and nothing changes. -/
def Obligations.EnvironmentCallAndBreakpoint : Prop :=
  RowWord .ecall 0x00000073#32 ∧ RowWord .ebreak 0x00100073#32 ∧
  ∀ s : State,
    exec .ecall s = .fault (.trapped .environmentCall s.pc 0#64) ∧
    exec .ebreak s = .fault (.trapped .breakpoint s.pc s.pc)

/-- The five privileged instructions decode, and are refused in every state (R185 to R190). -/
def Obligations.PrivilegedAreRefused : Prop :=
  RowWord .uret 0x00200073#32 ∧ RowWord .mret 0x30200073#32 ∧ RowWord .sret 0x10200073#32 ∧
  RowR .sfenceVma 0xfe00707f#32 0x12000073#32 ∧ RowWord .wfi 0x10500073#32 ∧
  ∀ s : State,
    exec .uret s = .refused .uret ∧ exec .mret s = .refused .mret ∧ exec .sret s = .refused .sret ∧
    (∀ rd rs1 rs2, exec (.sfenceVma rd rs1 rs2) s = .refused .sfenceVma) ∧
    exec .wfi s = .refused .wfi

/-- `fence` (R183) changes only the pc, whatever `pred` and `succ`; `dirty` stays. -/
def Obligations.FenceChangesOnlyPc : Prop :=
  (∀ (p : Params) (w : InstrWord) (pred succ : BitVec 4), decode p w = .instr (.fence pred succ) ↔
    w &&& (if p.fenceStrict then 0xf00fffff#32 else 0x0000707f#32) = 0x0000000f#32 ∧
      pred = w.extractLsb' 24 4 ∧ succ = w.extractLsb' 20 4) ∧
  ∀ (s : State) (pred succ : BitVec 4),
    ∃ t, exec (.fence pred succ) s = .next t ∧ OnlyPcChanged s t s.nextPc

/-- `fence.i` (R184) empties `dirty` and moves the pc; registers, CSRs and memory are unchanged. -/
def Obligations.FenceIEmptiesDirty : Prop :=
  (∀ (p : Params) (w : InstrWord), decode p w = .instr .fenceI ↔
    w &&& (if p.fenceStrict then 0xffffffff#32 else 0x0000707f#32) = 0x0000100f#32) ∧
  ∀ s : State, ∃ t, exec .fenceI s = .next t ∧ t.dirty = [] ∧ t.pc = s.nextPc ∧ RegsKept s t ∧
    CsrsKept s t ∧ MemoryKept s t ∧ t.params = s.params

/-! ### RV64M (49_rv64m.md) -/

/-- `div` (R201) and `divu` (R202), with the fixed results of R200; rounding toward zero is general
knowledge there, and which pair of operands overflows is the spec's own derivation. -/
def Obligations.Division : Prop :=
  RowR .div 0xfe00707f#32 0x02004033#32 ∧ RowR .divu 0xfe00707f#32 0x02005033#32 ∧
  ∀ (s : State) (rd rs1 rs2 : Reg),
    let a := s.readReg rs1
    let b := s.readReg rs2
    Completes (.div rd rs1 rs2) s rd
      (if b.toInt = 0 then 0xFFFFFFFFFFFFFFFF#64
        else if a.toInt = -2 ^ 63 ∧ b.toInt = -1 then 0x8000000000000000#64
        else BitVec.ofInt 64 (a.toInt.tdiv b.toInt)) ∧
    Completes (.divu rd rs1 rs2) s rd
      (if b.toNat = 0 then 0xFFFFFFFFFFFFFFFF#64 else BitVec.ofNat 64 (a.toNat / b.toNat))

/-- `mul` (R203), `mulh` (R204), `mulhsu` (R205), `mulhu` (R206). They rest on general knowledge and are
admitted with `RV64M_FULL` only. -/
def Obligations.Multiplication : Prop :=
  RowRFull .mul 0xfe00707f#32 0x02000033#32 ∧ RowRFull .mulh 0xfe00707f#32 0x02001033#32 ∧
  RowRFull .mulhsu 0xfe00707f#32 0x02002033#32 ∧ RowRFull .mulhu 0xfe00707f#32 0x02003033#32 ∧
  ∀ (s : State) (rd rs1 rs2 : Reg),
    let a := s.readReg rs1
    let b := s.readReg rs2
    Completes (.mul rd rs1 rs2) s rd (BitVec.ofNat 64 (a.toNat * b.toNat)) ∧
    Completes (.mulh rd rs1 rs2) s rd (BitVec.ofInt 64 (a.toInt * b.toInt / 2 ^ 64)) ∧
    Completes (.mulhsu rd rs1 rs2) s rd (BitVec.ofInt 64 (a.toInt * b.toNat / 2 ^ 64)) ∧
    Completes (.mulhu rd rs1 rs2) s rd (BitVec.ofNat 64 (a.toNat * b.toNat / 2 ^ 64))

/-- `rem` (R207) and `remu` (R208). They rest on general knowledge and are admitted with `RV64M_FULL`
only. -/
def Obligations.Remainder : Prop :=
  RowRFull .rem 0xfe00707f#32 0x02006033#32 ∧ RowRFull .remu 0xfe00707f#32 0x02007033#32 ∧
  ∀ (s : State) (rd rs1 rs2 : Reg),
    let a := s.readReg rs1
    let b := s.readReg rs2
    Completes (.rem rd rs1 rs2) s rd
      (if b.toInt = 0 then a
        else if a.toInt = -2 ^ 63 ∧ b.toInt = -1 then 0#64
        else BitVec.ofInt 64 (a.toInt - b.toInt * a.toInt.tdiv b.toInt)) ∧
    Completes (.remu rd rs1 rs2) s rd
      (if b.toNat = 0 then a else BitVec.ofNat 64 (a.toNat % b.toNat))

/-- `mulw` (R209), `divw` (R210), `divuw` (R211), `remw` (R212), `remuw` (R213), on the low 32 bits,
sign-extended. They rest on general knowledge and are admitted with `RV64M_FULL` only. -/
def Obligations.MulDivWord : Prop :=
  RowRFull .mulw 0xfe00707f#32 0x0200003b#32 ∧ RowRFull .divw 0xfe00707f#32 0x0200403b#32 ∧
  RowRFull .divuw 0xfe00707f#32 0x0200503b#32 ∧ RowRFull .remw 0xfe00707f#32 0x0200603b#32 ∧
  RowRFull .remuw 0xfe00707f#32 0x0200703b#32 ∧
  ∀ (s : State) (rd rs1 rs2 : Reg),
    let a := s.readReg rs1
    let b := s.readReg rs2
    Completes (.mulw rd rs1 rs2) s rd (wordResult (lowU a * lowU b)) ∧
    Completes (.divw rd rs1 rs2) s rd (wordResult
      (if lowS b = 0 then 0xFFFFFFFF
        else if lowS a = -2 ^ 31 ∧ lowS b = -1 then 0x80000000
        else (lowS a).tdiv (lowS b))) ∧
    Completes (.divuw rd rs1 rs2) s rd (wordResult
      (if lowU b = 0 then 0xFFFFFFFF else ((lowU a / lowU b : Nat) : Int))) ∧
    Completes (.remw rd rs1 rs2) s rd (wordResult
      (if lowS b = 0 then lowS a
        else if lowS a = -2 ^ 31 ∧ lowS b = -1 then 0
        else lowS a - lowS b * (lowS a).tdiv (lowS b))) ∧
    Completes (.remuw rd rs1 rs2) s rd (wordResult
      (if lowU b = 0 then (lowU a : Int) else ((lowU a % lowU b : Nat) : Int)))

/-- The instructions of RV64M fit together, by zero and on overflow too: quotient times divisor plus
remainder is the dividend modulo 2^64, and the two halves of a signed product make the whole. `rem`,
`remu`, `mul` and `mulh` rest on general knowledge (R214). -/
def Obligations.DivisionAndProductIdentities : Prop :=
  ∀ (s t u : State) (rd rs1 rs2 : Reg), rd ≠ 0#5 →
    let a := s.readReg rs1
    let b := s.readReg rs2
    (exec (.div rd rs1 rs2) s = .next t → exec (.rem rd rs1 rs2) s = .next u →
      t.readReg rd * b + u.readReg rd = a) ∧
    (exec (.divu rd rs1 rs2) s = .next t → exec (.remu rd rs1 rs2) s = .next u →
      t.readReg rd * b + u.readReg rd = a) ∧
    (exec (.mulh rd rs1 rs2) s = .next t → exec (.mul rd rs1 rs2) s = .next u →
      (t.readReg rd).toInt * 2 ^ 64 + (u.readReg rd).toNat = a.toInt * b.toInt)

end Statements
end

