-- ==== Sys2Proof/Laws/State.lean ====
section
/-! SUPPORT. What each update of the state does to each field, and to what the accessors read. -/

namespace Sys2Proof.Machine

variable (s : State)

/-! ### One lemma per field per update -/

@[simp] theorem writeReg_regs (r : Reg) (v : Word) : (s.writeReg r v).regs = if r = 0#5 then s.regs else s.regs.set r.toNat v r.isLt := rfl
@[simp] theorem writeReg_pc (r : Reg) (v : Word) : (s.writeReg r v).pc = s.pc := rfl
@[simp] theorem writeReg_csr (r : Reg) (v : Word) : (s.writeReg r v).csr = s.csr := rfl
@[simp] theorem writeReg_mem (r : Reg) (v : Word) : (s.writeReg r v).mem = s.mem := rfl
@[simp] theorem writeReg_dirty (r : Reg) (v : Word) : (s.writeReg r v).dirty = s.dirty := rfl
@[simp] theorem writeReg_params (r : Reg) (v : Word) : (s.writeReg r v).params = s.params := rfl

@[simp] theorem setPc_regs (t : Word) : (s.setPc t).regs = s.regs := rfl
@[simp] theorem setPc_pc (t : Word) : (s.setPc t).pc = t := rfl
@[simp] theorem setPc_csr (t : Word) : (s.setPc t).csr = s.csr := rfl
@[simp] theorem setPc_mem (t : Word) : (s.setPc t).mem = s.mem := rfl
@[simp] theorem setPc_dirty (t : Word) : (s.setPc t).dirty = s.dirty := rfl
@[simp] theorem setPc_params (t : Word) : (s.setPc t).params = s.params := rfl

@[simp] theorem advance_regs : (s.advance).regs = s.regs := rfl
@[simp] theorem advance_pc : (s.advance).pc = s.pc + 4#64 := rfl
@[simp] theorem advance_csr : (s.advance).csr = s.csr := rfl
@[simp] theorem advance_mem : (s.advance).mem = s.mem := rfl
@[simp] theorem advance_dirty : (s.advance).dirty = s.dirty := rfl
@[simp] theorem advance_params : (s.advance).params = s.params := rfl

@[simp] theorem writeCsr_regs (c : CsrAddr) (v : Word) : (s.writeCsr c v).regs = s.regs := rfl
@[simp] theorem writeCsr_pc (c : CsrAddr) (v : Word) : (s.writeCsr c v).pc = s.pc := rfl
@[simp] theorem writeCsr_csr (c : CsrAddr) (v : Word) : (s.writeCsr c v).csr = sparseSet 0#64 c.toNat (s.legalize c (s.readCsr c) v) s.csr := rfl
@[simp] theorem writeCsr_mem (c : CsrAddr) (v : Word) : (s.writeCsr c v).mem = s.mem := rfl
@[simp] theorem writeCsr_dirty (c : CsrAddr) (v : Word) : (s.writeCsr c v).dirty = s.dirty := rfl
@[simp] theorem writeCsr_params (c : CsrAddr) (v : Word) : (s.writeCsr c v).params = s.params := rfl

@[simp] theorem storeByte_regs (a : Nat) (b : Byte) : (s.storeByte a b).regs = s.regs := rfl
@[simp] theorem storeByte_pc (a : Nat) (b : Byte) : (s.storeByte a b).pc = s.pc := rfl
@[simp] theorem storeByte_csr (a : Nat) (b : Byte) : (s.storeByte a b).csr = s.csr := rfl
@[simp] theorem storeByte_mem (a : Nat) (b : Byte) : (s.storeByte a b).mem = s.mem.writeByte a b := rfl
@[simp] theorem storeByte_dirty (a : Nat) (b : Byte) : (s.storeByte a b).dirty = setInsert a s.dirty := rfl
@[simp] theorem storeByte_params (a : Nat) (b : Byte) : (s.storeByte a b).params = s.params := rfl

@[simp] theorem clearDirty_regs : (s.clearDirty).regs = s.regs := rfl
@[simp] theorem clearDirty_pc : (s.clearDirty).pc = s.pc := rfl
@[simp] theorem clearDirty_csr : (s.clearDirty).csr = s.csr := rfl
@[simp] theorem clearDirty_mem : (s.clearDirty).mem = s.mem := rfl
@[simp] theorem clearDirty_dirty : (s.clearDirty).dirty = [] := rfl
@[simp] theorem clearDirty_params : (s.clearDirty).params = s.params := rfl

@[simp] theorem storeBytes_regs (l : List (Nat × Byte)) : (s.storeBytes l).regs = s.regs := by
  induction l generalizing s with
  | nil => rfl
  | cons e l ih => simp [State.storeBytes, ih]

@[simp] theorem storeValue_regs (a : Word) (n v : Nat) : (s.storeValue a n v).regs = s.regs := by
  simp [State.storeValue]

@[simp] theorem storeBytes_pc (l : List (Nat × Byte)) : (s.storeBytes l).pc = s.pc := by
  induction l generalizing s with
  | nil => rfl
  | cons e l ih => simp [State.storeBytes, ih]

@[simp] theorem storeValue_pc (a : Word) (n v : Nat) : (s.storeValue a n v).pc = s.pc := by
  simp [State.storeValue]

@[simp] theorem storeBytes_csr (l : List (Nat × Byte)) : (s.storeBytes l).csr = s.csr := by
  induction l generalizing s with
  | nil => rfl
  | cons e l ih => simp [State.storeBytes, ih]

@[simp] theorem storeValue_csr (a : Word) (n v : Nat) : (s.storeValue a n v).csr = s.csr := by
  simp [State.storeValue]

@[simp] theorem storeBytes_params (l : List (Nat × Byte)) : (s.storeBytes l).params = s.params := by
  induction l generalizing s with
  | nil => rfl
  | cons e l ih => simp [State.storeBytes, ih]

@[simp] theorem storeValue_params (a : Word) (n v : Nat) : (s.storeValue a n v).params = s.params := by
  simp [State.storeValue]

/-! ### What the accessors read after an update of another field -/

@[simp] theorem readReg_setPc (t : Word) (x : Reg) : (s.setPc t).readReg x = s.readReg x := rfl
@[simp] theorem readReg_advance (x : Reg) : (s.advance).readReg x = s.readReg x := rfl
@[simp] theorem readReg_writeCsr (c : CsrAddr) (v : Word) (x : Reg) : (s.writeCsr c v).readReg x = s.readReg x := rfl
@[simp] theorem readReg_storeByte (a : Nat) (b : Byte) (x : Reg) : (s.storeByte a b).readReg x = s.readReg x := rfl
@[simp] theorem readReg_clearDirty (x : Reg) : (s.clearDirty).readReg x = s.readReg x := rfl
@[simp] theorem readReg_storeBytes (l : List (Nat × Byte)) (x : Reg) : (s.storeBytes l).readReg x = s.readReg x := by
  simp [State.readReg]
@[simp] theorem readReg_storeValue (a : Word) (n v : Nat) (x : Reg) : (s.storeValue a n v).readReg x = s.readReg x := by
  simp [State.readReg]

@[simp] theorem readByte_writeReg (r : Reg) (v : Word) (x : Nat) : (s.writeReg r v).readByte x = s.readByte x := rfl
@[simp] theorem readByte_setPc (t : Word) (x : Nat) : (s.setPc t).readByte x = s.readByte x := rfl
@[simp] theorem readByte_advance (x : Nat) : (s.advance).readByte x = s.readByte x := rfl
@[simp] theorem readByte_writeCsr (c : CsrAddr) (v : Word) (x : Nat) : (s.writeCsr c v).readByte x = s.readByte x := rfl
@[simp] theorem readByte_clearDirty (x : Nat) : (s.clearDirty).readByte x = s.readByte x := rfl

@[simp] theorem readCsr_writeReg (r : Reg) (v : Word) (x : CsrAddr) : (s.writeReg r v).readCsr x = s.readCsr x := rfl
@[simp] theorem readCsr_setPc (t : Word) (x : CsrAddr) : (s.setPc t).readCsr x = s.readCsr x := rfl
@[simp] theorem readCsr_advance (x : CsrAddr) : (s.advance).readCsr x = s.readCsr x := rfl
@[simp] theorem readCsr_storeByte (a : Nat) (b : Byte) (x : CsrAddr) : (s.storeByte a b).readCsr x = s.readCsr x := rfl
@[simp] theorem readCsr_clearDirty (x : CsrAddr) : (s.clearDirty).readCsr x = s.readCsr x := rfl
@[simp] theorem readCsr_storeBytes (l : List (Nat × Byte)) (x : CsrAddr) : (s.storeBytes l).readCsr x = s.readCsr x := by
  simp [State.readCsr]
@[simp] theorem readCsr_storeValue (a : Word) (n v : Nat) (x : CsrAddr) : (s.storeValue a n v).readCsr x = s.readCsr x := by
  simp [State.readCsr]

@[simp] theorem inMemory_writeReg (r : Reg) (v : Word) (x : Word) (k : Nat) : (s.writeReg r v).inMemory x k = s.inMemory x k := rfl
@[simp] theorem inMemory_setPc (t : Word) (x : Word) (k : Nat) : (s.setPc t).inMemory x k = s.inMemory x k := rfl
@[simp] theorem inMemory_advance (x : Word) (k : Nat) : (s.advance).inMemory x k = s.inMemory x k := rfl
@[simp] theorem inMemory_writeCsr (c : CsrAddr) (v : Word) (x : Word) (k : Nat) : (s.writeCsr c v).inMemory x k = s.inMemory x k := rfl
@[simp] theorem inMemory_storeByte (a : Nat) (b : Byte) (x : Word) (k : Nat) : (s.storeByte a b).inMemory x k = s.inMemory x k := rfl
@[simp] theorem inMemory_clearDirty (x : Word) (k : Nat) : (s.clearDirty).inMemory x k = s.inMemory x k := rfl
@[simp] theorem inMemory_storeBytes (l : List (Nat × Byte)) (x : Word) (k : Nat) : (s.storeBytes l).inMemory x k = s.inMemory x k := by
  simp [State.inMemory]
@[simp] theorem inMemory_storeValue (a : Word) (n v : Nat) (x : Word) (k : Nat) : (s.storeValue a n v).inMemory x k = s.inMemory x k := by
  simp [State.inMemory]

@[simp] theorem csrExists_writeReg (r : Reg) (v : Word) (x : CsrAddr) : (s.writeReg r v).csrExists x = s.csrExists x := rfl
@[simp] theorem csrExists_setPc (t : Word) (x : CsrAddr) : (s.setPc t).csrExists x = s.csrExists x := rfl
@[simp] theorem csrExists_advance (x : CsrAddr) : (s.advance).csrExists x = s.csrExists x := rfl
@[simp] theorem csrExists_writeCsr (c : CsrAddr) (v : Word) (x : CsrAddr) : (s.writeCsr c v).csrExists x = s.csrExists x := rfl
@[simp] theorem csrExists_storeByte (a : Nat) (b : Byte) (x : CsrAddr) : (s.storeByte a b).csrExists x = s.csrExists x := rfl
@[simp] theorem csrExists_clearDirty (x : CsrAddr) : (s.clearDirty).csrExists x = s.csrExists x := rfl
@[simp] theorem csrExists_storeBytes (l : List (Nat × Byte)) (x : CsrAddr) : (s.storeBytes l).csrExists x = s.csrExists x := by
  simp [State.csrExists]
@[simp] theorem csrExists_storeValue (a : Word) (n v : Nat) (x : CsrAddr) : (s.storeValue a n v).csrExists x = s.csrExists x := by
  simp [State.csrExists]

@[simp] theorem csrIsReadonly_writeReg (r : Reg) (v : Word) (x : CsrAddr) : (s.writeReg r v).csrIsReadonly x = s.csrIsReadonly x := rfl
@[simp] theorem csrIsReadonly_setPc (t : Word) (x : CsrAddr) : (s.setPc t).csrIsReadonly x = s.csrIsReadonly x := rfl
@[simp] theorem csrIsReadonly_advance (x : CsrAddr) : (s.advance).csrIsReadonly x = s.csrIsReadonly x := rfl
@[simp] theorem csrIsReadonly_writeCsr (c : CsrAddr) (v : Word) (x : CsrAddr) : (s.writeCsr c v).csrIsReadonly x = s.csrIsReadonly x := rfl
@[simp] theorem csrIsReadonly_storeByte (a : Nat) (b : Byte) (x : CsrAddr) : (s.storeByte a b).csrIsReadonly x = s.csrIsReadonly x := rfl
@[simp] theorem csrIsReadonly_clearDirty (x : CsrAddr) : (s.clearDirty).csrIsReadonly x = s.csrIsReadonly x := rfl
@[simp] theorem csrIsReadonly_storeBytes (l : List (Nat × Byte)) (x : CsrAddr) : (s.storeBytes l).csrIsReadonly x = s.csrIsReadonly x := by
  simp [State.csrIsReadonly]
@[simp] theorem csrIsReadonly_storeValue (a : Word) (n v : Nat) (x : CsrAddr) : (s.storeValue a n v).csrIsReadonly x = s.csrIsReadonly x := by
  simp [State.csrIsReadonly]

@[simp] theorem accessCheck_writeReg (r : Reg) (v : Word) (q : AccessKind) (x : Word) (k : Nat) : (s.writeReg r v).accessCheck q x k = s.accessCheck q x k := rfl
@[simp] theorem accessCheck_setPc (t : Word) (q : AccessKind) (x : Word) (k : Nat) : (s.setPc t).accessCheck q x k = s.accessCheck q x k := rfl
@[simp] theorem accessCheck_advance (q : AccessKind) (x : Word) (k : Nat) : (s.advance).accessCheck q x k = s.accessCheck q x k := rfl
@[simp] theorem accessCheck_writeCsr (c : CsrAddr) (v : Word) (q : AccessKind) (x : Word) (k : Nat) : (s.writeCsr c v).accessCheck q x k = s.accessCheck q x k := rfl
@[simp] theorem accessCheck_storeByte (a : Nat) (b : Byte) (q : AccessKind) (x : Word) (k : Nat) : (s.storeByte a b).accessCheck q x k = s.accessCheck q x k := rfl
@[simp] theorem accessCheck_clearDirty (q : AccessKind) (x : Word) (k : Nat) : (s.clearDirty).accessCheck q x k = s.accessCheck q x k := rfl
@[simp] theorem accessCheck_storeBytes (l : List (Nat × Byte)) (q : AccessKind) (x : Word) (k : Nat) : (s.storeBytes l).accessCheck q x k = s.accessCheck q x k := by
  simp [State.accessCheck, State.inMemory]
@[simp] theorem accessCheck_storeValue (a : Word) (n v : Nat) (q : AccessKind) (x : Word) (k : Nat) : (s.storeValue a n v).accessCheck q x k = s.accessCheck q x k := by
  simp [State.accessCheck, State.inMemory]

end Sys2Proof.Machine
end

