-- ==== Sys2Proof/Laws/Ops.lean ====
section
/-! SUPPORT. What each shared operation can do: canonical lists, registers, CSRs, memory, and, once for each shape
of an instruction's effect, its outcomes. -/

namespace Sys2Proof.Machine

/-! ### Canonical lists -/

section Sparse
variable {α : Type} {d : α}

theorem sparseGet_eq_default {m : List (Nat × α)} {a : Nat} (h : ∀ e ∈ m, e.1 ≠ a) :
    sparseGet d m a = d := by
  induction m with
  | nil => rfl
  | cons e m ih =>
    have he : e.1 ≠ a := h e (by simp)
    simp [sparseGet, he, ih (fun f hf => h f (by simp [hf]))]

theorem sparseGet_sparseSet_ne [DecidableEq α] (m : List (Nat × α)) {a b : Nat} (v : α) (h : b ≠ a) :
    sparseGet d (sparseSet d a v m) b = sparseGet d m b := by
  induction m with
  | nil => unfold sparseSet; split <;> simp [sparseGet, h.symm]
  | cons e m ih =>
    unfold sparseSet
    split
    · split <;> simp [sparseGet, h.symm]
    · split
      · rename_i h2
        subst h2
        split <;> simp [sparseGet, h.symm]
      · simp [sparseGet, ih]

theorem sparseGet_sparseSet_self [DecidableEq α] {m : List (Nat × α)} (hm : sparseWf d m) (a : Nat) (v : α) :
    sparseGet d (sparseSet d a v m) a = v := by
  induction m with
  | nil => unfold sparseSet; split <;> simp_all [sparseGet]
  | cons e m ih =>
    obtain ⟨hp, hd⟩ := hm
    rw [List.pairwise_cons] at hp
    have htail : sparseWf d m := ⟨hp.2, fun f hf => hd f (by simp [hf])⟩
    unfold sparseSet
    split
    · rename_i h1
      split
      · rename_i h2
        rw [h2]
        apply sparseGet_eq_default
        intro f hf
        rcases List.mem_cons.1 hf with rfl | hf
        · simp at h1 ⊢; omega
        · have := hp.1 f hf; simp at h1 ⊢; omega
      · simp [sparseGet]
    · split
      · rename_i h2
        split
        · rename_i h3
          rw [h3]
          apply sparseGet_eq_default
          intro f hf
          have := hp.1 f hf
          simp at h2 ⊢; omega
        · simp [sparseGet]
      · rename_i h1 h2
        have : e.1 ≠ a := fun h => h2 h.symm
        simp [sparseGet, this, ih htail]

theorem mem_sparseSet [DecidableEq α] {m : List (Nat × α)} {a : Nat} {v : α} {e : Nat × α}
    (h : e ∈ sparseSet d a v m) : e = (a, v) ∨ e ∈ m := by
  induction m with
  | nil => unfold sparseSet at h; split at h <;> simp_all
  | cons f m ih =>
    unfold sparseSet at h
    split at h
    · split at h
      · exact .inr h
      · simpa using h
    · split at h
      · split at h
        · exact .inr (by simp [h])
        · rcases List.mem_cons.1 h with h | h
          · exact .inl h
          · exact .inr (by simp [h])
      · rcases List.mem_cons.1 h with h | h
        · exact .inr (by simp [h])
        · rcases ih h with h | h
          · exact .inl h
          · exact .inr (by simp [h])

theorem sparseSet_wf [DecidableEq α] {m : List (Nat × α)} (hm : sparseWf d m) (a : Nat) (v : α) :
    sparseWf d (sparseSet d a v m) := by
  induction m with
  | nil => unfold sparseSet; split <;> simp_all [sparseWf]
  | cons e m ih =>
    obtain ⟨hp, hd⟩ := hm
    have hc := List.pairwise_cons.1 hp
    have htail : sparseWf d m := ⟨hc.2, fun f hf => hd f (by simp [hf])⟩
    unfold sparseSet
    split
    · rename_i h1
      split
      · exact ⟨hp, hd⟩
      · rename_i h2
        refine ⟨List.pairwise_cons.2 ⟨?_, hp⟩, ?_⟩
        · intro f hf
          rcases List.mem_cons.1 hf with rfl | hf
          · exact h1
          · exact Nat.lt_trans h1 (hc.1 f hf)
        · intro f hf
          rcases List.mem_cons.1 hf with rfl | hf
          · exact h2
          · exact hd f hf
    · split
      · rename_i h2
        split
        · exact htail
        · rename_i h3
          subst h2
          refine ⟨List.pairwise_cons.2 ⟨hc.1, hc.2⟩, ?_⟩
          intro f hf
          rcases List.mem_cons.1 hf with rfl | hf
          · exact h3
          · exact hd f (by simp [hf])
      · rename_i h1 h2
        have hr := ih htail
        refine ⟨List.pairwise_cons.2 ⟨?_, hr.1⟩, ?_⟩
        · intro f hf
          rcases mem_sparseSet hf with hf | hf
          · rw [hf]
            exact Nat.lt_of_le_of_ne (Nat.le_of_not_lt h1) (fun h => h2 h.symm)
          · exact hc.1 f hf
        · intro f hf
          rcases List.mem_cons.1 hf with rfl | hf
          · exact hd _ List.mem_cons_self
          · exact hr.2 f hf

end Sparse

theorem mem_setInsert {a b : Nat} {l : List Nat} : b ∈ setInsert a l ↔ b = a ∨ b ∈ l := by
  induction l with
  | nil => simp [setInsert]
  | cons c l ih =>
    unfold setInsert
    split
    · simp
    · split
      · rename_i h
        subst h
        simp
      · simp only [List.mem_cons, ih]
        tauto

theorem setInsert_wf {a : Nat} {l : List Nat} (h : setWf l) : setWf (setInsert a l) := by
  induction l with
  | nil => simp [setInsert, setWf]
  | cons c l ih =>
    have hc := List.pairwise_cons.1 h
    unfold setInsert
    split
    · rename_i h1
      refine List.pairwise_cons.2 ⟨?_, h⟩
      intro b hb
      rcases List.mem_cons.1 hb with rfl | hb
      · exact h1
      · exact Nat.lt_trans h1 (hc.1 b hb)
    · split
      · exact h
      · rename_i h1 h2
        refine List.pairwise_cons.2 ⟨?_, ih hc.2⟩
        intro b hb
        rcases mem_setInsert.1 hb with rfl | hb
        · omega
        · exact hc.1 b hb

/-! ### General registers -/

variable (s : State)

@[simp] theorem readReg_zero : s.readReg 0#5 = 0#64 := rfl

theorem readReg_writeReg (r q : Reg) (v : Word) :
    (s.writeReg r v).readReg q = if q = r ∧ r ≠ 0#5 then v else s.readReg q := by
  by_cases hq : q = 0#5
  · subst hq
    by_cases h : 0#5 = r
    · subst h; simp
    · simp [State.readReg, h]
  · by_cases hr : r = 0#5
    · subst hr
      simp [State.readReg, State.writeReg]
    · by_cases h : q = r
      · subst h
        simp [State.readReg, State.writeReg, hq, Vector.get_eq_getElem]
      · have hn : r.toNat ≠ q.toNat := fun hh => h (BitVec.eq_of_toNat_eq hh.symm)
        simp [State.readReg, State.writeReg, hq, hr, h, Vector.get_eq_getElem, hn]

@[simp] theorem readReg_writeReg_self {r : Reg} (h : r ≠ 0#5) (v : Word) :
    (s.writeReg r v).readReg r = v := by
  simp [readReg_writeReg, h]

@[simp] theorem readReg_writeReg_ne {r q : Reg} (h : q ≠ r) (v : Word) :
    (s.writeReg r v).readReg q = s.readReg q := by
  simp [readReg_writeReg, h]

/-- A write to register 0 is discarded (10_state.md R11). -/
@[simp] theorem writeReg_zero (v : Word) : s.writeReg 0#5 v = s := by
  simp [State.writeReg]

/-! ### Control and status registers -/

theorem readCsr_writeCsr_ne {c e : CsrAddr} (h : e ≠ c) (v : Word) :
    (s.writeCsr c v).readCsr e = s.readCsr e := by
  have hn : e.toNat ≠ c.toNat := fun hh => h (BitVec.eq_of_toNat_eq hh)
  simp [State.readCsr, sparseGet_sparseSet_ne _ _ hn]

theorem readCsr_writeCsr_self (h : sparseWf 0#64 s.csr) (c : CsrAddr) (v : Word) :
    (s.writeCsr c v).readCsr c = s.legalize c (s.readCsr c) v := by
  exact sparseGet_sparseSet_self h _ _

/-- Writing a CSR keeps the CSR file canonical. -/
theorem writeCsr_csr_wf (h : sparseWf 0#64 s.csr) (c : CsrAddr) (v : Word) :
    sparseWf 0#64 (s.writeCsr c v).csr :=
  sparseSet_wf h _ _

/-! ### Memory -/

theorem Memory.readByte_writeByte_ne (m : Memory) {a b : Nat} (v : Byte) (h : b ≠ a) :
    (m.writeByte a v).readByte b = m.readByte b :=
  sparseGet_sparseSet_ne m v h

theorem Memory.readByte_writeByte_self {m : Memory} (h : m.wf) (a : Nat) (v : Byte) :
    (m.writeByte a v).readByte a = v :=
  sparseGet_sparseSet_self h a v

theorem Memory.writeByte_wf {m : Memory} (h : m.wf) (a : Nat) (v : Byte) : (m.writeByte a v).wf :=
  sparseSet_wf h a v

theorem storeBytes_append (l k : List (Nat × Byte)) :
    s.storeBytes (l ++ k) = (s.storeBytes l).storeBytes k := by
  induction l generalizing s with
  | nil => rfl
  | cons e l ih => simp [State.storeBytes, ih]

theorem readByte_storeBytes_of_not_mem (l : List (Nat × Byte)) {x : Nat} (h : x ∉ l.map Prod.fst) :
    (s.storeBytes l).readByte x = s.readByte x := by
  induction l generalizing s with
  | nil => rfl
  | cons e l ih =>
    simp only [List.map_cons, List.mem_cons, not_or] at h
    rw [State.storeBytes, ih _ h.2]
    exact Memory.readByte_writeByte_ne _ _ h.1

theorem mem_wf_storeBytes (h : s.mem.wf) (l : List (Nat × Byte)) : (s.storeBytes l).mem.wf := by
  induction l generalizing s with
  | nil => exact h
  | cons e l ih => exact ih _ (Memory.writeByte_wf h _ _)

theorem dirty_wf_storeBytes (h : setWf s.dirty) (l : List (Nat × Byte)) : setWf (s.storeBytes l).dirty := by
  induction l generalizing s with
  | nil => exact h
  | cons e l ih => exact ih _ (setInsert_wf h)

theorem mem_dirty_storeBytes (l : List (Nat × Byte)) (x : Nat) :
    x ∈ (s.storeBytes l).dirty ↔ x ∈ l.map Prod.fst ∨ x ∈ s.dirty := by
  induction l generalizing s with
  | nil => simp [State.storeBytes]
  | cons e l ih =>
    simp only [State.storeBytes, ih, storeByte_dirty, mem_setInsert, List.map_cons, List.mem_cons]
    tauto

theorem mem_mem_storeBytes (l : List (Nat × Byte)) {e : Host.Cell} (h : e ∈ (s.storeBytes l).mem) :
    e.1 ∈ l.map Prod.fst ∨ e ∈ s.mem := by
  induction l generalizing s with
  | nil => exact .inr h
  | cons f l ih =>
    rcases ih _ h with h | h
    · exact .inl (by simp at h ⊢; tauto)
    · rcases mem_sparseSet h with rfl | h
      · exact .inl (by simp)
      · exact .inr h

@[simp] theorem length_accessBytes (a : Word) (n : Nat) : (accessBytes a n).length = n := by
  simp [accessBytes]

theorem accessBytes_lt {a : Word} {n x : Nat} (h : x ∈ accessBytes a n) : x < 2 ^ 64 := by
  simp only [accessBytes, List.mem_map] at h
  obtain ⟨i, -, rfl⟩ := h
  exact BitVec.isLt _

@[simp] theorem length_bytesOfValue (n v : Nat) : (bytesOfValue n v).length = n := by
  induction n generalizing v with
  | zero => rfl
  | succ n ih => simp [bytesOfValue, ih]

@[simp] theorem length_arrangeBytes (o : ByteOrder) (bs : List Byte) :
    (arrangeBytes o bs).length = bs.length := by
  cases o <;> simp [arrangeBytes]

/-- The value of the low `n` bytes of a value is the value modulo `2^(8n)` (20_memory.md R30). -/
theorem valueOfBytes_bytesOfValue (n v : Nat) : valueOfBytes (bytesOfValue n v) = v % 256 ^ n := by
  induction n generalizing v with
  | zero => simp [bytesOfValue, valueOfBytes, Nat.mod_one]
  | succ n ih =>
    rw [bytesOfValue, valueOfBytes, ih, Nat.pow_succ', Nat.mod_mul]
    simp

theorem valueOfBytes_lt (bs : List Byte) : valueOfBytes bs < 256 ^ bs.length := by
  induction bs with
  | nil => simp [valueOfBytes]
  | cons b bs ih =>
    have hb := b.isLt
    simp only [valueOfBytes, List.length_cons, Nat.pow_succ']
    omega

theorem storeValue_eq (a : Word) (n v : Nat) :
    s.storeValue a n v =
      s.storeBytes ((accessBytes a n).zip (arrangeBytes s.params.byteOrder (bytesOfValue n v))) := rfl

theorem map_fst_storeValue (a : Word) (n v : Nat) (o : ByteOrder) :
    ((accessBytes a n).zip (arrangeBytes o (bytesOfValue n v))).map Prod.fst = accessBytes a n := by
  rw [List.map_fst_zip]; simp

/-- A store leaves every byte outside its `n` bytes alone (20_memory.md R37). -/
theorem readByte_storeValue_of_not_mem (a : Word) (n v : Nat) {x : Nat} (h : x ∉ accessBytes a n) :
    (s.storeValue a n v).readByte x = s.readByte x := by
  rw [storeValue_eq]
  apply readByte_storeBytes_of_not_mem
  rwa [map_fst_storeValue]

/-- A store keeps memory canonical. -/
theorem mem_wf_storeValue (h : s.mem.wf) (a : Word) (n v : Nat) : (s.storeValue a n v).mem.wf :=
  mem_wf_storeBytes s h _

theorem dirty_wf_storeValue (h : setWf s.dirty) (a : Word) (n v : Nat) : setWf (s.storeValue a n v).dirty :=
  dirty_wf_storeBytes s h _

/-- A store adds exactly its `n` addresses to `dirty` (20_memory.md R43). -/
theorem mem_dirty_storeValue (a : Word) (n v x : Nat) :
    x ∈ (s.storeValue a n v).dirty ↔ x ∈ accessBytes a n ∨ x ∈ s.dirty := by
  rw [storeValue_eq, mem_dirty_storeBytes, map_fst_storeValue]

theorem mem_mem_storeValue (a : Word) (n v : Nat) {e : Host.Cell} (h : e ∈ (s.storeValue a n v).mem) :
    e.1 ∈ accessBytes a n ∨ e ∈ s.mem := by
  rw [storeValue_eq] at h
  simpa only [map_fst_storeValue] using mem_mem_storeBytes s _ h

/-! ### Outcomes: what each shape of an effect can answer -/

variable {s} {t : State} {f : Fault} {q : Refusal}

@[simp] theorem raise_ne_next (c : Cause) (v : Word) : raise c v s ≠ .next t := by simp [raise]
@[simp] theorem raise_ne_refused (c : Cause) (v : Word) : raise c v s ≠ .refused q := by simp [raise]
@[simp] theorem raise_eq_fault (c : Cause) (v : Word) : raise c v s = .fault f ↔ f = .trapped c s.pc v := by
  simp [raise, eq_comm]
@[simp] theorem refuse_ne_next (r : Refusal) : refuse r ≠ .next t := by simp [refuse]
@[simp] theorem refuse_ne_fault (r : Refusal) : refuse r ≠ .fault f := by simp [refuse]

theorem writeAndAdvance_eq_next {rd : Reg} {v : Word} :
    s.writeAndAdvance rd v = .next t ↔ t = (s.writeReg rd v).advance := by
  simp [State.writeAndAdvance, eq_comm]

@[simp] theorem writeAndAdvance_ne_fault {rd : Reg} {v : Word} : s.writeAndAdvance rd v ≠ .fault f := by
  simp [State.writeAndAdvance]

@[simp] theorem writeAndAdvance_ne_refused {rd : Reg} {v : Word} : s.writeAndAdvance rd v ≠ .refused q := by
  simp [State.writeAndAdvance]

theorem jumpAndLink_eq_next {rd : Reg} {a : Word} :
    s.jumpAndLink rd a = .next t ↔
      isInstrAligned a = true ∧ t = (s.writeReg rd (s.pc + 4#64)).setPc a := by
  unfold State.jumpAndLink
  split <;> simp_all [@eq_comm _ t]

theorem jumpAndLink_eq_fault {rd : Reg} {a : Word} :
    s.jumpAndLink rd a = .fault f ↔
      isInstrAligned a = false ∧ f = .trapped .instructionAddressMisaligned s.pc a := by
  unfold State.jumpAndLink
  split <;> simp_all

@[simp] theorem jumpAndLink_ne_refused {rd : Reg} {a : Word} : s.jumpAndLink rd a ≠ .refused q := by
  unfold State.jumpAndLink
  split <;> simp

theorem branchTo_eq_next {taken : Bool} {a : Word} :
    s.branchTo taken a = .next t ↔
      (taken = true ∧ isInstrAligned a = true ∧ t = s.setPc a) ∨ (taken = false ∧ t = s.advance) := by
  unfold State.branchTo
  split
  · split <;> simp_all [@eq_comm _ t]
  · simp_all [@eq_comm _ t]

theorem branchTo_eq_fault {taken : Bool} {a : Word} :
    s.branchTo taken a = .fault f ↔
      taken = true ∧ isInstrAligned a = false ∧ f = .trapped .instructionAddressMisaligned s.pc a := by
  unfold State.branchTo
  split
  · split <;> simp_all
  · simp_all

@[simp] theorem branchTo_ne_refused {taken : Bool} {a : Word} : s.branchTo taken a ≠ .refused q := by
  unfold State.branchTo
  split
  · split <;> simp
  · simp

theorem load_eq_next {n : Nat} {ext : Nat → Word} {rd : Reg} {a : Word} :
    s.load n ext rd a = .next t ↔
      s.accessCheck .load a n = none ∧ t = (s.writeReg rd (ext (s.memValue a n))).advance := by
  unfold State.load
  split <;> simp_all [writeAndAdvance_eq_next]

theorem load_eq_fault {n : Nat} {ext : Nat → Word} {rd : Reg} {a : Word} :
    s.load n ext rd a = .fault f ↔ ∃ c, s.accessCheck .load a n = some c ∧ f = .trapped c s.pc a := by
  unfold State.load
  split <;> simp_all

@[simp] theorem load_ne_refused {n : Nat} {ext : Nat → Word} {rd : Reg} {a : Word} :
    s.load n ext rd a ≠ .refused q := by
  unfold State.load
  split <;> simp

theorem store_eq_next {n : Nat} {a v : Word} :
    s.store n a v = .next t ↔
      s.accessCheck .store a n = none ∧ t = (s.storeValue a n v.toNat).advance := by
  unfold State.store
  split <;> simp_all [@eq_comm _ t]

theorem store_eq_fault {n : Nat} {a v : Word} :
    s.store n a v = .fault f ↔ ∃ c, s.accessCheck .store a n = some c ∧ f = .trapped c s.pc a := by
  unfold State.store
  split <;> simp_all

@[simp] theorem store_ne_refused {n : Nat} {a v : Word} : s.store n a v ≠ .refused q := by
  unfold State.store
  split <;> simp

theorem accessCsr_eq_next {w : InstrWord} {rd : Reg} {c : CsrAddr} {writes : Bool} {new : Word → Word} :
    s.accessCsr w rd c writes new = .next t ↔
      s.csrExists c = true ∧
        ((writes = true ∧ s.csrIsReadonly c = false ∧
            t = ((s.writeCsr c (new (s.readCsr c))).writeReg rd (s.readCsr c)).advance) ∨
          (writes = false ∧ t = (s.writeReg rd (s.readCsr c)).advance)) := by
  unfold State.accessCsr
  cases writes <;> cases s.csrExists c <;> cases s.csrIsReadonly c <;> simp [writeAndAdvance_eq_next]

theorem accessCsr_eq_fault {w : InstrWord} {rd : Reg} {c : CsrAddr} {writes : Bool} {new : Word → Word} :
    s.accessCsr w rd c writes new = .fault f ↔
      (s.csrExists c = false ∨ (writes = true ∧ s.csrIsReadonly c = true)) ∧
        f = .trapped .illegalInstruction s.pc (zeroExtend64 w) := by
  unfold State.accessCsr
  cases writes <;> cases s.csrExists c <;> cases s.csrIsReadonly c <;> simp

@[simp] theorem accessCsr_ne_refused {w : InstrWord} {rd : Reg} {c : CsrAddr} {writes : Bool}
    {new : Word → Word} : s.accessCsr w rd c writes new ≠ .refused q := by
  unfold State.accessCsr
  cases writes <;> cases s.csrExists c <;> cases s.csrIsReadonly c <;> simp

theorem accessCheck_eq_none {k : AccessKind} {a : Word} {n : Nat} :
    s.accessCheck k a n = none ↔
      (s.params.misalignedData = .trap → a.toNat % n = 0) ∧ s.inMemory a n = true := by
  unfold State.accessCheck
  split
  · simp_all
  · split <;> simp_all

theorem inMemory_eq_true {a : Word} {n : Nat} :
    s.inMemory a n = true ↔ ∀ x ∈ accessBytes a n, isMemory s.params x = true := by
  simp [State.inMemory]

theorem fetch_eq_word {w : InstrWord} :
    s.fetch = .word w ↔
      isInstrAligned s.pc = true ∧ s.inMemory s.pc 4 = true ∧ s.staleAtPc = false ∧ w = s.wordAtPc := by
  unfold State.fetch
  split
  · split
    · split <;> simp_all [@eq_comm _ w]
    · simp_all
  · simp_all

/-- A step that completes fetched a word, decoded it and executed the instruction (10_state.md R23). -/
theorem step_eq_next :
    step s = .next t ↔
      ∃ w i, s.fetch = .word w ∧ decode s.params w = .instr i ∧ exec i s = .next t := by
  unfold step
  cases s.fetch with
  | trap c => simp
  | stale => simp
  | word w =>
    cases h : decode s.params w with
    | instr i => simp [h]
    | illegal w => simp [h]

end Sys2Proof.Machine
end

