-- ==== Sys2Proof/Laws/Claims.lean ====
section
/-! SUPPORT. From each shape of an instruction's effect to the terms of the claims: one lemma per shape, the
one case split over all instructions, and the one induction over the states of a run. -/

namespace Sys2Proof.Machine

theorem nextPc_eq (s : State) : s.nextPc = s.pc + 4#64 := by
  apply BitVec.eq_of_toNat_eq
  simp [State.nextPc, BitVec.toNat_add]

theorem regsWritten_writeReg (s : State) (rd : Reg) (v : Word) : RegsWritten s (s.writeReg rd v) rd v := by
  intro q
  rw [readReg_writeReg]
  by_cases h : q = 0#5
  · subst h
    by_cases h2 : 0#5 = rd
    · subst h2; simp
    · simp [h2]
  · by_cases h2 : q = rd
    · subst h2; simp [h]
    · simp [h, h2]

/-! ### Addresses and values -/

theorem byteAddr_eq (a : Word) (i : Nat) : (a + BitVec.ofNat 64 i).toNat = byteAddr a i := by
  simp [byteAddr, BitVec.toNat_add]

theorem accessBytes_eq (a : Word) (n : Nat) : accessBytes a n = (List.range n).map (byteAddr a) := by
  simp only [accessBytes, byteAddr_eq]

theorem byteAddr_inj {a : Word} {n i j : Nat} (hn : n ≤ 8) (hi : i < n) (hj : j < n)
    (h : byteAddr a i = byteAddr a j) : i = j := by
  unfold byteAddr at h
  have := a.isLt
  omega

theorem inMemory_iff (s : State) (a : Word) (n : Nat) : s.inMemory a n = true ↔ s.existsAt a n := by
  rw [inMemory_eq_true, accessBytes_eq]
  simp [State.existsAt]

theorem accessCheck_eq_none_iff (s : State) (k : AccessKind) (a : Word) (n : Nat) :
    s.accessCheck k a n = none ↔ ¬ s.misalignedAt a n ∧ s.existsAt a n := by
  rw [accessCheck_eq_none, inMemory_iff]
  simp [State.misalignedAt]

theorem accessCheck_of_misaligned {s : State} {a : Word} {n : Nat} (k : AccessKind) (h : s.misalignedAt a n) :
    s.accessCheck k a n = some k.misaligned := by
  unfold State.misalignedAt at h
  simp [State.accessCheck, h.1, h.2]

theorem accessCheck_of_outside {s : State} {a : Word} {n : Nat} (k : AccessKind) (h : ¬ s.misalignedAt a n)
    (h2 : ¬ s.existsAt a n) : s.accessCheck k a n = some k.accessFault := by
  unfold State.misalignedAt at h
  rw [← inMemory_iff] at h2
  simp only [State.accessCheck]
  rw [if_neg h, if_neg h2]

theorem valueOfBytes_eq_sum (bs : List Byte) :
    valueOfBytes bs = ((List.range bs.length).map fun i => (bs.getD i 0).toNat * 256 ^ i).sum := by
  induction bs with
  | nil => rfl
  | cons b bs ih =>
    simp [valueOfBytes, ih, List.range_succ_eq_map, List.map_map, Function.comp_def, pow_succ,
      ← List.sum_map_mul_left]
    congr 1
    apply List.map_congr_left
    intro i _
    ring

/-- What `MemRead` returns, as a sum over the bytes (20_memory.md R30). -/
theorem memValue_eq_valueAt (s : State) (a : Word) (n : Nat) : s.memValue a n = s.valueAt a n := by
  unfold State.memValue State.valueAt
  rw [valueOfBytes_eq_sum]
  cases h : s.params.byteOrder with
  | little =>
    simp only [arrangeBytes, accessBytes_eq, byteLane, List.length_map, List.length_range]
    apply congrArg
    apply List.map_congr_left
    intro i hi
    simp at hi
    simp [hi]
  | big =>
    simp only [arrangeBytes, accessBytes_eq, byteLane, List.length_map, List.length_range,
      List.length_reverse]
    rw [← List.sum_reverse]
    apply congrArg
    apply List.ext_getElem
    · simp
    · intro i h1 h2
      simp at h1 h2
      simp [List.getElem_reverse]
      have : n - 1 - (n - 1 - i) = i := by omega
      have h3 : n - 1 - i < n := by omega
      simp [h3, this]

/-- Byte `i` of a value (20_memory.md R30). -/
theorem getElem_bytesOfValue (n v i : Nat) (h : i < n) :
    (bytesOfValue n v)[i]'(by simpa using h) = BitVec.ofNat 8 (v / 256 ^ i) := by
  induction n generalizing v i with
  | zero => omega
  | succ n ih =>
    cases i with
    | zero => simp [bytesOfValue]
    | succ i =>
      simp only [bytesOfValue, List.getElem_cons_succ]
      rw [ih _ _ (by omega), Nat.div_div_eq_div_mul, pow_succ, Nat.mul_comm]

theorem readByte_storeBytes_of_mem (s : State) (hw : s.mem.wf) (l : List (Nat × Byte))
    (hn : (l.map Prod.fst).Nodup) {x : Nat} {b : Byte} (h : (x, b) ∈ l) : (s.storeBytes l).readByte x = b := by
  induction l generalizing s with
  | nil => simp at h
  | cons e l ih =>
    simp only [List.map_cons, List.nodup_cons] at hn
    rw [State.storeBytes]
    rcases List.mem_cons.1 h with h | h
    · subst h
      rw [readByte_storeBytes_of_not_mem _ _ hn.1]
      exact Memory.readByte_writeByte_self hw _ _
    · exact ih _ (Memory.writeByte_wf hw _ _) hn.2 h

/-! ### One lemma per shape -/

theorem completes_of_writeAndAdvance {i : Instr} {s : State} {rd : Reg} {v v' : Word}
    (h : exec i s = s.writeAndAdvance rd v') (hv : v' = v) : Completes i s rd v := by
  subst hv
  refine ⟨_, h, regsWritten_writeReg s rd v', ?_, fun c => rfl, fun a => rfl, rfl, rfl⟩
  simp [nextPc_eq]

theorem jumpMeaning_of_jumpAndLink {i : Instr} {s : State} {rd : Reg} {a a' : Word}
    (h : exec i s = s.jumpAndLink rd a') (ha : a' = a) : JumpMeaning i s rd a := by
  subst ha
  constructor
  · intro hal
    refine ⟨(s.writeReg rd (s.pc + 4#64)).setPc a', ?_, ?_, rfl, fun c => rfl, fun x => rfl, rfl, rfl⟩
    · rw [h]; simp [State.jumpAndLink, isInstrAligned, hal]
    · rw [nextPc_eq]; exact regsWritten_writeReg s rd _
  · intro hal
    rw [h]
    simp [State.jumpAndLink, isInstrAligned, hal]

/-- A target, `pc + offset`, as an integer sum modulo 2^64 (20_memory.md R46). -/
theorem relativeTarget_eq {w : Nat} (s : State) (offset : BitVec w) (hw : w ≤ 64) :
    s.relativeTarget offset = BitVec.ofInt 64 (s.pc.toNat + offset.toInt) := by
  apply BitVec.eq_of_toInt_eq
  rw [State.relativeTarget, signExtend64, BitVec.toInt_add, BitVec.toInt_signExtend_of_le hw,
    BitVec.toInt_ofInt, BitVec.toInt_eq_toNat_bmod s.pc]
  simp

/-- An effective address, `x[rs1] + imm`, likewise. -/
theorem effectiveAddress_eq (s : State) (rs1 : Reg) (imm : BitVec 12) :
    s.effectiveAddress rs1 imm = BitVec.ofInt 64 ((s.readReg rs1).toNat + imm.toInt) := by
  apply BitVec.eq_of_toInt_eq
  rw [State.effectiveAddress, BitVec.toInt_add, signExtend64, BitVec.toInt_signExtend_of_le (by omega),
    BitVec.toInt_ofInt, BitVec.toInt_eq_toNat_bmod (s.readReg rs1)]
  simp

theorem branchMeaning_of_branchTo {i : Instr} {s : State} {taken : Bool} {cond : Prop} {offset : BitVec 13}
    (h : exec i s = s.branchTo taken (s.relativeTarget offset)) (hc : taken = true ↔ cond) :
    BranchMeaning i s cond offset := by
  unfold BranchMeaning
  rw [← relativeTarget_eq s offset (by omega)]
  refine ⟨fun hn => ?_, fun hn ha => ?_, fun hn ha => ?_⟩
  · have ht : taken = false := by cases taken <;> simp_all
    refine ⟨s.advance, by rw [h]; simp [State.branchTo, ht], ?_⟩
    constructor <;> first | rfl | (intro _; rfl)
  · refine ⟨s.setPc (s.relativeTarget offset), ?_, ?_⟩
    · rw [h]; simp [State.branchTo, hc.2 hn, isInstrAligned, ha]
    · constructor <;> first | rfl | (intro _; rfl)
  · rw [h]
    simp [State.branchTo, hc.2 hn, isInstrAligned, ha]

theorem loadMeaning_of_load {i : Instr} {s : State} {rd : Reg} {a : Word} {n : Nat} {ext : Nat → Word} {v : Word}
    (h : exec i s = s.load n ext rd a) (hv : ext (s.valueAt a n) = v) : LoadMeaning i s rd a n v := by
  refine ⟨fun h1 h2 => ?_, fun h1 => ?_, fun h1 h2 => ?_⟩
  · apply completes_of_writeAndAdvance (v' := ext (s.memValue a n))
    · rw [h, State.load, (accessCheck_eq_none_iff s .load a n).2 ⟨h1, h2⟩]
    · rw [memValue_eq_valueAt, hv]
  · rw [h, State.load, accessCheck_of_misaligned .load h1]; rfl
  · rw [h, State.load, accessCheck_of_outside .load h1 h2]; rfl

theorem stored_storeValue (s : State) (a : Word) (n : Nat) (v : Word) (hn : n ≤ 8) :
    Stored s (s.storeValue a n v.toNat).advance a n v := by
  constructor
  · intro hw i hi
    show (s.storeValue a n v.toNat).readByte _ = _
    rw [storeValue_eq]
    apply readByte_storeBytes_of_mem _ hw
    · rw [map_fst_storeValue, accessBytes_eq]
      apply List.Nodup.map_on
      · intro x hx y hy h
        simp at hx hy
        exact byteAddr_inj hn hx hy h
      · exact List.nodup_range
    · rw [List.mem_iff_getElem]
      refine ⟨i, by simpa using hi, ?_⟩
      simp only [List.getElem_zip, accessBytes_eq, List.getElem_map, List.getElem_range]
      congr 1
      cases h : s.params.byteOrder with
      | little => simp only [arrangeBytes, byteLane]; exact getElem_bytesOfValue n _ i hi
      | big =>
        simp only [arrangeBytes, byteLane, List.getElem_reverse, length_bytesOfValue]
        exact getElem_bytesOfValue n _ _ (by omega)
  · intro x hx
    apply readByte_storeValue_of_not_mem
    rw [accessBytes_eq]
    simp
    intro i hi h
    exact hx i hi h.symm
  · intro x
    show x ∈ (s.storeValue a n v.toNat).dirty ↔ _
    rw [mem_dirty_storeValue, accessBytes_eq]
    simp [or_comm, @eq_comm _ x]
  · intro q; simp [State.readReg, State.advance, State.setPc]
  · intro c; simp [State.readCsr]
  · simp [nextPc_eq]
  · simp

theorem storeMeaning_of_store {i : Instr} {s : State} {a : Word} {n : Nat} {v : Word} (hn : n ≤ 8)
    (h : exec i s = s.store n a v) : StoreMeaning i s a n v := by
  refine ⟨fun h1 h2 => ?_, fun h1 => ?_, fun h1 h2 => ?_⟩
  · refine ⟨_, ?_, stored_storeValue s a n v hn⟩
    rw [h, State.store, (accessCheck_eq_none_iff s .store a n).2 ⟨h1, h2⟩]
  · rw [h, State.store, accessCheck_of_misaligned .store h1]; rfl
  · rw [h, State.store, accessCheck_of_outside .store h1 h2]; rfl

/-- A CSR instruction whose own word is `w₀`. -/
theorem csrMeaning_of_accessCsr {i : Instr} {s : State} {rd : Reg} {c : CsrAddr} {wr : Bool} {writes : Prop}
    {new : Word → Word} {v : Word} {w₀ : InstrWord} (h : exec i s = s.accessCsr w₀ rd c wr new)
    (hw : wr = true ↔ writes) (hv : new (s.readCsr c) = v)
    (hword : ∀ w, decode s.params w = .instr i → w = w₀) : CsrMeaning i s rd c writes v := by
  have hl : s.csrLegal c writes ↔ (s.csrExists c && !(wr && s.csrIsReadonly c)) = true := by
    simp only [State.csrLegal, State.csrExists, State.csrIsReadonly, Bool.and_eq_true,
      List.contains_iff_mem, ← hw]
    cases wr <;> simp
  refine ⟨fun hh => ?_, fun hh w hd => ?_⟩
  · rw [hl] at hh
    rw [h, State.accessCsr, if_pos hh]
    cases hwr : wr with
    | false =>
      have hn : ¬ writes := by rw [← hw]; simp [hwr]
      exact ⟨_, rfl, regsWritten_writeReg _ _ _, by simp [nextPc_eq], fun hx => absurd hx hn,
        fun _ => rfl, fun e _ => rfl, fun a => rfl, rfl, rfl⟩
    | true =>
      have hn : writes := by rw [← hw]; simp [hwr]
      refine ⟨_, rfl, fun q => ?_, by simp [nextPc_eq], fun _ hwf => ?_, fun hx => absurd hn hx,
        fun e he => readCsr_writeCsr_ne s he _, fun a => rfl, rfl, rfl⟩
      · exact regsWritten_writeReg (s.writeCsr c (new (s.readCsr c))) rd (s.readCsr c) q
      · have hr := readCsr_writeCsr_self s hwf c (new (s.readCsr c))
        rw [hv] at hr ⊢
        exact hr
  · rw [hl] at hh
    rw [h, State.accessCsr, if_neg hh, hword w hd]
    rfl

/-! ### The one case split over all instructions -/

/-- The outcome of an instruction is one of ten shapes, and which one says what the instruction names. -/
inductive ExecShape (i : Instr) (s : State) : Outcome → Prop where
  | result (rd : Reg) (v : Word) : destOf i = some rd → accessOf s i = none → targetOf s i = none →
      csrOf i = none → i ≠ .fenceI → csrWrittenBy i = none → ExecShape i s (s.writeAndAdvance rd v)
  | load (rd : Reg) (ext : Nat → Word) (a : Word) (n : Nat) : destOf i = some rd →
      accessOf s i = some (.load, a, n) → targetOf s i = none → csrOf i = none → i ≠ .fenceI →
      csrWrittenBy i = none → (n = 1 ∨ n = 2 ∨ n = 4 ∨ n = 8) → ExecShape i s (s.load n ext rd a)
  | store (a v : Word) (n : Nat) : destOf i = none → accessOf s i = some (.store, a, n) →
      targetOf s i = none → csrOf i = none → i ≠ .fenceI → csrWrittenBy i = none →
      (n = 1 ∨ n = 2 ∨ n = 4 ∨ n = 8) → ExecShape i s (s.store n a v)
  | jump (rd : Reg) (a : Word) : destOf i = some rd → accessOf s i = none → targetOf s i = some a →
      csrOf i = none → i ≠ .fenceI → csrWrittenBy i = none → ExecShape i s (s.jumpAndLink rd a)
  | branch (taken : Bool) (a : Word) : destOf i = none → accessOf s i = none →
      (targetOf s i = if taken = true then some a else none) → csrOf i = none → i ≠ .fenceI →
      csrWrittenBy i = none → ExecShape i s (s.branchTo taken a)
  | csr (w : InstrWord) (rd : Reg) (c : CsrAddr) (wr : Bool) (new : Word → Word) : destOf i = some rd →
      accessOf s i = none → targetOf s i = none → csrOf i = some c → i ≠ .fenceI →
      (csrWrittenBy i = if wr = true then some c else none) → ExecShape i s (s.accessCsr w rd c wr new)
  | fence : destOf i = none → accessOf s i = none → targetOf s i = none → csrOf i = none → i ≠ .fenceI →
      csrWrittenBy i = none → ExecShape i s (.next s.advance)
  | fenceI : i = .fenceI → ExecShape i s (.next s.clearDirty.advance)
  | fault (f : Fault) : i = .ecall ∨ i = .ebreak → ExecShape i s (.fault f)
  | refused (r : Refusal) : destOf i = none → ExecShape i s (.refused r)

theorem execShape (i : Instr) (s : State) : ExecShape i s (exec i s) := by
  cases i
  case csrrw rd c r => exact .csr _ rd c true (fun _ => s.readReg r) rfl rfl rfl rfl (by simp) rfl
  case csrrs rd c r =>
    exact .csr _ rd c (decide (r ≠ 0#5)) (fun t => t ||| s.readReg r) rfl rfl rfl rfl (by simp)
      (by simp [csrWrittenBy])
  case csrrc rd c r =>
    exact .csr _ rd c (decide (r ≠ 0#5)) (fun t => t &&& ~~~ s.readReg r) rfl rfl rfl rfl (by simp)
      (by simp [csrWrittenBy])
  case csrrwi rd c z => exact .csr _ rd c true (fun _ => zeroExtend64 z) rfl rfl rfl rfl (by simp) rfl
  case csrrsi rd c z =>
    exact .csr _ rd c (decide (z ≠ 0#5)) (fun t => t ||| zeroExtend64 z) rfl rfl rfl rfl (by simp)
      (by simp [csrWrittenBy])
  case csrrci rd c z =>
    exact .csr _ rd c (decide (z ≠ 0#5)) (fun t => t &&& ~~~ zeroExtend64 z) rfl rfl rfl rfl (by simp)
      (by simp [csrWrittenBy])
  case fence => exact .fence rfl rfl rfl rfl (by simp) rfl
  case fenceI => exact .fenceI rfl
  case ecall => exact .fault _ (.inl rfl)
  case ebreak => exact .fault _ (.inr rfl)
  case uret => exact .refused _ rfl
  case mret => exact .refused _ rfl
  case sret => exact .refused _ rfl
  case sfenceVma => exact .refused _ rfl
  case wfi => exact .refused _ rfl
  all_goals first
    | exact .result _ _ rfl rfl rfl rfl (by simp) rfl
    | exact .load _ _ _ _ rfl rfl rfl rfl (by simp) rfl (by simp)
    | exact .store _ _ _ rfl rfl rfl rfl (by simp) rfl (by simp)
    | exact .jump _ _ rfl rfl rfl rfl (by simp) rfl
    | exact .branch _ _ rfl rfl (by simp [targetOf]) rfl (by simp) rfl

/-! ### Results as numbers -/

theorem shiftCount_eq (v : Word) : shiftCount v = v.toNat % 64 := by
  simp [shiftCount]

theorem shiftCountW_eq (v : Word) : shiftCountW v = v.toNat % 32 := by
  simp [shiftCountW]

theorem lowWord_toNat (v : Word) : (lowWord v).toNat = lowU v := by
  simp [lowWord, lowU]

theorem lowWord_toInt (v : Word) : (lowWord v).toInt = lowS v := by
  rw [BitVec.toInt_eq_toNat_bmod, lowWord_toNat, lowU, Int.natCast_mod]
  exact Int.emod_bmod (v.toNat : Int) (2 ^ 32 : Nat)

/-- A 32-bit result is the number it stands for, modulo 2^32 and sign-extended (40_r_type.md R91). -/
theorem signExtend64_eq_wordResult {r : BitVec 32} {x : Int} (h : (r.toNat : Int) % 2 ^ 32 = x % 2 ^ 32) :
    signExtend64 r = wordResult x := by
  apply BitVec.eq_of_toInt_eq
  rw [signExtend64, BitVec.toInt_signExtend_of_le (by omega), wordResult, BitVec.toInt_ofInt,
    BitVec.toInt_eq_toNat_bmod, Int.bmod_eq_of_le (m := 2 ^ 64)]
  · have h' : (r.toNat : Int) % (2 ^ 32 : Nat) = x % (2 ^ 32 : Nat) := by exact_mod_cast h
    rw [← Int.emod_bmod, h', Int.emod_bmod]
  · have := Int.le_bmod (x := x) (m := 2 ^ 32) (by norm_num)
    norm_num at this ⊢
    omega
  · have := Int.bmod_lt (x := x) (m := 2 ^ 32) (by norm_num)
    norm_num at this ⊢
    omega

/-! ### Runs -/

/-- What holds at the start of a run and is kept by every step holds all along the run. -/
theorem reaches_of_step_kept {P : State → Prop} {s t : State} (start : P s)
    (kept : ∀ u v, P u → step u = .next v → P v) (h : Reaches s t) : P t := by
  induction h with
  | start => exact start
  | next _ hstep ih => exact kept _ _ ih hstep

end Sys2Proof.Machine
end

