-- ==== Sys2Proof/Laws/Encoding.lean ====
section
/-! SUPPORT. The fields of an encoded word, the word made of its fields, and each mask of the opcode table
as conditions on fields. -/

namespace Sys2Proof

/-! ### Fields of an encoded word (30_encoding.md R51 to R56) -/

@[simp] theorem opcodeOf_encR (f7 : BitVec 7) (rs2 rs1 : Reg) (f3 : BitVec 3) (rd : Reg) (op : BitVec 7) :
    opcodeOf (encR f7 rs2 rs1 f3 rd op) = op := by
  unfold opcodeOf encR
  rw [BitVec.extractLsb'_append_eq_of_add_le (by omega)]
  simp

@[simp] theorem func3Of_encR (f7 : BitVec 7) (rs2 rs1 : Reg) (f3 : BitVec 3) (rd : Reg) (op : BitVec 7) :
    func3Of (encR f7 rs2 rs1 f3 rd op) = f3 := by
  unfold func3Of encR
  rw [BitVec.extractLsb'_append_eq_of_le (by omega),
    BitVec.extractLsb'_append_eq_of_le (by omega),
    BitVec.extractLsb'_append_eq_of_add_le (by omega)]
  simp

@[simp] theorem func7Of_encR (f7 : BitVec 7) (rs2 rs1 : Reg) (f3 : BitVec 3) (rd : Reg) (op : BitVec 7) :
    func7Of (encR f7 rs2 rs1 f3 rd op) = f7 := by
  unfold func7Of encR
  rw [BitVec.extractLsb'_append_eq_of_le (by omega),
    BitVec.extractLsb'_append_eq_of_le (by omega),
    BitVec.extractLsb'_append_eq_of_le (by omega),
    BitVec.extractLsb'_append_eq_of_le (by omega),
    BitVec.extractLsb'_append_eq_of_le (by omega)]
  simp

@[simp] theorem rdOf_encR (f7 : BitVec 7) (rs2 rs1 : Reg) (f3 : BitVec 3) (rd : Reg) (op : BitVec 7) :
    rdOf (encR f7 rs2 rs1 f3 rd op) = rd := by
  unfold rdOf encR
  rw [BitVec.extractLsb'_append_eq_of_le (by omega),
    BitVec.extractLsb'_append_eq_of_add_le (by omega)]
  simp

@[simp] theorem rs1Of_encR (f7 : BitVec 7) (rs2 rs1 : Reg) (f3 : BitVec 3) (rd : Reg) (op : BitVec 7) :
    rs1Of (encR f7 rs2 rs1 f3 rd op) = rs1 := by
  unfold rs1Of encR
  rw [BitVec.extractLsb'_append_eq_of_le (by omega),
    BitVec.extractLsb'_append_eq_of_le (by omega),
    BitVec.extractLsb'_append_eq_of_le (by omega),
    BitVec.extractLsb'_append_eq_of_add_le (by omega)]
  simp

@[simp] theorem rs2Of_encR (f7 : BitVec 7) (rs2 rs1 : Reg) (f3 : BitVec 3) (rd : Reg) (op : BitVec 7) :
    rs2Of (encR f7 rs2 rs1 f3 rd op) = rs2 := by
  unfold rs2Of encR
  rw [BitVec.extractLsb'_append_eq_of_le (by omega),
    BitVec.extractLsb'_append_eq_of_le (by omega),
    BitVec.extractLsb'_append_eq_of_le (by omega),
    BitVec.extractLsb'_append_eq_of_le (by omega),
    BitVec.extractLsb'_append_eq_of_add_le (by omega)]
  simp

@[simp] theorem opcodeOf_encI (imm : BitVec 12) (rs1 : Reg) (f3 : BitVec 3) (rd : Reg) (op : BitVec 7) :
    opcodeOf (encI imm rs1 f3 rd op) = op := by
  unfold opcodeOf encI
  rw [BitVec.extractLsb'_append_eq_of_add_le (by omega)]
  simp

@[simp] theorem func3Of_encI (imm : BitVec 12) (rs1 : Reg) (f3 : BitVec 3) (rd : Reg) (op : BitVec 7) :
    func3Of (encI imm rs1 f3 rd op) = f3 := by
  unfold func3Of encI
  rw [BitVec.extractLsb'_append_eq_of_le (by omega),
    BitVec.extractLsb'_append_eq_of_le (by omega),
    BitVec.extractLsb'_append_eq_of_add_le (by omega)]
  simp

@[simp] theorem rdOf_encI (imm : BitVec 12) (rs1 : Reg) (f3 : BitVec 3) (rd : Reg) (op : BitVec 7) :
    rdOf (encI imm rs1 f3 rd op) = rd := by
  unfold rdOf encI
  rw [BitVec.extractLsb'_append_eq_of_le (by omega),
    BitVec.extractLsb'_append_eq_of_add_le (by omega)]
  simp

@[simp] theorem rs1Of_encI (imm : BitVec 12) (rs1 : Reg) (f3 : BitVec 3) (rd : Reg) (op : BitVec 7) :
    rs1Of (encI imm rs1 f3 rd op) = rs1 := by
  unfold rs1Of encI
  rw [BitVec.extractLsb'_append_eq_of_le (by omega),
    BitVec.extractLsb'_append_eq_of_le (by omega),
    BitVec.extractLsb'_append_eq_of_le (by omega),
    BitVec.extractLsb'_append_eq_of_add_le (by omega)]
  simp

@[simp] theorem imm12Of_encI (imm : BitVec 12) (rs1 : Reg) (f3 : BitVec 3) (rd : Reg) (op : BitVec 7) :
    imm12Of (encI imm rs1 f3 rd op) = imm := by
  unfold imm12Of encI
  rw [BitVec.extractLsb'_append_eq_of_le (by omega),
    BitVec.extractLsb'_append_eq_of_le (by omega),
    BitVec.extractLsb'_append_eq_of_le (by omega),
    BitVec.extractLsb'_append_eq_of_le (by omega)]
  simp

@[simp] theorem func7Of_encI (imm : BitVec 12) (rs1 : Reg) (f3 : BitVec 3) (rd : Reg) (op : BitVec 7) :
    func7Of (encI imm rs1 f3 rd op) = imm.extractLsb' 5 7 := by
  unfold func7Of encI
  rw [BitVec.extractLsb'_append_eq_of_le (by omega),
    BitVec.extractLsb'_append_eq_of_le (by omega),
    BitVec.extractLsb'_append_eq_of_le (by omega),
    BitVec.extractLsb'_append_eq_of_le (by omega)]

@[simp] theorem rs2Of_encI (imm : BitVec 12) (rs1 : Reg) (f3 : BitVec 3) (rd : Reg) (op : BitVec 7) :
    rs2Of (encI imm rs1 f3 rd op) = imm.extractLsb' 0 5 := by
  unfold rs2Of encI
  rw [BitVec.extractLsb'_append_eq_of_le (by omega),
    BitVec.extractLsb'_append_eq_of_le (by omega),
    BitVec.extractLsb'_append_eq_of_le (by omega),
    BitVec.extractLsb'_append_eq_of_le (by omega)]

@[simp] theorem func6Of_encI (imm : BitVec 12) (rs1 : Reg) (f3 : BitVec 3) (rd : Reg) (op : BitVec 7) :
    func6Of (encI imm rs1 f3 rd op) = imm.extractLsb' 6 6 := by
  unfold func6Of encI
  rw [BitVec.extractLsb'_append_eq_of_le (by omega),
    BitVec.extractLsb'_append_eq_of_le (by omega),
    BitVec.extractLsb'_append_eq_of_le (by omega),
    BitVec.extractLsb'_append_eq_of_le (by omega)]

@[simp] theorem shamt6Of_encI (imm : BitVec 12) (rs1 : Reg) (f3 : BitVec 3) (rd : Reg) (op : BitVec 7) :
    shamt6Of (encI imm rs1 f3 rd op) = imm.extractLsb' 0 6 := by
  unfold shamt6Of encI
  rw [BitVec.extractLsb'_append_eq_of_le (by omega),
    BitVec.extractLsb'_append_eq_of_le (by omega),
    BitVec.extractLsb'_append_eq_of_le (by omega),
    BitVec.extractLsb'_append_eq_of_le (by omega)]

@[simp] theorem fenceModeOf_encI (imm : BitVec 12) (rs1 : Reg) (f3 : BitVec 3) (rd : Reg) (op : BitVec 7) :
    fenceModeOf (encI imm rs1 f3 rd op) = imm.extractLsb' 8 4 := by
  unfold fenceModeOf encI
  rw [BitVec.extractLsb'_append_eq_of_le (by omega),
    BitVec.extractLsb'_append_eq_of_le (by omega),
    BitVec.extractLsb'_append_eq_of_le (by omega),
    BitVec.extractLsb'_append_eq_of_le (by omega)]

@[simp] theorem predOf_encI (imm : BitVec 12) (rs1 : Reg) (f3 : BitVec 3) (rd : Reg) (op : BitVec 7) :
    predOf (encI imm rs1 f3 rd op) = imm.extractLsb' 4 4 := by
  unfold predOf encI
  rw [BitVec.extractLsb'_append_eq_of_le (by omega),
    BitVec.extractLsb'_append_eq_of_le (by omega),
    BitVec.extractLsb'_append_eq_of_le (by omega),
    BitVec.extractLsb'_append_eq_of_le (by omega)]

@[simp] theorem succOf_encI (imm : BitVec 12) (rs1 : Reg) (f3 : BitVec 3) (rd : Reg) (op : BitVec 7) :
    succOf (encI imm rs1 f3 rd op) = imm.extractLsb' 0 4 := by
  unfold succOf encI
  rw [BitVec.extractLsb'_append_eq_of_le (by omega),
    BitVec.extractLsb'_append_eq_of_le (by omega),
    BitVec.extractLsb'_append_eq_of_le (by omega),
    BitVec.extractLsb'_append_eq_of_le (by omega)]

@[simp] theorem opcodeOf_encS (imm : BitVec 12) (rs2 rs1 : Reg) (f3 : BitVec 3) (op : BitVec 7) :
    opcodeOf (encS imm rs2 rs1 f3 op) = op := by
  unfold opcodeOf encS
  rw [BitVec.extractLsb'_append_eq_of_add_le (by omega)]
  simp

@[simp] theorem func3Of_encS (imm : BitVec 12) (rs2 rs1 : Reg) (f3 : BitVec 3) (op : BitVec 7) :
    func3Of (encS imm rs2 rs1 f3 op) = f3 := by
  unfold func3Of encS
  rw [BitVec.extractLsb'_append_eq_of_le (by omega),
    BitVec.extractLsb'_append_eq_of_le (by omega),
    BitVec.extractLsb'_append_eq_of_add_le (by omega)]
  simp

@[simp] theorem rs1Of_encS (imm : BitVec 12) (rs2 rs1 : Reg) (f3 : BitVec 3) (op : BitVec 7) :
    rs1Of (encS imm rs2 rs1 f3 op) = rs1 := by
  unfold rs1Of encS
  rw [BitVec.extractLsb'_append_eq_of_le (by omega),
    BitVec.extractLsb'_append_eq_of_le (by omega),
    BitVec.extractLsb'_append_eq_of_le (by omega),
    BitVec.extractLsb'_append_eq_of_add_le (by omega)]
  simp

@[simp] theorem rs2Of_encS (imm : BitVec 12) (rs2 rs1 : Reg) (f3 : BitVec 3) (op : BitVec 7) :
    rs2Of (encS imm rs2 rs1 f3 op) = rs2 := by
  unfold rs2Of encS
  rw [BitVec.extractLsb'_append_eq_of_le (by omega),
    BitVec.extractLsb'_append_eq_of_le (by omega),
    BitVec.extractLsb'_append_eq_of_le (by omega),
    BitVec.extractLsb'_append_eq_of_le (by omega),
    BitVec.extractLsb'_append_eq_of_add_le (by omega)]
  simp

@[simp] theorem opcodeOf_encB (offset : BitVec 13) (rs2 rs1 : Reg) (f3 : BitVec 3) (op : BitVec 7) :
    opcodeOf (encB offset rs2 rs1 f3 op) = op := by
  unfold opcodeOf encB
  rw [BitVec.extractLsb'_append_eq_of_add_le (by omega)]
  simp

@[simp] theorem func3Of_encB (offset : BitVec 13) (rs2 rs1 : Reg) (f3 : BitVec 3) (op : BitVec 7) :
    func3Of (encB offset rs2 rs1 f3 op) = f3 := by
  unfold func3Of encB
  rw [BitVec.extractLsb'_append_eq_of_le (by omega),
    BitVec.extractLsb'_append_eq_of_le (by omega),
    BitVec.extractLsb'_append_eq_of_le (by omega),
    BitVec.extractLsb'_append_eq_of_add_le (by omega)]
  simp

@[simp] theorem rs1Of_encB (offset : BitVec 13) (rs2 rs1 : Reg) (f3 : BitVec 3) (op : BitVec 7) :
    rs1Of (encB offset rs2 rs1 f3 op) = rs1 := by
  unfold rs1Of encB
  rw [BitVec.extractLsb'_append_eq_of_le (by omega),
    BitVec.extractLsb'_append_eq_of_le (by omega),
    BitVec.extractLsb'_append_eq_of_le (by omega),
    BitVec.extractLsb'_append_eq_of_le (by omega),
    BitVec.extractLsb'_append_eq_of_add_le (by omega)]
  simp

@[simp] theorem rs2Of_encB (offset : BitVec 13) (rs2 rs1 : Reg) (f3 : BitVec 3) (op : BitVec 7) :
    rs2Of (encB offset rs2 rs1 f3 op) = rs2 := by
  unfold rs2Of encB
  rw [BitVec.extractLsb'_append_eq_of_le (by omega),
    BitVec.extractLsb'_append_eq_of_le (by omega),
    BitVec.extractLsb'_append_eq_of_le (by omega),
    BitVec.extractLsb'_append_eq_of_le (by omega),
    BitVec.extractLsb'_append_eq_of_le (by omega),
    BitVec.extractLsb'_append_eq_of_add_le (by omega)]
  simp

@[simp] theorem opcodeOf_encU (imm20 : BitVec 20) (rd : Reg) (op : BitVec 7) :
    opcodeOf (encU imm20 rd op) = op := by
  unfold opcodeOf encU
  rw [BitVec.extractLsb'_append_eq_of_add_le (by omega)]
  simp

@[simp] theorem rdOf_encU (imm20 : BitVec 20) (rd : Reg) (op : BitVec 7) :
    rdOf (encU imm20 rd op) = rd := by
  unfold rdOf encU
  rw [BitVec.extractLsb'_append_eq_of_le (by omega),
    BitVec.extractLsb'_append_eq_of_add_le (by omega)]
  simp

@[simp] theorem imm20Of_encU (imm20 : BitVec 20) (rd : Reg) (op : BitVec 7) :
    imm20Of (encU imm20 rd op) = imm20 := by
  unfold imm20Of encU
  rw [BitVec.extractLsb'_append_eq_of_le (by omega),
    BitVec.extractLsb'_append_eq_of_le (by omega)]
  simp

@[simp] theorem opcodeOf_encJ (offset : BitVec 21) (rd : Reg) (op : BitVec 7) :
    opcodeOf (encJ offset rd op) = op := by
  unfold opcodeOf encJ
  rw [BitVec.extractLsb'_append_eq_of_add_le (by omega)]
  simp

@[simp] theorem rdOf_encJ (offset : BitVec 21) (rd : Reg) (op : BitVec 7) :
    rdOf (encJ offset rd op) = rd := by
  unfold rdOf encJ
  rw [BitVec.extractLsb'_append_eq_of_le (by omega),
    BitVec.extractLsb'_append_eq_of_add_le (by omega)]
  simp

/-! ### Split immediates (R59, R60, R62) -/

theorem slice_25_encS (imm : BitVec 12) (rs2 rs1 : Reg) (f3 : BitVec 3) (op : BitVec 7) :
    (encS imm rs2 rs1 f3 op).extractLsb' 25 7 = imm.extractLsb' 5 7 := by
  unfold encS
  rw [BitVec.extractLsb'_append_eq_of_le (by omega),
    BitVec.extractLsb'_append_eq_of_le (by omega),
    BitVec.extractLsb'_append_eq_of_le (by omega),
    BitVec.extractLsb'_append_eq_of_le (by omega),
    BitVec.extractLsb'_append_eq_of_le (by omega)]
  simp

theorem slice_7_encS (imm : BitVec 12) (rs2 rs1 : Reg) (f3 : BitVec 3) (op : BitVec 7) :
    (encS imm rs2 rs1 f3 op).extractLsb' 7 5 = imm.extractLsb' 0 5 := by
  unfold encS
  rw [BitVec.extractLsb'_append_eq_of_le (by omega),
    BitVec.extractLsb'_append_eq_of_add_le (by omega)]
  simp

@[simp] theorem immSOf_encS (imm : BitVec 12) (rs2 rs1 : Reg) (f3 : BitVec 3) (op : BitVec 7) :
    immSOf (encS imm rs2 rs1 f3 op) = imm := by
  rw [immSOf, slice_25_encS, slice_7_encS, BitVec.extractLsb'_append_extractLsb'_eq_extractLsb' (by omega)]
  simp

/-- An even offset's bit 0 is the 0 that the format does not hold. -/
theorem slice_0_of_even {w : Nat} {offset : BitVec w} (h : evenOffset offset = true) :
    offset.extractLsb' 0 1 = 0#1 := by
  have h0 : offset.getLsbD 0 = false := by simpa [evenOffset] using h
  apply BitVec.eq_of_getLsbD_eq
  intro i hi
  have : i = 0 := by omega
  subst this
  simp [h0]

theorem slice_31_encB (offset : BitVec 13) (rs2 rs1 : Reg) (f3 : BitVec 3) (op : BitVec 7) :
    (encB offset rs2 rs1 f3 op).extractLsb' 31 1 = offset.extractLsb' 12 1 := by
  unfold encB
  rw [BitVec.extractLsb'_append_eq_of_le (by omega),
    BitVec.extractLsb'_append_eq_of_le (by omega),
    BitVec.extractLsb'_append_eq_of_le (by omega),
    BitVec.extractLsb'_append_eq_of_le (by omega),
    BitVec.extractLsb'_append_eq_of_le (by omega),
    BitVec.extractLsb'_append_eq_of_le (by omega),
    BitVec.extractLsb'_append_eq_of_le (by omega)]
  simp

theorem slice_7_encB (offset : BitVec 13) (rs2 rs1 : Reg) (f3 : BitVec 3) (op : BitVec 7) :
    (encB offset rs2 rs1 f3 op).extractLsb' 7 1 = offset.extractLsb' 11 1 := by
  unfold encB
  rw [BitVec.extractLsb'_append_eq_of_le (by omega),
    BitVec.extractLsb'_append_eq_of_add_le (by omega)]
  simp

theorem slice_25_encB (offset : BitVec 13) (rs2 rs1 : Reg) (f3 : BitVec 3) (op : BitVec 7) :
    (encB offset rs2 rs1 f3 op).extractLsb' 25 6 = offset.extractLsb' 5 6 := by
  unfold encB
  rw [BitVec.extractLsb'_append_eq_of_le (by omega),
    BitVec.extractLsb'_append_eq_of_le (by omega),
    BitVec.extractLsb'_append_eq_of_le (by omega),
    BitVec.extractLsb'_append_eq_of_le (by omega),
    BitVec.extractLsb'_append_eq_of_le (by omega),
    BitVec.extractLsb'_append_eq_of_le (by omega),
    BitVec.extractLsb'_append_eq_of_add_le (by omega)]
  simp

theorem slice_8_encB (offset : BitVec 13) (rs2 rs1 : Reg) (f3 : BitVec 3) (op : BitVec 7) :
    (encB offset rs2 rs1 f3 op).extractLsb' 8 4 = offset.extractLsb' 1 4 := by
  unfold encB
  rw [BitVec.extractLsb'_append_eq_of_le (by omega),
    BitVec.extractLsb'_append_eq_of_le (by omega),
    BitVec.extractLsb'_append_eq_of_add_le (by omega)]
  simp

@[simp] theorem immBOf_encB (offset : BitVec 13) (rs2 rs1 : Reg) (f3 : BitVec 3) (op : BitVec 7)
    (h : evenOffset offset = true) : immBOf (encB offset rs2 rs1 f3 op) = offset := by
  rw [immBOf, slice_31_encB, slice_7_encB, slice_25_encB, slice_8_encB, ← slice_0_of_even h,
    BitVec.extractLsb'_append_extractLsb'_eq_extractLsb' (by omega),
    BitVec.extractLsb'_append_extractLsb'_eq_extractLsb' (by omega),
    BitVec.extractLsb'_append_extractLsb'_eq_extractLsb' (by omega),
    BitVec.extractLsb'_append_extractLsb'_eq_extractLsb' (by omega)]
  simp

theorem slice_31_encJ (offset : BitVec 21) (rd : Reg) (op : BitVec 7) :
    (encJ offset rd op).extractLsb' 31 1 = offset.extractLsb' 20 1 := by
  unfold encJ
  rw [BitVec.extractLsb'_append_eq_of_le (by omega),
    BitVec.extractLsb'_append_eq_of_le (by omega),
    BitVec.extractLsb'_append_eq_of_le (by omega),
    BitVec.extractLsb'_append_eq_of_le (by omega),
    BitVec.extractLsb'_append_eq_of_le (by omega)]
  simp

theorem slice_12_encJ (offset : BitVec 21) (rd : Reg) (op : BitVec 7) :
    (encJ offset rd op).extractLsb' 12 8 = offset.extractLsb' 12 8 := by
  unfold encJ
  rw [BitVec.extractLsb'_append_eq_of_le (by omega),
    BitVec.extractLsb'_append_eq_of_le (by omega),
    BitVec.extractLsb'_append_eq_of_add_le (by omega)]
  simp

theorem slice_20_encJ (offset : BitVec 21) (rd : Reg) (op : BitVec 7) :
    (encJ offset rd op).extractLsb' 20 1 = offset.extractLsb' 11 1 := by
  unfold encJ
  rw [BitVec.extractLsb'_append_eq_of_le (by omega),
    BitVec.extractLsb'_append_eq_of_le (by omega),
    BitVec.extractLsb'_append_eq_of_le (by omega),
    BitVec.extractLsb'_append_eq_of_add_le (by omega)]
  simp

theorem slice_21_encJ (offset : BitVec 21) (rd : Reg) (op : BitVec 7) :
    (encJ offset rd op).extractLsb' 21 10 = offset.extractLsb' 1 10 := by
  unfold encJ
  rw [BitVec.extractLsb'_append_eq_of_le (by omega),
    BitVec.extractLsb'_append_eq_of_le (by omega),
    BitVec.extractLsb'_append_eq_of_le (by omega),
    BitVec.extractLsb'_append_eq_of_le (by omega),
    BitVec.extractLsb'_append_eq_of_add_le (by omega)]
  simp

@[simp] theorem immJOf_encJ (offset : BitVec 21) (rd : Reg) (op : BitVec 7)
    (h : evenOffset offset = true) : immJOf (encJ offset rd op) = offset := by
  rw [immJOf, slice_31_encJ, slice_12_encJ, slice_20_encJ, slice_21_encJ, ← slice_0_of_even h,
    BitVec.extractLsb'_append_extractLsb'_eq_extractLsb' (by omega),
    BitVec.extractLsb'_append_extractLsb'_eq_extractLsb' (by omega),
    BitVec.extractLsb'_append_extractLsb'_eq_extractLsb' (by omega),
    BitVec.extractLsb'_append_extractLsb'_eq_extractLsb' (by omega)]
  simp

theorem evenOffset_immBOf (w : InstrWord) : evenOffset (immBOf w) = true := by
  rw [evenOffset, immBOf, BitVec.getLsbD_append]
  simp

theorem evenOffset_immJOf (w : InstrWord) : evenOffset (immJOf w) = true := by
  rw [evenOffset, immJOf, BitVec.getLsbD_append]
  simp

/-! ### The word made of its fields -/

theorem encR_fields (w : InstrWord) :
    encR (func7Of w) (rs2Of w) (rs1Of w) (func3Of w) (rdOf w) (opcodeOf w) = w := by
  unfold encR func7Of rs2Of rs1Of func3Of rdOf opcodeOf
  rw [BitVec.extractLsb'_append_extractLsb'_eq_extractLsb' (by omega),
    BitVec.extractLsb'_append_extractLsb'_eq_extractLsb' (by omega),
    BitVec.extractLsb'_append_extractLsb'_eq_extractLsb' (by omega),
    BitVec.extractLsb'_append_extractLsb'_eq_extractLsb' (by omega),
    BitVec.extractLsb'_append_extractLsb'_eq_extractLsb' (by omega)]
  simp

theorem encI_fields (w : InstrWord) :
    encI (imm12Of w) (rs1Of w) (func3Of w) (rdOf w) (opcodeOf w) = w := by
  unfold encI imm12Of rs1Of func3Of rdOf opcodeOf
  rw [BitVec.extractLsb'_append_extractLsb'_eq_extractLsb' (by omega),
    BitVec.extractLsb'_append_extractLsb'_eq_extractLsb' (by omega),
    BitVec.extractLsb'_append_extractLsb'_eq_extractLsb' (by omega),
    BitVec.extractLsb'_append_extractLsb'_eq_extractLsb' (by omega)]
  simp

theorem encU_fields (w : InstrWord) : encU (imm20Of w) (rdOf w) (opcodeOf w) = w := by
  unfold encU imm20Of rdOf opcodeOf
  rw [BitVec.extractLsb'_append_extractLsb'_eq_extractLsb' (by omega),
    BitVec.extractLsb'_append_extractLsb'_eq_extractLsb' (by omega)]
  simp

/-- The 12-bit field made of a 6-bit constant and a 6-bit shift amount (R52). -/
theorem imm12Of_shift6 (w : InstrWord) : func6Of w ++ shamt6Of w = imm12Of w := by
  unfold func6Of shamt6Of imm12Of
  rw [BitVec.extractLsb'_append_extractLsb'_eq_extractLsb' (by omega)]

/-- The 12-bit field made of a 7-bit constant and a 5-bit shift amount (R52). -/
theorem imm12Of_shift5 (w : InstrWord) : func7Of w ++ rs2Of w = imm12Of w := by
  unfold func7Of rs2Of imm12Of
  rw [BitVec.extractLsb'_append_extractLsb'_eq_extractLsb' (by omega)]

/-- The 12-bit field of `fence` (R52). -/
theorem imm12Of_fence (w : InstrWord) : fenceModeOf w ++ predOf w ++ succOf w = imm12Of w := by
  unfold fenceModeOf predOf succOf imm12Of
  rw [BitVec.extractLsb'_append_extractLsb'_eq_extractLsb' (by omega),
    BitVec.extractLsb'_append_extractLsb'_eq_extractLsb' (by omega)]

theorem immSOf_slice_5 (w : InstrWord) : (immSOf w).extractLsb' 5 7 = w.extractLsb' 25 7 := by
  unfold immSOf
  rw [BitVec.extractLsb'_append_eq_of_le (by omega)]
  simp

theorem immSOf_slice_0 (w : InstrWord) : (immSOf w).extractLsb' 0 5 = w.extractLsb' 7 5 := by
  unfold immSOf
  rw [BitVec.extractLsb'_append_eq_of_add_le (by omega)]
  simp

theorem immBOf_slice_12 (w : InstrWord) : (immBOf w).extractLsb' 12 1 = w.extractLsb' 31 1 := by
  unfold immBOf
  rw [BitVec.extractLsb'_append_eq_of_le (by omega),
    BitVec.extractLsb'_append_eq_of_le (by omega),
    BitVec.extractLsb'_append_eq_of_le (by omega),
    BitVec.extractLsb'_append_eq_of_le (by omega)]
  simp

theorem immBOf_slice_5 (w : InstrWord) : (immBOf w).extractLsb' 5 6 = w.extractLsb' 25 6 := by
  unfold immBOf
  rw [BitVec.extractLsb'_append_eq_of_le (by omega),
    BitVec.extractLsb'_append_eq_of_le (by omega),
    BitVec.extractLsb'_append_eq_of_add_le (by omega)]
  simp

theorem immBOf_slice_1 (w : InstrWord) : (immBOf w).extractLsb' 1 4 = w.extractLsb' 8 4 := by
  unfold immBOf
  rw [BitVec.extractLsb'_append_eq_of_le (by omega),
    BitVec.extractLsb'_append_eq_of_add_le (by omega)]
  simp

theorem immBOf_slice_11 (w : InstrWord) : (immBOf w).extractLsb' 11 1 = w.extractLsb' 7 1 := by
  unfold immBOf
  rw [BitVec.extractLsb'_append_eq_of_le (by omega),
    BitVec.extractLsb'_append_eq_of_le (by omega),
    BitVec.extractLsb'_append_eq_of_le (by omega),
    BitVec.extractLsb'_append_eq_of_add_le (by omega)]
  simp

theorem immJOf_slice_20 (w : InstrWord) : (immJOf w).extractLsb' 20 1 = w.extractLsb' 31 1 := by
  unfold immJOf
  rw [BitVec.extractLsb'_append_eq_of_le (by omega),
    BitVec.extractLsb'_append_eq_of_le (by omega),
    BitVec.extractLsb'_append_eq_of_le (by omega),
    BitVec.extractLsb'_append_eq_of_le (by omega)]
  simp

theorem immJOf_slice_1 (w : InstrWord) : (immJOf w).extractLsb' 1 10 = w.extractLsb' 21 10 := by
  unfold immJOf
  rw [BitVec.extractLsb'_append_eq_of_le (by omega),
    BitVec.extractLsb'_append_eq_of_add_le (by omega)]
  simp

theorem immJOf_slice_11 (w : InstrWord) : (immJOf w).extractLsb' 11 1 = w.extractLsb' 20 1 := by
  unfold immJOf
  rw [BitVec.extractLsb'_append_eq_of_le (by omega),
    BitVec.extractLsb'_append_eq_of_le (by omega),
    BitVec.extractLsb'_append_eq_of_add_le (by omega)]
  simp

theorem immJOf_slice_12 (w : InstrWord) : (immJOf w).extractLsb' 12 8 = w.extractLsb' 12 8 := by
  unfold immJOf
  rw [BitVec.extractLsb'_append_eq_of_le (by omega),
    BitVec.extractLsb'_append_eq_of_le (by omega),
    BitVec.extractLsb'_append_eq_of_le (by omega),
    BitVec.extractLsb'_append_eq_of_add_le (by omega)]
  simp

theorem encS_fields (w : InstrWord) :
    encS (immSOf w) (rs2Of w) (rs1Of w) (func3Of w) (opcodeOf w) = w := by
  unfold encS rs2Of rs1Of func3Of opcodeOf
  rw [immSOf_slice_5, immSOf_slice_0,
    BitVec.extractLsb'_append_extractLsb'_eq_extractLsb' (by omega),
    BitVec.extractLsb'_append_extractLsb'_eq_extractLsb' (by omega),
    BitVec.extractLsb'_append_extractLsb'_eq_extractLsb' (by omega),
    BitVec.extractLsb'_append_extractLsb'_eq_extractLsb' (by omega),
    BitVec.extractLsb'_append_extractLsb'_eq_extractLsb' (by omega)]
  simp

theorem encB_fields (w : InstrWord) :
    encB (immBOf w) (rs2Of w) (rs1Of w) (func3Of w) (opcodeOf w) = w := by
  unfold encB rs2Of rs1Of func3Of opcodeOf
  rw [immBOf_slice_12, immBOf_slice_5, immBOf_slice_1, immBOf_slice_11,
    BitVec.extractLsb'_append_extractLsb'_eq_extractLsb' (by omega),
    BitVec.extractLsb'_append_extractLsb'_eq_extractLsb' (by omega),
    BitVec.extractLsb'_append_extractLsb'_eq_extractLsb' (by omega),
    BitVec.extractLsb'_append_extractLsb'_eq_extractLsb' (by omega),
    BitVec.extractLsb'_append_extractLsb'_eq_extractLsb' (by omega),
    BitVec.extractLsb'_append_extractLsb'_eq_extractLsb' (by omega),
    BitVec.extractLsb'_append_extractLsb'_eq_extractLsb' (by omega)]
  simp

theorem encJ_fields (w : InstrWord) : encJ (immJOf w) (rdOf w) (opcodeOf w) = w := by
  unfold encJ rdOf opcodeOf
  rw [immJOf_slice_20, immJOf_slice_1, immJOf_slice_11, immJOf_slice_12,
    BitVec.extractLsb'_append_extractLsb'_eq_extractLsb' (by omega),
    BitVec.extractLsb'_append_extractLsb'_eq_extractLsb' (by omega),
    BitVec.extractLsb'_append_extractLsb'_eq_extractLsb' (by omega),
    BitVec.extractLsb'_append_extractLsb'_eq_extractLsb' (by omega),
    BitVec.extractLsb'_append_extractLsb'_eq_extractLsb' (by omega)]
  simp

/-- The constant above a 6-bit shift amount. -/
theorem func6Of_shift (f6 : BitVec 6) (sh : BitVec 6) : (f6 ++ sh).extractLsb' 6 6 = f6 := by
  rw [BitVec.extractLsb'_append_eq_of_le (by omega)]
  simp

theorem shamt6Of_shift (f6 : BitVec 6) (sh : BitVec 6) : (f6 ++ sh).extractLsb' 0 6 = sh := by
  rw [BitVec.extractLsb'_append_eq_of_add_le (by omega)]
  simp

/-- The constant above a 5-bit shift amount. -/
theorem func7Of_shift (f7 : BitVec 7) (sh : BitVec 5) : (f7 ++ sh).extractLsb' 5 7 = f7 := by
  rw [BitVec.extractLsb'_append_eq_of_le (by omega)]
  simp

theorem rs2Of_shift (f7 : BitVec 7) (sh : BitVec 5) : (f7 ++ sh).extractLsb' 0 5 = sh := by
  rw [BitVec.extractLsb'_append_eq_of_add_le (by omega)]
  simp

/-- The fields of `fence`'s 12 bits. -/
theorem fenceModeOf_shift (fm pred succ : BitVec 4) : (fm ++ pred ++ succ).extractLsb' 8 4 = fm := by
  rw [BitVec.extractLsb'_append_eq_of_le (by omega), BitVec.extractLsb'_append_eq_of_le (by omega)]
  simp

theorem predOf_shift (fm pred succ : BitVec 4) : (fm ++ pred ++ succ).extractLsb' 4 4 = pred := by
  rw [BitVec.extractLsb'_append_eq_of_le (by omega), BitVec.extractLsb'_append_eq_of_add_le (by omega)]
  simp

theorem succOf_shift (fm pred succ : BitVec 4) : (fm ++ pred ++ succ).extractLsb' 0 4 = succ := by
  rw [BitVec.extractLsb'_append_eq_of_add_le (by omega)]
  simp

/-! ### The masks of the opcode table as conditions on fields (R67) -/

theorem opcodeOf_and (a b : InstrWord) : opcodeOf (a &&& b) = opcodeOf a &&& opcodeOf b := by
  simp [opcodeOf, BitVec.extractLsb'_and]

theorem func3Of_and (a b : InstrWord) : func3Of (a &&& b) = func3Of a &&& func3Of b := by
  simp [func3Of, BitVec.extractLsb'_and]

theorem func7Of_and (a b : InstrWord) : func7Of (a &&& b) = func7Of a &&& func7Of b := by
  simp [func7Of, BitVec.extractLsb'_and]

theorem rdOf_and (a b : InstrWord) : rdOf (a &&& b) = rdOf a &&& rdOf b := by
  simp [rdOf, BitVec.extractLsb'_and]

theorem rs1Of_and (a b : InstrWord) : rs1Of (a &&& b) = rs1Of a &&& rs1Of b := by
  simp [rs1Of, BitVec.extractLsb'_and]

theorem rs2Of_and (a b : InstrWord) : rs2Of (a &&& b) = rs2Of a &&& rs2Of b := by
  simp [rs2Of, BitVec.extractLsb'_and]

theorem imm12Of_and (a b : InstrWord) : imm12Of (a &&& b) = imm12Of a &&& imm12Of b := by
  simp [imm12Of, BitVec.extractLsb'_and]

theorem func6Of_and (a b : InstrWord) : func6Of (a &&& b) = func6Of a &&& func6Of b := by
  simp [func6Of, BitVec.extractLsb'_and]

theorem shamt6Of_and (a b : InstrWord) : shamt6Of (a &&& b) = shamt6Of a &&& shamt6Of b := by
  simp [shamt6Of, BitVec.extractLsb'_and]

theorem fenceModeOf_and (a b : InstrWord) : fenceModeOf (a &&& b) = fenceModeOf a &&& fenceModeOf b := by
  simp [fenceModeOf, BitVec.extractLsb'_and]

theorem predOf_and (a b : InstrWord) : predOf (a &&& b) = predOf a &&& predOf b := by
  simp [predOf, BitVec.extractLsb'_and]

theorem succOf_and (a b : InstrWord) : succOf (a &&& b) = succOf a &&& succOf b := by
  simp [succOf, BitVec.extractLsb'_and]

theorem imm20Of_and (a b : InstrWord) : imm20Of (a &&& b) = imm20Of a &&& imm20Of b := by
  simp [imm20Of, BitVec.extractLsb'_and]

theorem and_all7 (x : BitVec 7) : x &&& 127#7 = x := BitVec.and_allOnes
theorem and_all6 (x : BitVec 6) : x &&& 63#6 = x := BitVec.and_allOnes
theorem and_all5 (x : BitVec 5) : x &&& 31#5 = x := BitVec.and_allOnes
theorem and_all4 (x : BitVec 4) : x &&& 15#4 = x := BitVec.and_allOnes
theorem and_all3 (x : BitVec 3) : x &&& 7#3 = x := BitVec.and_allOnes

/-- The mask of the R-format rows and of the 32-bit immediate shifts. -/
theorem mask_func7_func3_opcode (w : InstrWord) (f7 : BitVec 7) (f3 : BitVec 3) (op : BitVec 7) :
    w &&& 0xfe00707f#32 = encR f7 0#5 0#5 f3 0#5 op ↔ func7Of w = f7 ∧ func3Of w = f3 ∧ opcodeOf w = op := by
  constructor
  · intro h
    refine ⟨?_, ?_, ?_⟩
    · have := congrArg func7Of h
      simpa [func7Of_and, show func7Of 0xfe00707f#32 = 127#7 by decide, and_all7] using this
    · have := congrArg func3Of h
      simpa [func3Of_and, show func3Of 0xfe00707f#32 = 7#3 by decide, and_all3] using this
    · have := congrArg opcodeOf h
      simpa [opcodeOf_and, show opcodeOf 0xfe00707f#32 = 127#7 by decide, and_all7] using this
  · rintro ⟨rfl, rfl, rfl⟩
    rw [← encR_fields (w &&& 0xfe00707f#32)]
    simp [func7Of_and, rs2Of_and, rs1Of_and, func3Of_and, rdOf_and, opcodeOf_and,
      show func7Of 0xfe00707f#32 = 127#7 by decide, show rs2Of 0xfe00707f#32 = 0#5 by decide, show rs1Of 0xfe00707f#32 = 0#5 by decide, show func3Of 0xfe00707f#32 = 7#3 by decide, show rdOf 0xfe00707f#32 = 0#5 by decide, show opcodeOf 0xfe00707f#32 = 127#7 by decide,
      and_all3, and_all7]

/-- The mask of the I-, S- and B-format rows. -/
theorem mask_func3_opcode (w : InstrWord) (f3 : BitVec 3) (op : BitVec 7) :
    w &&& 0x0000707f#32 = encR 0#7 0#5 0#5 f3 0#5 op ↔ func3Of w = f3 ∧ opcodeOf w = op := by
  constructor
  · intro h
    refine ⟨?_, ?_⟩
    · have := congrArg func3Of h
      simpa [func3Of_and, show func3Of 0x0000707f#32 = 7#3 by decide, and_all3] using this
    · have := congrArg opcodeOf h
      simpa [opcodeOf_and, show opcodeOf 0x0000707f#32 = 127#7 by decide, and_all7] using this
  · rintro ⟨rfl, rfl⟩
    rw [← encR_fields (w &&& 0x0000707f#32)]
    simp [func7Of_and, rs2Of_and, rs1Of_and, func3Of_and, rdOf_and, opcodeOf_and,
      show func7Of 0x0000707f#32 = 0#7 by decide, show rs2Of 0x0000707f#32 = 0#5 by decide, show rs1Of 0x0000707f#32 = 0#5 by decide, show func3Of 0x0000707f#32 = 7#3 by decide, show rdOf 0x0000707f#32 = 0#5 by decide, show opcodeOf 0x0000707f#32 = 127#7 by decide,
      and_all3, and_all7]

/-- The mask of the U- and J-format rows. -/
theorem mask_opcode (w : InstrWord) (op : BitVec 7) :
    w &&& 0x0000007f#32 = encR 0#7 0#5 0#5 0#3 0#5 op ↔ opcodeOf w = op := by
  constructor
  · intro h
    have := congrArg opcodeOf h
    simpa [opcodeOf_and, show opcodeOf 0x0000007f#32 = 127#7 by decide, and_all7] using this
  · rintro rfl
    rw [← encR_fields (w &&& 0x0000007f#32)]
    simp [func7Of_and, rs2Of_and, rs1Of_and, func3Of_and, rdOf_and, opcodeOf_and,
      show func7Of 0x0000007f#32 = 0#7 by decide, show rs2Of 0x0000007f#32 = 0#5 by decide, show rs1Of 0x0000007f#32 = 0#5 by decide, show func3Of 0x0000007f#32 = 0#3 by decide, show rdOf 0x0000007f#32 = 0#5 by decide, show opcodeOf 0x0000007f#32 = 127#7 by decide,
      and_all7]

/-- A word from its 6-bit constant, its 6-bit shift amount and the I format's other fields. -/
theorem encI_shift6_fields (w : InstrWord) :
    encI (func6Of w ++ shamt6Of w) (rs1Of w) (func3Of w) (rdOf w) (opcodeOf w) = w := by
  rw [imm12Of_shift6, encI_fields]

/-- A word from the fields of `fence`. -/
theorem encI_fence_fields (w : InstrWord) :
    encI (fenceModeOf w ++ predOf w ++ succOf w) (rs1Of w) (func3Of w) (rdOf w) (opcodeOf w) = w := by
  rw [imm12Of_fence, encI_fields]

/-- The mask of the 64-bit immediate shifts. -/
theorem mask_func6_func3_opcode (w : InstrWord) (f6 : BitVec 6) (f3 : BitVec 3) (op : BitVec 7) :
    w &&& 0xfc00707f#32 = encI (f6 ++ 0#6) 0#5 f3 0#5 op ↔ func6Of w = f6 ∧ func3Of w = f3 ∧ opcodeOf w = op := by
  constructor
  · intro h
    refine ⟨?_, ?_, ?_⟩
    · have := congrArg func6Of h
      simpa [func6Of_shift, func6Of_and, show func6Of 0xfc00707f#32 = 63#6 by decide, and_all6] using this
    · have := congrArg func3Of h
      simpa [func3Of_and, show func3Of 0xfc00707f#32 = 7#3 by decide, and_all3] using this
    · have := congrArg opcodeOf h
      simpa [opcodeOf_and, show opcodeOf 0xfc00707f#32 = 127#7 by decide, and_all7] using this
  · rintro ⟨rfl, rfl, rfl⟩
    rw [← encI_shift6_fields (w &&& 0xfc00707f#32)]
    simp [func6Of_and, shamt6Of_and, rs1Of_and, func3Of_and, rdOf_and, opcodeOf_and,
      show func6Of 0xfc00707f#32 = 63#6 by decide, show shamt6Of 0xfc00707f#32 = 0#6 by decide, show rs1Of 0xfc00707f#32 = 0#5 by decide, show func3Of 0xfc00707f#32 = 7#3 by decide, show rdOf 0xfc00707f#32 = 0#5 by decide, show opcodeOf 0xfc00707f#32 = 127#7 by decide,
      and_all3, and_all6, and_all7]

/-- The mask of `fence` under `FENCE_STRICT`. -/
theorem mask_fence (w : InstrWord) (fm : BitVec 4) (r1 : Reg) (f3 : BitVec 3) (rd : Reg) (op : BitVec 7) :
    w &&& 0xf00fffff#32 = encI (fm ++ 0#4 ++ 0#4) r1 f3 rd op ↔ fenceModeOf w = fm ∧ rs1Of w = r1 ∧ func3Of w = f3 ∧ rdOf w = rd ∧ opcodeOf w = op := by
  constructor
  · intro h
    refine ⟨?_, ?_, ?_, ?_, ?_⟩
    · have := congrArg fenceModeOf h
      simpa [fenceModeOf_shift, fenceModeOf_and, show fenceModeOf 0xf00fffff#32 = 15#4 by decide, and_all4] using this
    · have := congrArg rs1Of h
      simpa [rs1Of_and, show rs1Of 0xf00fffff#32 = 31#5 by decide, and_all5] using this
    · have := congrArg func3Of h
      simpa [func3Of_and, show func3Of 0xf00fffff#32 = 7#3 by decide, and_all3] using this
    · have := congrArg rdOf h
      simpa [rdOf_and, show rdOf 0xf00fffff#32 = 31#5 by decide, and_all5] using this
    · have := congrArg opcodeOf h
      simpa [opcodeOf_and, show opcodeOf 0xf00fffff#32 = 127#7 by decide, and_all7] using this
  · rintro ⟨rfl, rfl, rfl, rfl, rfl⟩
    rw [← encI_fence_fields (w &&& 0xf00fffff#32)]
    simp [fenceModeOf_and, predOf_and, succOf_and, rs1Of_and, func3Of_and, rdOf_and, opcodeOf_and,
      show fenceModeOf 0xf00fffff#32 = 15#4 by decide, show predOf 0xf00fffff#32 = 0#4 by decide, show succOf 0xf00fffff#32 = 0#4 by decide, show rs1Of 0xf00fffff#32 = 31#5 by decide, show func3Of 0xf00fffff#32 = 7#3 by decide, show rdOf 0xf00fffff#32 = 31#5 by decide, show opcodeOf 0xf00fffff#32 = 127#7 by decide,
      and_all3, and_all4, and_all5, and_all7]

theorem mask_all (w : InstrWord) : w &&& 0xffffffff#32 = w := BitVec.and_allOnes

/-! ### The encoder, one instruction at a time (R67) -/

@[simp] theorem encode_add (rd rs1 rs2 : Reg) :
    encode (.add rd rs1 rs2) = encR 0b0000000#7 rs2 rs1 0b000#3 rd 0b0110011#7 := rfl
@[simp] theorem encode_sub (rd rs1 rs2 : Reg) :
    encode (.sub rd rs1 rs2) = encR 0b0100000#7 rs2 rs1 0b000#3 rd 0b0110011#7 := rfl
@[simp] theorem encode_sll (rd rs1 rs2 : Reg) :
    encode (.sll rd rs1 rs2) = encR 0b0000000#7 rs2 rs1 0b001#3 rd 0b0110011#7 := rfl
@[simp] theorem encode_srl (rd rs1 rs2 : Reg) :
    encode (.srl rd rs1 rs2) = encR 0b0000000#7 rs2 rs1 0b101#3 rd 0b0110011#7 := rfl
@[simp] theorem encode_sra (rd rs1 rs2 : Reg) :
    encode (.sra rd rs1 rs2) = encR 0b0100000#7 rs2 rs1 0b101#3 rd 0b0110011#7 := rfl
@[simp] theorem encode_slt (rd rs1 rs2 : Reg) :
    encode (.slt rd rs1 rs2) = encR 0b0000000#7 rs2 rs1 0b010#3 rd 0b0110011#7 := rfl
@[simp] theorem encode_sltu (rd rs1 rs2 : Reg) :
    encode (.sltu rd rs1 rs2) = encR 0b0000000#7 rs2 rs1 0b011#3 rd 0b0110011#7 := rfl
@[simp] theorem encode_and (rd rs1 rs2 : Reg) :
    encode (.and rd rs1 rs2) = encR 0b0000000#7 rs2 rs1 0b111#3 rd 0b0110011#7 := rfl
@[simp] theorem encode_or (rd rs1 rs2 : Reg) :
    encode (.or rd rs1 rs2) = encR 0b0000000#7 rs2 rs1 0b110#3 rd 0b0110011#7 := rfl
@[simp] theorem encode_xor (rd rs1 rs2 : Reg) :
    encode (.xor rd rs1 rs2) = encR 0b0000000#7 rs2 rs1 0b100#3 rd 0b0110011#7 := rfl
@[simp] theorem encode_addw (rd rs1 rs2 : Reg) :
    encode (.addw rd rs1 rs2) = encR 0b0000000#7 rs2 rs1 0b000#3 rd 0b0111011#7 := rfl
@[simp] theorem encode_subw (rd rs1 rs2 : Reg) :
    encode (.subw rd rs1 rs2) = encR 0b0100000#7 rs2 rs1 0b000#3 rd 0b0111011#7 := rfl
@[simp] theorem encode_sllw (rd rs1 rs2 : Reg) :
    encode (.sllw rd rs1 rs2) = encR 0b0000000#7 rs2 rs1 0b001#3 rd 0b0111011#7 := rfl
@[simp] theorem encode_srlw (rd rs1 rs2 : Reg) :
    encode (.srlw rd rs1 rs2) = encR 0b0000000#7 rs2 rs1 0b101#3 rd 0b0111011#7 := rfl
@[simp] theorem encode_sraw (rd rs1 rs2 : Reg) :
    encode (.sraw rd rs1 rs2) = encR 0b0100000#7 rs2 rs1 0b101#3 rd 0b0111011#7 := rfl
@[simp] theorem encode_lui (rd : Reg) (imm20 : BitVec 20) :
    encode (.lui rd imm20) = encU imm20 rd 0b0110111#7 := rfl
@[simp] theorem encode_auipc (rd : Reg) (imm20 : BitVec 20) :
    encode (.auipc rd imm20) = encU imm20 rd 0b0010111#7 := rfl
@[simp] theorem encode_jal (rd : Reg) (offset : BitVec 21) :
    encode (.jal rd offset) = encJ offset rd 0b1101111#7 := rfl
@[simp] theorem encode_sb (rs2 rs1 : Reg) (imm : BitVec 12) :
    encode (.sb rs2 rs1 imm) = encS imm rs2 rs1 0b000#3 0b0100011#7 := rfl
@[simp] theorem encode_sh (rs2 rs1 : Reg) (imm : BitVec 12) :
    encode (.sh rs2 rs1 imm) = encS imm rs2 rs1 0b001#3 0b0100011#7 := rfl
@[simp] theorem encode_sw (rs2 rs1 : Reg) (imm : BitVec 12) :
    encode (.sw rs2 rs1 imm) = encS imm rs2 rs1 0b010#3 0b0100011#7 := rfl
@[simp] theorem encode_sd (rs2 rs1 : Reg) (imm : BitVec 12) :
    encode (.sd rs2 rs1 imm) = encS imm rs2 rs1 0b011#3 0b0100011#7 := rfl
@[simp] theorem encode_beq (rs1 rs2 : Reg) (offset : BitVec 13) :
    encode (.beq rs1 rs2 offset) = encB offset rs2 rs1 0b000#3 0b1100011#7 := rfl
@[simp] theorem encode_bne (rs1 rs2 : Reg) (offset : BitVec 13) :
    encode (.bne rs1 rs2 offset) = encB offset rs2 rs1 0b001#3 0b1100011#7 := rfl
@[simp] theorem encode_blt (rs1 rs2 : Reg) (offset : BitVec 13) :
    encode (.blt rs1 rs2 offset) = encB offset rs2 rs1 0b100#3 0b1100011#7 := rfl
@[simp] theorem encode_bltu (rs1 rs2 : Reg) (offset : BitVec 13) :
    encode (.bltu rs1 rs2 offset) = encB offset rs2 rs1 0b110#3 0b1100011#7 := rfl
@[simp] theorem encode_bge (rs1 rs2 : Reg) (offset : BitVec 13) :
    encode (.bge rs1 rs2 offset) = encB offset rs2 rs1 0b101#3 0b1100011#7 := rfl
@[simp] theorem encode_bgeu (rs1 rs2 : Reg) (offset : BitVec 13) :
    encode (.bgeu rs1 rs2 offset) = encB offset rs2 rs1 0b111#3 0b1100011#7 := rfl
@[simp] theorem encode_addi (rd rs1 : Reg) (imm : BitVec 12) :
    encode (.addi rd rs1 imm) = encI imm rs1 0b000#3 rd 0b0010011#7 := rfl
@[simp] theorem encode_slti (rd rs1 : Reg) (imm : BitVec 12) :
    encode (.slti rd rs1 imm) = encI imm rs1 0b010#3 rd 0b0010011#7 := rfl
@[simp] theorem encode_sltiu (rd rs1 : Reg) (imm : BitVec 12) :
    encode (.sltiu rd rs1 imm) = encI imm rs1 0b011#3 rd 0b0010011#7 := rfl
@[simp] theorem encode_andi (rd rs1 : Reg) (imm : BitVec 12) :
    encode (.andi rd rs1 imm) = encI imm rs1 0b111#3 rd 0b0010011#7 := rfl
@[simp] theorem encode_ori (rd rs1 : Reg) (imm : BitVec 12) :
    encode (.ori rd rs1 imm) = encI imm rs1 0b110#3 rd 0b0010011#7 := rfl
@[simp] theorem encode_xori (rd rs1 : Reg) (imm : BitVec 12) :
    encode (.xori rd rs1 imm) = encI imm rs1 0b100#3 rd 0b0010011#7 := rfl
@[simp] theorem encode_slli (rd rs1 : Reg) (shamt : BitVec 6) :
    encode (.slli rd rs1 shamt) = encI (0b000000#6 ++ shamt) rs1 0b001#3 rd 0b0010011#7 := rfl
@[simp] theorem encode_srli (rd rs1 : Reg) (shamt : BitVec 6) :
    encode (.srli rd rs1 shamt) = encI (0b000000#6 ++ shamt) rs1 0b101#3 rd 0b0010011#7 := rfl
@[simp] theorem encode_srai (rd rs1 : Reg) (shamt : BitVec 6) :
    encode (.srai rd rs1 shamt) = encI (0b010000#6 ++ shamt) rs1 0b101#3 rd 0b0010011#7 := rfl
@[simp] theorem encode_csrrw (rd : Reg) (csr : CsrAddr) (rs1 : Reg) :
    encode (.csrrw rd csr rs1) = encI csr rs1 0b001#3 rd 0b1110011#7 := rfl
@[simp] theorem encode_csrrs (rd : Reg) (csr : CsrAddr) (rs1 : Reg) :
    encode (.csrrs rd csr rs1) = encI csr rs1 0b010#3 rd 0b1110011#7 := rfl
@[simp] theorem encode_csrrc (rd : Reg) (csr : CsrAddr) (rs1 : Reg) :
    encode (.csrrc rd csr rs1) = encI csr rs1 0b011#3 rd 0b1110011#7 := rfl
@[simp] theorem encode_csrrwi (rd : Reg) (csr : CsrAddr) (zimm : BitVec 5) :
    encode (.csrrwi rd csr zimm) = encI csr zimm 0b101#3 rd 0b1110011#7 := rfl
@[simp] theorem encode_csrrsi (rd : Reg) (csr : CsrAddr) (zimm : BitVec 5) :
    encode (.csrrsi rd csr zimm) = encI csr zimm 0b110#3 rd 0b1110011#7 := rfl
@[simp] theorem encode_csrrci (rd : Reg) (csr : CsrAddr) (zimm : BitVec 5) :
    encode (.csrrci rd csr zimm) = encI csr zimm 0b111#3 rd 0b1110011#7 := rfl
@[simp] theorem encode_lb (rd rs1 : Reg) (imm : BitVec 12) :
    encode (.lb rd rs1 imm) = encI imm rs1 0b000#3 rd 0b0000011#7 := rfl
@[simp] theorem encode_lh (rd rs1 : Reg) (imm : BitVec 12) :
    encode (.lh rd rs1 imm) = encI imm rs1 0b001#3 rd 0b0000011#7 := rfl
@[simp] theorem encode_lw (rd rs1 : Reg) (imm : BitVec 12) :
    encode (.lw rd rs1 imm) = encI imm rs1 0b010#3 rd 0b0000011#7 := rfl
@[simp] theorem encode_lbu (rd rs1 : Reg) (imm : BitVec 12) :
    encode (.lbu rd rs1 imm) = encI imm rs1 0b100#3 rd 0b0000011#7 := rfl
@[simp] theorem encode_lhu (rd rs1 : Reg) (imm : BitVec 12) :
    encode (.lhu rd rs1 imm) = encI imm rs1 0b101#3 rd 0b0000011#7 := rfl
@[simp] theorem encode_jalr (rd rs1 : Reg) (imm : BitVec 12) :
    encode (.jalr rd rs1 imm) = encI imm rs1 0b000#3 rd 0b1100111#7 := rfl
@[simp] theorem encode_ecall :
    encode (.ecall) = encI 0b000000000000#12 0#5 0b000#3 0#5 0b1110011#7 := rfl
@[simp] theorem encode_ebreak :
    encode (.ebreak) = encI 0b000000000001#12 0#5 0b000#3 0#5 0b1110011#7 := rfl
@[simp] theorem encode_fence (pred succ : BitVec 4) :
    encode (.fence pred succ) = encI (0b0000#4 ++ pred ++ succ) 0#5 0b000#3 0#5 0b0001111#7 := rfl
@[simp] theorem encode_fenceI :
    encode (.fenceI) = encI 0#12 0#5 0b001#3 0#5 0b0001111#7 := rfl
@[simp] theorem encode_addiw (rd rs1 : Reg) (imm : BitVec 12) :
    encode (.addiw rd rs1 imm) = encI imm rs1 0b000#3 rd 0b0011011#7 := rfl
@[simp] theorem encode_slliw (rd rs1 : Reg) (shamt : BitVec 5) :
    encode (.slliw rd rs1 shamt) = encI (0b0000000#7 ++ shamt) rs1 0b001#3 rd 0b0011011#7 := rfl
@[simp] theorem encode_srliw (rd rs1 : Reg) (shamt : BitVec 5) :
    encode (.srliw rd rs1 shamt) = encI (0b0000000#7 ++ shamt) rs1 0b101#3 rd 0b0011011#7 := rfl
@[simp] theorem encode_sraiw (rd rs1 : Reg) (shamt : BitVec 5) :
    encode (.sraiw rd rs1 shamt) = encI (0b0100000#7 ++ shamt) rs1 0b101#3 rd 0b0011011#7 := rfl
@[simp] theorem encode_lwu (rd rs1 : Reg) (imm : BitVec 12) :
    encode (.lwu rd rs1 imm) = encI imm rs1 0b110#3 rd 0b0000011#7 := rfl
@[simp] theorem encode_ld (rd rs1 : Reg) (imm : BitVec 12) :
    encode (.ld rd rs1 imm) = encI imm rs1 0b011#3 rd 0b0000011#7 := rfl
@[simp] theorem encode_uret :
    encode (.uret) = encI 0b000000000010#12 0#5 0b000#3 0#5 0b1110011#7 := rfl
@[simp] theorem encode_mret :
    encode (.mret) = encI 0b001100000010#12 0#5 0b000#3 0#5 0b1110011#7 := rfl
@[simp] theorem encode_sret :
    encode (.sret) = encI 0b000100000010#12 0#5 0b000#3 0#5 0b1110011#7 := rfl
@[simp] theorem encode_sfenceVma (rd rs1 rs2 : Reg) :
    encode (.sfenceVma rd rs1 rs2) = encR 0b0001001#7 rs2 rs1 0b000#3 rd 0b1110011#7 := rfl
@[simp] theorem encode_wfi :
    encode (.wfi) = encR 0b0001000#7 0b00101#5 0#5 0b000#3 0#5 0b1110011#7 := rfl
@[simp] theorem encode_div (rd rs1 rs2 : Reg) :
    encode (.div rd rs1 rs2) = encR 0b0000001#7 rs2 rs1 0b100#3 rd 0b0110011#7 := rfl
@[simp] theorem encode_divu (rd rs1 rs2 : Reg) :
    encode (.divu rd rs1 rs2) = encR 0b0000001#7 rs2 rs1 0b101#3 rd 0b0110011#7 := rfl
@[simp] theorem encode_mul (rd rs1 rs2 : Reg) :
    encode (.mul rd rs1 rs2) = encR 0b0000001#7 rs2 rs1 0b000#3 rd 0b0110011#7 := rfl
@[simp] theorem encode_mulh (rd rs1 rs2 : Reg) :
    encode (.mulh rd rs1 rs2) = encR 0b0000001#7 rs2 rs1 0b001#3 rd 0b0110011#7 := rfl
@[simp] theorem encode_mulhsu (rd rs1 rs2 : Reg) :
    encode (.mulhsu rd rs1 rs2) = encR 0b0000001#7 rs2 rs1 0b010#3 rd 0b0110011#7 := rfl
@[simp] theorem encode_mulhu (rd rs1 rs2 : Reg) :
    encode (.mulhu rd rs1 rs2) = encR 0b0000001#7 rs2 rs1 0b011#3 rd 0b0110011#7 := rfl
@[simp] theorem encode_rem (rd rs1 rs2 : Reg) :
    encode (.rem rd rs1 rs2) = encR 0b0000001#7 rs2 rs1 0b110#3 rd 0b0110011#7 := rfl
@[simp] theorem encode_remu (rd rs1 rs2 : Reg) :
    encode (.remu rd rs1 rs2) = encR 0b0000001#7 rs2 rs1 0b111#3 rd 0b0110011#7 := rfl
@[simp] theorem encode_mulw (rd rs1 rs2 : Reg) :
    encode (.mulw rd rs1 rs2) = encR 0b0000001#7 rs2 rs1 0b000#3 rd 0b0111011#7 := rfl
@[simp] theorem encode_divw (rd rs1 rs2 : Reg) :
    encode (.divw rd rs1 rs2) = encR 0b0000001#7 rs2 rs1 0b100#3 rd 0b0111011#7 := rfl
@[simp] theorem encode_divuw (rd rs1 rs2 : Reg) :
    encode (.divuw rd rs1 rs2) = encR 0b0000001#7 rs2 rs1 0b101#3 rd 0b0111011#7 := rfl
@[simp] theorem encode_remw (rd rs1 rs2 : Reg) :
    encode (.remw rd rs1 rs2) = encR 0b0000001#7 rs2 rs1 0b110#3 rd 0b0111011#7 := rfl
@[simp] theorem encode_remuw (rd rs1 rs2 : Reg) :
    encode (.remuw rd rs1 rs2) = encR 0b0000001#7 rs2 rs1 0b111#3 rd 0b0111011#7 := rfl

end Sys2Proof
end

