-- ==== Sys2Proof/Laws/Exec.lean ====
section
/-! SUPPORT. What `exec` calls for each instruction, true by `rfl`, so that no proof unfolds the dispatch. -/

namespace Sys2Proof.Machine

theorem exec_add (rd rs1 rs2 : Reg) (s : State) : exec (.add rd rs1 rs2) s = execAdd rd rs1 rs2 s := rfl

theorem exec_sub (rd rs1 rs2 : Reg) (s : State) : exec (.sub rd rs1 rs2) s = execSub rd rs1 rs2 s := rfl

theorem exec_sll (rd rs1 rs2 : Reg) (s : State) : exec (.sll rd rs1 rs2) s = execSll rd rs1 rs2 s := rfl

theorem exec_srl (rd rs1 rs2 : Reg) (s : State) : exec (.srl rd rs1 rs2) s = execSrl rd rs1 rs2 s := rfl

theorem exec_sra (rd rs1 rs2 : Reg) (s : State) : exec (.sra rd rs1 rs2) s = execSra rd rs1 rs2 s := rfl

theorem exec_slt (rd rs1 rs2 : Reg) (s : State) : exec (.slt rd rs1 rs2) s = execSlt rd rs1 rs2 s := rfl

theorem exec_sltu (rd rs1 rs2 : Reg) (s : State) : exec (.sltu rd rs1 rs2) s = execSltu rd rs1 rs2 s := rfl

theorem exec_and (rd rs1 rs2 : Reg) (s : State) : exec (.and rd rs1 rs2) s = execAnd rd rs1 rs2 s := rfl

theorem exec_or (rd rs1 rs2 : Reg) (s : State) : exec (.or rd rs1 rs2) s = execOr rd rs1 rs2 s := rfl

theorem exec_xor (rd rs1 rs2 : Reg) (s : State) : exec (.xor rd rs1 rs2) s = execXor rd rs1 rs2 s := rfl

theorem exec_addw (rd rs1 rs2 : Reg) (s : State) : exec (.addw rd rs1 rs2) s = execAddw rd rs1 rs2 s := rfl

theorem exec_subw (rd rs1 rs2 : Reg) (s : State) : exec (.subw rd rs1 rs2) s = execSubw rd rs1 rs2 s := rfl

theorem exec_sllw (rd rs1 rs2 : Reg) (s : State) : exec (.sllw rd rs1 rs2) s = execSllw rd rs1 rs2 s := rfl

theorem exec_srlw (rd rs1 rs2 : Reg) (s : State) : exec (.srlw rd rs1 rs2) s = execSrlw rd rs1 rs2 s := rfl

theorem exec_sraw (rd rs1 rs2 : Reg) (s : State) : exec (.sraw rd rs1 rs2) s = execSraw rd rs1 rs2 s := rfl

theorem exec_lui (rd : Reg) (imm20 : BitVec 20) (s : State) :
    exec (.lui rd imm20) s = execLui rd imm20 s := rfl

theorem exec_auipc (rd : Reg) (imm20 : BitVec 20) (s : State) :
    exec (.auipc rd imm20) s = execAuipc rd imm20 s := rfl

theorem exec_jal (rd : Reg) (offset : BitVec 21) (s : State) :
    exec (.jal rd offset) s = execJal rd offset s := rfl

theorem exec_sb (rs2 rs1 : Reg) (imm : BitVec 12) (s : State) :
    exec (.sb rs2 rs1 imm) s = execSb rs2 rs1 imm s := rfl

theorem exec_sh (rs2 rs1 : Reg) (imm : BitVec 12) (s : State) :
    exec (.sh rs2 rs1 imm) s = execSh rs2 rs1 imm s := rfl

theorem exec_sw (rs2 rs1 : Reg) (imm : BitVec 12) (s : State) :
    exec (.sw rs2 rs1 imm) s = execSw rs2 rs1 imm s := rfl

theorem exec_sd (rs2 rs1 : Reg) (imm : BitVec 12) (s : State) :
    exec (.sd rs2 rs1 imm) s = execSd rs2 rs1 imm s := rfl

theorem exec_beq (rs1 rs2 : Reg) (offset : BitVec 13) (s : State) :
    exec (.beq rs1 rs2 offset) s = execBeq rs1 rs2 offset s := rfl

theorem exec_bne (rs1 rs2 : Reg) (offset : BitVec 13) (s : State) :
    exec (.bne rs1 rs2 offset) s = execBne rs1 rs2 offset s := rfl

theorem exec_blt (rs1 rs2 : Reg) (offset : BitVec 13) (s : State) :
    exec (.blt rs1 rs2 offset) s = execBlt rs1 rs2 offset s := rfl

theorem exec_bltu (rs1 rs2 : Reg) (offset : BitVec 13) (s : State) :
    exec (.bltu rs1 rs2 offset) s = execBltu rs1 rs2 offset s := rfl

theorem exec_bge (rs1 rs2 : Reg) (offset : BitVec 13) (s : State) :
    exec (.bge rs1 rs2 offset) s = execBge rs1 rs2 offset s := rfl

theorem exec_bgeu (rs1 rs2 : Reg) (offset : BitVec 13) (s : State) :
    exec (.bgeu rs1 rs2 offset) s = execBgeu rs1 rs2 offset s := rfl

theorem exec_addi (rd rs1 : Reg) (imm : BitVec 12) (s : State) :
    exec (.addi rd rs1 imm) s = execAddi rd rs1 imm s := rfl

theorem exec_slti (rd rs1 : Reg) (imm : BitVec 12) (s : State) :
    exec (.slti rd rs1 imm) s = execSlti rd rs1 imm s := rfl

theorem exec_sltiu (rd rs1 : Reg) (imm : BitVec 12) (s : State) :
    exec (.sltiu rd rs1 imm) s = execSltiu rd rs1 imm s := rfl

theorem exec_andi (rd rs1 : Reg) (imm : BitVec 12) (s : State) :
    exec (.andi rd rs1 imm) s = execAndi rd rs1 imm s := rfl

theorem exec_ori (rd rs1 : Reg) (imm : BitVec 12) (s : State) :
    exec (.ori rd rs1 imm) s = execOri rd rs1 imm s := rfl

theorem exec_xori (rd rs1 : Reg) (imm : BitVec 12) (s : State) :
    exec (.xori rd rs1 imm) s = execXori rd rs1 imm s := rfl

theorem exec_slli (rd rs1 : Reg) (shamt : BitVec 6) (s : State) :
    exec (.slli rd rs1 shamt) s = execSlli rd rs1 shamt s := rfl

theorem exec_srli (rd rs1 : Reg) (shamt : BitVec 6) (s : State) :
    exec (.srli rd rs1 shamt) s = execSrli rd rs1 shamt s := rfl

theorem exec_srai (rd rs1 : Reg) (shamt : BitVec 6) (s : State) :
    exec (.srai rd rs1 shamt) s = execSrai rd rs1 shamt s := rfl

theorem exec_csrrw (rd : Reg) (csr : CsrAddr) (rs1 : Reg) (s : State) :
    exec (.csrrw rd csr rs1) s = execCsrrw rd csr rs1 s := rfl

theorem exec_csrrs (rd : Reg) (csr : CsrAddr) (rs1 : Reg) (s : State) :
    exec (.csrrs rd csr rs1) s = execCsrrs rd csr rs1 s := rfl

theorem exec_csrrc (rd : Reg) (csr : CsrAddr) (rs1 : Reg) (s : State) :
    exec (.csrrc rd csr rs1) s = execCsrrc rd csr rs1 s := rfl

theorem exec_csrrwi (rd : Reg) (csr : CsrAddr) (zimm : BitVec 5) (s : State) :
    exec (.csrrwi rd csr zimm) s = execCsrrwi rd csr zimm s := rfl

theorem exec_csrrsi (rd : Reg) (csr : CsrAddr) (zimm : BitVec 5) (s : State) :
    exec (.csrrsi rd csr zimm) s = execCsrrsi rd csr zimm s := rfl

theorem exec_csrrci (rd : Reg) (csr : CsrAddr) (zimm : BitVec 5) (s : State) :
    exec (.csrrci rd csr zimm) s = execCsrrci rd csr zimm s := rfl

theorem exec_lb (rd rs1 : Reg) (imm : BitVec 12) (s : State) :
    exec (.lb rd rs1 imm) s = execLb rd rs1 imm s := rfl

theorem exec_lh (rd rs1 : Reg) (imm : BitVec 12) (s : State) :
    exec (.lh rd rs1 imm) s = execLh rd rs1 imm s := rfl

theorem exec_lw (rd rs1 : Reg) (imm : BitVec 12) (s : State) :
    exec (.lw rd rs1 imm) s = execLw rd rs1 imm s := rfl

theorem exec_lbu (rd rs1 : Reg) (imm : BitVec 12) (s : State) :
    exec (.lbu rd rs1 imm) s = execLbu rd rs1 imm s := rfl

theorem exec_lhu (rd rs1 : Reg) (imm : BitVec 12) (s : State) :
    exec (.lhu rd rs1 imm) s = execLhu rd rs1 imm s := rfl

theorem exec_jalr (rd rs1 : Reg) (imm : BitVec 12) (s : State) :
    exec (.jalr rd rs1 imm) s = execJalr rd rs1 imm s := rfl

theorem exec_ecall (s : State) : exec .ecall s = execEcall s := rfl

theorem exec_ebreak (s : State) : exec .ebreak s = execEbreak s := rfl

theorem exec_fence (pred succ : BitVec 4) (s : State) :
    exec (.fence pred succ) s = execFence pred succ s := rfl

theorem exec_fenceI (s : State) : exec .fenceI s = execFenceI s := rfl

theorem exec_addiw (rd rs1 : Reg) (imm : BitVec 12) (s : State) :
    exec (.addiw rd rs1 imm) s = execAddiw rd rs1 imm s := rfl

theorem exec_slliw (rd rs1 : Reg) (shamt : BitVec 5) (s : State) :
    exec (.slliw rd rs1 shamt) s = execSlliw rd rs1 shamt s := rfl

theorem exec_srliw (rd rs1 : Reg) (shamt : BitVec 5) (s : State) :
    exec (.srliw rd rs1 shamt) s = execSrliw rd rs1 shamt s := rfl

theorem exec_sraiw (rd rs1 : Reg) (shamt : BitVec 5) (s : State) :
    exec (.sraiw rd rs1 shamt) s = execSraiw rd rs1 shamt s := rfl

theorem exec_lwu (rd rs1 : Reg) (imm : BitVec 12) (s : State) :
    exec (.lwu rd rs1 imm) s = execLwu rd rs1 imm s := rfl

theorem exec_ld (rd rs1 : Reg) (imm : BitVec 12) (s : State) :
    exec (.ld rd rs1 imm) s = execLd rd rs1 imm s := rfl

theorem exec_uret (s : State) : exec .uret s = execUret s := rfl

theorem exec_mret (s : State) : exec .mret s = execMret s := rfl

theorem exec_sret (s : State) : exec .sret s = execSret s := rfl

theorem exec_sfenceVma (rd rs1 rs2 : Reg) (s : State) :
    exec (.sfenceVma rd rs1 rs2) s = execSfenceVma rd rs1 rs2 s := rfl

theorem exec_wfi (s : State) : exec .wfi s = execWfi s := rfl

theorem exec_div (rd rs1 rs2 : Reg) (s : State) : exec (.div rd rs1 rs2) s = execDiv rd rs1 rs2 s := rfl

theorem exec_divu (rd rs1 rs2 : Reg) (s : State) : exec (.divu rd rs1 rs2) s = execDivu rd rs1 rs2 s := rfl

theorem exec_mul (rd rs1 rs2 : Reg) (s : State) : exec (.mul rd rs1 rs2) s = execMul rd rs1 rs2 s := rfl

theorem exec_mulh (rd rs1 rs2 : Reg) (s : State) : exec (.mulh rd rs1 rs2) s = execMulh rd rs1 rs2 s := rfl

theorem exec_mulhsu (rd rs1 rs2 : Reg) (s : State) :
    exec (.mulhsu rd rs1 rs2) s = execMulhsu rd rs1 rs2 s := rfl

theorem exec_mulhu (rd rs1 rs2 : Reg) (s : State) : exec (.mulhu rd rs1 rs2) s = execMulhu rd rs1 rs2 s := rfl

theorem exec_rem (rd rs1 rs2 : Reg) (s : State) : exec (.rem rd rs1 rs2) s = execRem rd rs1 rs2 s := rfl

theorem exec_remu (rd rs1 rs2 : Reg) (s : State) : exec (.remu rd rs1 rs2) s = execRemu rd rs1 rs2 s := rfl

theorem exec_mulw (rd rs1 rs2 : Reg) (s : State) : exec (.mulw rd rs1 rs2) s = execMulw rd rs1 rs2 s := rfl

theorem exec_divw (rd rs1 rs2 : Reg) (s : State) : exec (.divw rd rs1 rs2) s = execDivw rd rs1 rs2 s := rfl

theorem exec_divuw (rd rs1 rs2 : Reg) (s : State) : exec (.divuw rd rs1 rs2) s = execDivuw rd rs1 rs2 s := rfl

theorem exec_remw (rd rs1 rs2 : Reg) (s : State) : exec (.remw rd rs1 rs2) s = execRemw rd rs1 rs2 s := rfl

theorem exec_remuw (rd rs1 rs2 : Reg) (s : State) : exec (.remuw rd rs1 rs2) s = execRemuw rd rs1 rs2 s := rfl

end Sys2Proof.Machine
end

