-- ==== Sys2Proof/Laws/PerInstr.lean ====
section
/-! SUPPORT. Statements about every instruction, made instruction by instruction. -/

namespace Sys2Proof.Laws

/-! ### When a row selects a word, said with formats -/

theorem selects_encR {f7 : BitVec 7} {rs2 rs1 : Reg} {f3 : BitVec 3} {rd : Reg} {op : BitVec 7}
    {bits : InstrWord} (hb : encR f7 0#5 0#5 f3 0#5 op = bits) :
    OpcodeRow.selects ⟨0xfe00707f#32, bits⟩ (encR f7 rs2 rs1 f3 rd op) = true := by
  simp only [OpcodeRow.selects, beq_iff_eq]
  rw [← hb]
  exact (mask_func7_func3_opcode _ f7 f3 op).2 (by simp)

theorem selects_encI_shift5 {f7 : BitVec 7} {shamt : BitVec 5} {rs1 : Reg} {f3 : BitVec 3} {rd : Reg}
    {op : BitVec 7} {bits : InstrWord} (hb : encR f7 0#5 0#5 f3 0#5 op = bits) :
    OpcodeRow.selects ⟨0xfe00707f#32, bits⟩ (encI (f7 ++ shamt) rs1 f3 rd op) = true := by
  simp only [OpcodeRow.selects, beq_iff_eq]
  rw [← hb]
  exact (mask_func7_func3_opcode _ f7 f3 op).2 (by simp [func7Of_shift])

theorem selects_encI_shift6 {f6 shamt : BitVec 6} {rs1 : Reg} {f3 : BitVec 3} {rd : Reg}
    {op : BitVec 7} {bits : InstrWord} (hb : encI (f6 ++ 0#6) 0#5 f3 0#5 op = bits) :
    OpcodeRow.selects ⟨0xfc00707f#32, bits⟩ (encI (f6 ++ shamt) rs1 f3 rd op) = true := by
  simp only [OpcodeRow.selects, beq_iff_eq]
  rw [← hb]
  exact (mask_func6_func3_opcode _ f6 f3 op).2 (by simp [func6Of_shift])

theorem selects_func3 {w bits : InstrWord} {f3 : BitVec 3} {op : BitVec 7}
    (hb : encR 0#7 0#5 0#5 f3 0#5 op = bits) (h3 : func3Of w = f3) (hop : opcodeOf w = op) :
    OpcodeRow.selects ⟨0x0000707f#32, bits⟩ w = true := by
  simp only [OpcodeRow.selects, beq_iff_eq]
  rw [← hb]
  exact (mask_func3_opcode w f3 op).2 ⟨h3, hop⟩

theorem selects_opcode {w bits : InstrWord} {op : BitVec 7}
    (hb : encR 0#7 0#5 0#5 0#3 0#5 op = bits) (hop : opcodeOf w = op) :
    OpcodeRow.selects ⟨0x0000007f#32, bits⟩ w = true := by
  simp only [OpcodeRow.selects, beq_iff_eq]
  rw [← hb]
  exact (mask_opcode w op).2 hop

theorem selects_all {w : InstrWord} : OpcodeRow.selects ⟨0xffffffff#32, w⟩ w = true := by
  simp [OpcodeRow.selects, mask_all]

end Sys2Proof.Laws

/-! ### Every instruction's encoding is selected by its own row of the opcode table (30_encoding.md R67) -/

namespace Sys2Proof.Laws.EncodeSelectsRow

/-- The row of an instruction selects the word the encoder gives it. -/
def Statement (i : Instr) : Prop :=
  ∀ p : Params, (i.opcodeRow p).selects (encode i) = true

theorem add (rd rs1 rs2 : Reg) : Statement (.add rd rs1 rs2) := fun _ => selects_encR rfl

theorem sub (rd rs1 rs2 : Reg) : Statement (.sub rd rs1 rs2) := fun _ => selects_encR rfl

theorem sll (rd rs1 rs2 : Reg) : Statement (.sll rd rs1 rs2) := fun _ => selects_encR rfl

theorem srl (rd rs1 rs2 : Reg) : Statement (.srl rd rs1 rs2) := fun _ => selects_encR rfl

theorem sra (rd rs1 rs2 : Reg) : Statement (.sra rd rs1 rs2) := fun _ => selects_encR rfl

theorem slt (rd rs1 rs2 : Reg) : Statement (.slt rd rs1 rs2) := fun _ => selects_encR rfl

theorem sltu (rd rs1 rs2 : Reg) : Statement (.sltu rd rs1 rs2) := fun _ => selects_encR rfl

theorem and (rd rs1 rs2 : Reg) : Statement (.and rd rs1 rs2) := fun _ => selects_encR rfl

theorem or (rd rs1 rs2 : Reg) : Statement (.or rd rs1 rs2) := fun _ => selects_encR rfl

theorem xor (rd rs1 rs2 : Reg) : Statement (.xor rd rs1 rs2) := fun _ => selects_encR rfl

theorem addw (rd rs1 rs2 : Reg) : Statement (.addw rd rs1 rs2) := fun _ => selects_encR rfl

theorem subw (rd rs1 rs2 : Reg) : Statement (.subw rd rs1 rs2) := fun _ => selects_encR rfl

theorem sllw (rd rs1 rs2 : Reg) : Statement (.sllw rd rs1 rs2) := fun _ => selects_encR rfl

theorem srlw (rd rs1 rs2 : Reg) : Statement (.srlw rd rs1 rs2) := fun _ => selects_encR rfl

theorem sraw (rd rs1 rs2 : Reg) : Statement (.sraw rd rs1 rs2) := fun _ => selects_encR rfl

theorem lui (rd : Reg) (imm20 : BitVec 20) : Statement (.lui rd imm20) := fun _ => selects_opcode rfl (opcodeOf_encU ..)

theorem auipc (rd : Reg) (imm20 : BitVec 20) : Statement (.auipc rd imm20) := fun _ => selects_opcode rfl (opcodeOf_encU ..)

theorem jal (rd : Reg) (offset : BitVec 21) : Statement (.jal rd offset) := fun _ => selects_opcode rfl (opcodeOf_encJ ..)

theorem sb (rs2 rs1 : Reg) (imm : BitVec 12) : Statement (.sb rs2 rs1 imm) :=
  fun _ => selects_func3 rfl (func3Of_encS ..) (opcodeOf_encS ..)

theorem sh (rs2 rs1 : Reg) (imm : BitVec 12) : Statement (.sh rs2 rs1 imm) :=
  fun _ => selects_func3 rfl (func3Of_encS ..) (opcodeOf_encS ..)

theorem sw (rs2 rs1 : Reg) (imm : BitVec 12) : Statement (.sw rs2 rs1 imm) :=
  fun _ => selects_func3 rfl (func3Of_encS ..) (opcodeOf_encS ..)

theorem sd (rs2 rs1 : Reg) (imm : BitVec 12) : Statement (.sd rs2 rs1 imm) :=
  fun _ => selects_func3 rfl (func3Of_encS ..) (opcodeOf_encS ..)

theorem beq (rs1 rs2 : Reg) (offset : BitVec 13) : Statement (.beq rs1 rs2 offset) :=
  fun _ => selects_func3 rfl (func3Of_encB ..) (opcodeOf_encB ..)

theorem bne (rs1 rs2 : Reg) (offset : BitVec 13) : Statement (.bne rs1 rs2 offset) :=
  fun _ => selects_func3 rfl (func3Of_encB ..) (opcodeOf_encB ..)

theorem blt (rs1 rs2 : Reg) (offset : BitVec 13) : Statement (.blt rs1 rs2 offset) :=
  fun _ => selects_func3 rfl (func3Of_encB ..) (opcodeOf_encB ..)

theorem bltu (rs1 rs2 : Reg) (offset : BitVec 13) : Statement (.bltu rs1 rs2 offset) :=
  fun _ => selects_func3 rfl (func3Of_encB ..) (opcodeOf_encB ..)

theorem bge (rs1 rs2 : Reg) (offset : BitVec 13) : Statement (.bge rs1 rs2 offset) :=
  fun _ => selects_func3 rfl (func3Of_encB ..) (opcodeOf_encB ..)

theorem bgeu (rs1 rs2 : Reg) (offset : BitVec 13) : Statement (.bgeu rs1 rs2 offset) :=
  fun _ => selects_func3 rfl (func3Of_encB ..) (opcodeOf_encB ..)

theorem addi (rd rs1 : Reg) (imm : BitVec 12) : Statement (.addi rd rs1 imm) :=
  fun _ => selects_func3 rfl (func3Of_encI ..) (opcodeOf_encI ..)

theorem slti (rd rs1 : Reg) (imm : BitVec 12) : Statement (.slti rd rs1 imm) :=
  fun _ => selects_func3 rfl (func3Of_encI ..) (opcodeOf_encI ..)

theorem sltiu (rd rs1 : Reg) (imm : BitVec 12) : Statement (.sltiu rd rs1 imm) :=
  fun _ => selects_func3 rfl (func3Of_encI ..) (opcodeOf_encI ..)

theorem andi (rd rs1 : Reg) (imm : BitVec 12) : Statement (.andi rd rs1 imm) :=
  fun _ => selects_func3 rfl (func3Of_encI ..) (opcodeOf_encI ..)

theorem ori (rd rs1 : Reg) (imm : BitVec 12) : Statement (.ori rd rs1 imm) :=
  fun _ => selects_func3 rfl (func3Of_encI ..) (opcodeOf_encI ..)

theorem xori (rd rs1 : Reg) (imm : BitVec 12) : Statement (.xori rd rs1 imm) :=
  fun _ => selects_func3 rfl (func3Of_encI ..) (opcodeOf_encI ..)

theorem slli (rd rs1 : Reg) (shamt : BitVec 6) : Statement (.slli rd rs1 shamt) := fun _ => selects_encI_shift6 rfl

theorem srli (rd rs1 : Reg) (shamt : BitVec 6) : Statement (.srli rd rs1 shamt) := fun _ => selects_encI_shift6 rfl

theorem srai (rd rs1 : Reg) (shamt : BitVec 6) : Statement (.srai rd rs1 shamt) := fun _ => selects_encI_shift6 rfl

theorem csrrw (rd : Reg) (csr : CsrAddr) (rs1 : Reg) : Statement (.csrrw rd csr rs1) :=
  fun _ => selects_func3 rfl (func3Of_encI ..) (opcodeOf_encI ..)

theorem csrrs (rd : Reg) (csr : CsrAddr) (rs1 : Reg) : Statement (.csrrs rd csr rs1) :=
  fun _ => selects_func3 rfl (func3Of_encI ..) (opcodeOf_encI ..)

theorem csrrc (rd : Reg) (csr : CsrAddr) (rs1 : Reg) : Statement (.csrrc rd csr rs1) :=
  fun _ => selects_func3 rfl (func3Of_encI ..) (opcodeOf_encI ..)

theorem csrrwi (rd : Reg) (csr : CsrAddr) (zimm : BitVec 5) : Statement (.csrrwi rd csr zimm) :=
  fun _ => selects_func3 rfl (func3Of_encI ..) (opcodeOf_encI ..)

theorem csrrsi (rd : Reg) (csr : CsrAddr) (zimm : BitVec 5) : Statement (.csrrsi rd csr zimm) :=
  fun _ => selects_func3 rfl (func3Of_encI ..) (opcodeOf_encI ..)

theorem csrrci (rd : Reg) (csr : CsrAddr) (zimm : BitVec 5) : Statement (.csrrci rd csr zimm) :=
  fun _ => selects_func3 rfl (func3Of_encI ..) (opcodeOf_encI ..)

theorem lb (rd rs1 : Reg) (imm : BitVec 12) : Statement (.lb rd rs1 imm) :=
  fun _ => selects_func3 rfl (func3Of_encI ..) (opcodeOf_encI ..)

theorem lh (rd rs1 : Reg) (imm : BitVec 12) : Statement (.lh rd rs1 imm) :=
  fun _ => selects_func3 rfl (func3Of_encI ..) (opcodeOf_encI ..)

theorem lw (rd rs1 : Reg) (imm : BitVec 12) : Statement (.lw rd rs1 imm) :=
  fun _ => selects_func3 rfl (func3Of_encI ..) (opcodeOf_encI ..)

theorem lbu (rd rs1 : Reg) (imm : BitVec 12) : Statement (.lbu rd rs1 imm) :=
  fun _ => selects_func3 rfl (func3Of_encI ..) (opcodeOf_encI ..)

theorem lhu (rd rs1 : Reg) (imm : BitVec 12) : Statement (.lhu rd rs1 imm) :=
  fun _ => selects_func3 rfl (func3Of_encI ..) (opcodeOf_encI ..)

theorem jalr (rd rs1 : Reg) (imm : BitVec 12) : Statement (.jalr rd rs1 imm) :=
  fun _ => selects_func3 rfl (func3Of_encI ..) (opcodeOf_encI ..)

theorem ecall : Statement .ecall := fun _ => selects_all

theorem ebreak : Statement .ebreak := fun _ => selects_all

theorem fence (pred succ : BitVec 4) : Statement (.fence pred succ) := by
  intro p
  simp only [Instr.opcodeRow]
  split
  · simp only [OpcodeRow.selects, beq_iff_eq]
    exact (mask_fence _ 0#4 0#5 0b000#3 0#5 0b0001111#7).2 (by simp [fenceModeOf_shift])
  · exact selects_func3 rfl (func3Of_encI ..) (opcodeOf_encI ..)

theorem fenceI : Statement .fenceI := by
  intro p
  simp only [Instr.opcodeRow]
  split
  · exact selects_all
  · exact selects_func3 rfl (func3Of_encI ..) (opcodeOf_encI ..)

theorem addiw (rd rs1 : Reg) (imm : BitVec 12) : Statement (.addiw rd rs1 imm) :=
  fun _ => selects_func3 rfl (func3Of_encI ..) (opcodeOf_encI ..)

theorem slliw (rd rs1 : Reg) (shamt : BitVec 5) : Statement (.slliw rd rs1 shamt) := fun _ => selects_encI_shift5 rfl

theorem srliw (rd rs1 : Reg) (shamt : BitVec 5) : Statement (.srliw rd rs1 shamt) := fun _ => selects_encI_shift5 rfl

theorem sraiw (rd rs1 : Reg) (shamt : BitVec 5) : Statement (.sraiw rd rs1 shamt) := fun _ => selects_encI_shift5 rfl

theorem lwu (rd rs1 : Reg) (imm : BitVec 12) : Statement (.lwu rd rs1 imm) :=
  fun _ => selects_func3 rfl (func3Of_encI ..) (opcodeOf_encI ..)

theorem ld (rd rs1 : Reg) (imm : BitVec 12) : Statement (.ld rd rs1 imm) :=
  fun _ => selects_func3 rfl (func3Of_encI ..) (opcodeOf_encI ..)

theorem uret : Statement .uret := fun _ => selects_all

theorem mret : Statement .mret := fun _ => selects_all

theorem sret : Statement .sret := fun _ => selects_all

theorem sfenceVma (rd rs1 rs2 : Reg) : Statement (.sfenceVma rd rs1 rs2) := fun _ => selects_encR rfl

theorem wfi : Statement .wfi := fun _ => selects_all

theorem div (rd rs1 rs2 : Reg) : Statement (.div rd rs1 rs2) := fun _ => selects_encR rfl

theorem divu (rd rs1 rs2 : Reg) : Statement (.divu rd rs1 rs2) := fun _ => selects_encR rfl

theorem mul (rd rs1 rs2 : Reg) : Statement (.mul rd rs1 rs2) := fun _ => selects_encR rfl

theorem mulh (rd rs1 rs2 : Reg) : Statement (.mulh rd rs1 rs2) := fun _ => selects_encR rfl

theorem mulhsu (rd rs1 rs2 : Reg) : Statement (.mulhsu rd rs1 rs2) := fun _ => selects_encR rfl

theorem mulhu (rd rs1 rs2 : Reg) : Statement (.mulhu rd rs1 rs2) := fun _ => selects_encR rfl

theorem rem (rd rs1 rs2 : Reg) : Statement (.rem rd rs1 rs2) := fun _ => selects_encR rfl

theorem remu (rd rs1 rs2 : Reg) : Statement (.remu rd rs1 rs2) := fun _ => selects_encR rfl

theorem mulw (rd rs1 rs2 : Reg) : Statement (.mulw rd rs1 rs2) := fun _ => selects_encR rfl

theorem divw (rd rs1 rs2 : Reg) : Statement (.divw rd rs1 rs2) := fun _ => selects_encR rfl

theorem divuw (rd rs1 rs2 : Reg) : Statement (.divuw rd rs1 rs2) := fun _ => selects_encR rfl

theorem remw (rd rs1 rs2 : Reg) : Statement (.remw rd rs1 rs2) := fun _ => selects_encR rfl

theorem remuw (rd rs1 rs2 : Reg) : Statement (.remuw rd rs1 rs2) := fun _ => selects_encR rfl

end Sys2Proof.Laws.EncodeSelectsRow
end

