-- ==== Sys2Proof/Tests/Slice0.lean ====
section
/-! SUPPORT. Tests: the smoke test of well-formedness, every constructor's word written out from the spec's
encoding tables, one or two steps of each instruction, and a witness for every statement with hypotheses.
Words and results are those of 95_test_vectors.md and of the rules named. -/

namespace Sys2Proof.Tests

open Sys2Proof.Machine

/-! ### Well-formedness: each check refuses an ill-formed term -/

theorem test_wf_refuses_odd_offsets :
    (Instr.beq 1#5 2#5 1#13).wf = false ∧ (Instr.bne 1#5 2#5 1#13).wf = false ∧
      (Instr.blt 1#5 2#5 1#13).wf = false ∧ (Instr.bltu 1#5 2#5 1#13).wf = false ∧
      (Instr.bge 1#5 2#5 1#13).wf = false ∧ (Instr.bgeu 1#5 2#5 1#13).wf = false ∧
      (Instr.jal 1#5 1#21).wf = false := by decide

theorem test_wf_admits_extreme_offsets :
    (Instr.beq 1#5 2#5 0x1000#13).wf = true ∧ (Instr.bgeu 1#5 2#5 0xffe#13).wf = true ∧
      (Instr.jal 1#5 0x100000#21).wf = true ∧ (Instr.jal 1#5 0xffffe#21).wf = true := by decide

theorem test_params_wf_refuses_misaligned_reset : ({ Params.default with resetPc := 0x1002#64 } : Params).wf =
        false := by decide

theorem test_params_wf_refuses_readonly_csr_that_does_not_exist :
    ({ Params.default with csrReadonly := [0xf11#12] } : Params).wf = false := by decide

theorem test_params_wf_refuses_memory_beyond_the_address_space :
    ({ Params.default with memValid := [⟨0, 2 ^ 64⟩] } : Params).wf = false := by decide

theorem test_params_wf_default : Params.default.wf = true := by decide

/-- `CAUSE_CODE`: the table of 60_exceptions.md R222, its rows in the table's order. -/
theorem test_cause_code_default :
    [Machine.Cause.instructionAddressMisaligned, .instructionAccessFault, .illegalInstruction, .breakpoint,
      .loadAddressMisaligned, .loadAccessFault, .storeAddressMisaligned, .storeAccessFault,
      .environmentCall].map (Machine.Cause.number Params.default) = [0, 1, 2, 3, 4, 5, 6, 7, 11] := by decide

/-- Another `CAUSE_CODE`: an environment call numbered 8, as 60_exceptions.md R222 numbers it from U mode. -/
theorem test_cause_code_is_a_parameter :
    (Machine.Fault.trapped .environmentCall 0#64 0#64).number
      { Params.default with causeCodes := { CauseCodes.default with environmentCall := 8 } } = 8 := by decide

/-! ### The parameters of the tests -/

/-- The parameters of 95_test_vectors.md part 2. -/
def params : Params :=
  { Params.default with
    memValid := [⟨0x1000, 0x10ff⟩, ⟨0x2000, 0x203f⟩], csrSet := [0x340#12, 0xf11#12], csrReadonly := [0xf11#12] }

/-- The same with `RV64M_FULL`. -/
def full : Params :=
  { params with rv64mFull := true }

/-! ### Decoding: the words of 30_encoding.md R67 and 49_rv64m.md, the fields apart -/

theorem test_decode_r_type :
    decode Params.default 0b0000000_00010_00001_000_00011_0110011#32 = .instr (.add 3#5 1#5 2#5) ∧
    decode Params.default 0b0100000_00010_00001_000_00011_0110011#32 = .instr (.sub 3#5 1#5 2#5) ∧
    decode Params.default 0b0000000_00010_00001_001_00011_0110011#32 = .instr (.sll 3#5 1#5 2#5) ∧
    decode Params.default 0b0000000_00010_00001_101_00011_0110011#32 = .instr (.srl 3#5 1#5 2#5) ∧
    decode Params.default 0b0100000_00010_00001_101_00011_0110011#32 = .instr (.sra 3#5 1#5 2#5) ∧
    decode Params.default 0b0000000_00010_00001_010_00011_0110011#32 = .instr (.slt 3#5 1#5 2#5) ∧
    decode Params.default 0b0000000_00010_00001_011_00011_0110011#32 = .instr (.sltu 3#5 1#5 2#5) ∧
    decode Params.default 0b0000000_00010_00001_111_00011_0110011#32 = .instr (.and 3#5 1#5 2#5) ∧
    decode Params.default 0b0000000_00010_00001_110_00011_0110011#32 = .instr (.or 3#5 1#5 2#5) ∧
    decode Params.default 0b0000000_00010_00001_100_00011_0110011#32 = .instr (.xor 3#5 1#5 2#5) := by decide

theorem test_decode_r_type_word :
    decode Params.default 0b0000000_00010_00001_000_00011_0111011#32 = .instr (.addw 3#5 1#5 2#5) ∧
    decode Params.default 0b0100000_00010_00001_000_00011_0111011#32 = .instr (.subw 3#5 1#5 2#5) ∧
    decode Params.default 0b0000000_00010_00001_001_00011_0111011#32 = .instr (.sllw 3#5 1#5 2#5) ∧
    decode Params.default 0b0000000_00010_00001_101_00011_0111011#32 = .instr (.srlw 3#5 1#5 2#5) ∧
    decode Params.default 0b0100000_00010_00001_101_00011_0111011#32 = .instr (.sraw 3#5 1#5 2#5) := by decide

theorem test_decode_u_and_j_type :
    decode Params.default 0b00010010001101000101_00101_0110111#32 = .instr (.lui 5#5 0x12345#20) ∧
    decode Params.default 0b10000000000000000000_00101_0010111#32 = .instr (.auipc 5#5 0x80000#20) ∧
    decode Params.default 0b1_1111111100_1_11111111_00001_1101111#32 = .instr (.jal 1#5 (BitVec.ofInt 21 (-8))) ∧
    decode Params.default 0b0_1111111111_1_11111111_00001_1101111#32 = .instr (.jal 1#5 1048574#21) := by decide

theorem test_decode_s_type :
    decode Params.default 0b1111111_00010_00001_000_10000_0100011#32 =
        .instr (.sb 2#5 1#5 (BitVec.ofInt 12 (-16))) ∧
    decode Params.default 0b1111111_00010_00001_001_10000_0100011#32 =
        .instr (.sh 2#5 1#5 (BitVec.ofInt 12 (-16))) ∧
    decode Params.default 0b1111111_00010_00001_010_10000_0100011#32 =
        .instr (.sw 2#5 1#5 (BitVec.ofInt 12 (-16))) ∧
    decode Params.default 0b1111111_00010_00001_011_10000_0100011#32 =
        .instr (.sd 2#5 1#5 (BitVec.ofInt 12 (-16))) ∧
    decode Params.default 0b0111111_00010_00001_000_11111_0100011#32 = .instr (.sb 2#5 1#5 2047#12) := by decide

theorem test_decode_b_type :
    decode Params.default 0b1_111111_00010_00001_000_1000_1_1100011#32 =
        .instr (.beq 1#5 2#5 (BitVec.ofInt 13 (-16))) ∧
    decode Params.default 0b1_111111_00010_00001_001_1000_1_1100011#32 =
        .instr (.bne 1#5 2#5 (BitVec.ofInt 13 (-16))) ∧
    decode Params.default 0b1_111111_00010_00001_100_1000_1_1100011#32 =
        .instr (.blt 1#5 2#5 (BitVec.ofInt 13 (-16))) ∧
    decode Params.default 0b1_111111_00010_00001_110_1000_1_1100011#32 =
        .instr (.bltu 1#5 2#5 (BitVec.ofInt 13 (-16))) ∧
    decode Params.default 0b1_111111_00010_00001_101_1000_1_1100011#32 =
        .instr (.bge 1#5 2#5 (BitVec.ofInt 13 (-16))) ∧
    decode Params.default 0b1_111111_00010_00001_111_1000_1_1100011#32 =
        .instr (.bgeu 1#5 2#5 (BitVec.ofInt 13 (-16))) ∧
    decode Params.default 0b0_111111_00010_00001_000_1111_1_1100011#32 = .instr (.beq 1#5 2#5 4094#13) ∧
    decode Params.default 0b0_000000_00010_00001_000_0000_1_1100011#32 = .instr (.beq 1#5 2#5 2048#13) := by decide

theorem test_decode_i_type_alu :
    decode Params.default 0b111111111001_00001_000_00011_0010011#32 =
        .instr (.addi 3#5 1#5 (BitVec.ofInt 12 (-7))) ∧
    decode Params.default 0b111111111001_00001_010_00011_0010011#32 =
        .instr (.slti 3#5 1#5 (BitVec.ofInt 12 (-7))) ∧
    decode Params.default 0b111111111001_00001_011_00011_0010011#32 =
        .instr (.sltiu 3#5 1#5 (BitVec.ofInt 12 (-7))) ∧
    decode Params.default 0b111111111001_00001_111_00011_0010011#32 =
        .instr (.andi 3#5 1#5 (BitVec.ofInt 12 (-7))) ∧
    decode Params.default 0b111111111001_00001_110_00011_0010011#32 =
        .instr (.ori 3#5 1#5 (BitVec.ofInt 12 (-7))) ∧
    decode Params.default 0b111111111001_00001_100_00011_0010011#32 =
        .instr (.xori 3#5 1#5 (BitVec.ofInt 12 (-7))) := by decide

theorem test_decode_i_type_shifts :
    decode Params.default 0b000000_111111_00001_001_00011_0010011#32 = .instr (.slli 3#5 1#5 63#6) ∧
    decode Params.default 0b000000_100000_00001_101_00011_0010011#32 = .instr (.srli 3#5 1#5 32#6) ∧
    decode Params.default 0b010000_111111_00001_101_00011_0010011#32 = .instr (.srai 3#5 1#5 63#6) := by decide

theorem test_decode_i_type_word :
    decode Params.default 0b111111111111_00001_000_00011_0011011#32 =
        .instr (.addiw 3#5 1#5 (BitVec.ofInt 12 (-1))) ∧
    decode Params.default 0b0000000_11111_00001_001_00011_0011011#32 = .instr (.slliw 3#5 1#5 31#5) ∧
    decode Params.default 0b0000000_11111_00001_101_00011_0011011#32 = .instr (.srliw 3#5 1#5 31#5) ∧
    decode Params.default 0b0100000_00011_00001_101_00011_0011011#32 = .instr (.sraiw 3#5 1#5 3#5) := by decide

theorem test_decode_csr :
    decode Params.default 0b001101000000_11110_001_00011_1110011#32 = .instr (.csrrw 3#5 0x340#12 30#5) ∧
    decode Params.default 0b001101000000_11110_010_00011_1110011#32 = .instr (.csrrs 3#5 0x340#12 30#5) ∧
    decode Params.default 0b001101000000_11110_011_00011_1110011#32 = .instr (.csrrc 3#5 0x340#12 30#5) ∧
    decode Params.default 0b001101000000_11110_101_00011_1110011#32 = .instr (.csrrwi 3#5 0x340#12 30#5) ∧
    decode Params.default 0b001101000000_11110_110_00011_1110011#32 = .instr (.csrrsi 3#5 0x340#12 30#5) ∧
    decode Params.default 0b001101000000_11110_111_00011_1110011#32 =
        .instr (.csrrci 3#5 0x340#12 30#5) := by decide

theorem test_decode_loads_and_jalr :
    decode Params.default 0b000000001100_00001_000_00011_0000011#32 = .instr (.lb 3#5 1#5 12#12) ∧
    decode Params.default 0b000000001100_00001_001_00011_0000011#32 = .instr (.lh 3#5 1#5 12#12) ∧
    decode Params.default 0b000000001100_00001_010_00011_0000011#32 = .instr (.lw 3#5 1#5 12#12) ∧
    decode Params.default 0b000000001100_00001_100_00011_0000011#32 = .instr (.lbu 3#5 1#5 12#12) ∧
    decode Params.default 0b000000001100_00001_101_00011_0000011#32 = .instr (.lhu 3#5 1#5 12#12) ∧
    decode Params.default 0b000000001100_00001_110_00011_0000011#32 = .instr (.lwu 3#5 1#5 12#12) ∧
    decode Params.default 0b000000001100_00001_011_00011_0000011#32 = .instr (.ld 3#5 1#5 12#12) ∧
    decode Params.default 0b111111111100_00001_000_00011_1100111#32 =
        .instr (.jalr 3#5 1#5 (BitVec.ofInt 12 (-4))) := by decide

theorem test_decode_system :
    decode Params.default 0b000000000000_00000_000_00000_1110011#32 = .instr (.ecall) ∧
    decode Params.default 0b000000000001_00000_000_00000_1110011#32 = .instr (.ebreak) ∧
    decode Params.default 0b0000_0011_0001_00000_000_00000_0001111#32 = .instr (.fence 0b0011#4 0b0001#4) ∧
    decode Params.default 0b000000000000_00000_001_00000_0001111#32 = .instr (.fenceI) ∧
    decode Params.default 0b000000000010_00000_000_00000_1110011#32 = .instr (.uret) ∧
    decode Params.default 0b001100000010_00000_000_00000_1110011#32 = .instr (.mret) ∧
    decode Params.default 0b000100000010_00000_000_00000_1110011#32 = .instr (.sret) ∧
    decode Params.default 0b0001000_00101_00000_000_00000_1110011#32 = .instr (.wfi) ∧
    decode Params.default 0b0001001_00110_00101_000_00001_1110011#32 = .instr (.sfenceVma 1#5 5#5 6#5) := by decide

theorem test_decode_div :
    decode Params.default 0b0000001_00010_00001_100_00011_0110011#32 = .instr (.div 3#5 1#5 2#5) ∧
    decode Params.default 0b0000001_00010_00001_101_00011_0110011#32 = .instr (.divu 3#5 1#5 2#5) := by decide

theorem test_decode_rv64m_full :
    decode full 0b0000001_00010_00001_000_00011_0110011#32 = .instr (.mul 3#5 1#5 2#5) ∧
    decode full 0b0000001_00010_00001_001_00011_0110011#32 = .instr (.mulh 3#5 1#5 2#5) ∧
    decode full 0b0000001_00010_00001_010_00011_0110011#32 = .instr (.mulhsu 3#5 1#5 2#5) ∧
    decode full 0b0000001_00010_00001_011_00011_0110011#32 = .instr (.mulhu 3#5 1#5 2#5) ∧
    decode full 0b0000001_00010_00001_110_00011_0110011#32 = .instr (.rem 3#5 1#5 2#5) ∧
    decode full 0b0000001_00010_00001_111_00011_0110011#32 = .instr (.remu 3#5 1#5 2#5) ∧
    decode full 0b0000001_00010_00001_000_00011_0111011#32 = .instr (.mulw 3#5 1#5 2#5) ∧
    decode full 0b0000001_00010_00001_100_00011_0111011#32 = .instr (.divw 3#5 1#5 2#5) ∧
    decode full 0b0000001_00010_00001_101_00011_0111011#32 = .instr (.divuw 3#5 1#5 2#5) ∧
    decode full 0b0000001_00010_00001_110_00011_0111011#32 = .instr (.remw 3#5 1#5 2#5) ∧
    decode full 0b0000001_00010_00001_111_00011_0111011#32 = .instr (.remuw 3#5 1#5 2#5) := by decide

theorem test_decode_refuses_system_words :
    decode Params.default 0x00300073#32 = .illegal 0x00300073#32 ∧
      decode Params.default 0x10400073#32 = .illegal 0x10400073#32 ∧
      decode Params.default 0x7b200073#32 = .illegal 0x7b200073#32 ∧
      decode Params.default 0x00008073#32 = .illegal 0x00008073#32 ∧
      decode Params.default 0x00000473#32 = .illegal 0x00000473#32 ∧
      decode Params.default 0x00004073#32 = .illegal 0x00004073#32 := by decide

theorem test_decode_refuses_fence_words :
    decode Params.default 0x8330000f#32 = .illegal 0x8330000f#32 ∧
      decode Params.default 0x0000808f#32 = .illegal 0x0000808f#32 ∧
      decode Params.default 0x0010100f#32 = .illegal 0x0010100f#32 ∧
      decode Params.default 0x0000200f#32 = .illegal 0x0000200f#32 := by decide

theorem test_decode_refuses_unlisted_words :
    decode Params.default 0x022081b3#32 = .illegal 0x022081b3#32 ∧
      decode Params.default 0x0220c1bb#32 = .illegal 0x0220c1bb#32 ∧
      decode Params.default 0x00000000#32 = .illegal 0x00000000#32 ∧
      decode Params.default 0xffffffff#32 = .illegal 0xffffffff#32 ∧
      decode Params.default 0x00000001#32 = .illegal 0x00000001#32 ∧
      decode Params.default 0x00000053#32 = .illegal 0x00000053#32 ∧
      decode Params.default 0x0000202f#32 = .illegal 0x0000202f#32 := by decide

theorem test_decode_refuses_shift_words :
    decode Params.default 0x0200919b#32 = .illegal 0x0200919b#32 ∧
      decode Params.default 0x8000d193#32 = .illegal 0x8000d193#32 ∧
      decode Params.default 0x4000919b#32 = .illegal 0x4000919b#32 ∧
      decode Params.default 0x40009193#32 = .illegal 0x40009193#32 := by decide

theorem test_decode_ignores_the_reserved_fields_of_a_fence_that_is_not_strict :
    decode { Params.default with fenceStrict := false } 0x8330000f#32 = .instr (.fence 0b0011#4 0b0011#4) ∧
      decode { Params.default with fenceStrict := false } 0x0010100f#32 = .instr .fenceI := by decide

theorem test_encode_words_of_the_spec :
    encode (.sb 2#5 1#5 (BitVec.ofInt 12 (-16))) = 0xfe208823#32 ∧
      encode (.beq 0#5 0#5 (BitVec.ofInt 13 (-4096))) = 0x80000063#32 ∧
      encode (.jal 1#5 (BitVec.ofInt 21 (-1048576))) = 0x800000ef#32 ∧
      encode (.srai 3#5 1#5 60#6) = 0x43c0d193#32 ∧ encode .wfi = 0x10500073#32 ∧
      encode (.fence 0b0011#4 0b0011#4) = 0x0330000f#32 := by decide

/-! ### One step of each instruction, on the start state of 95_test_vectors.md part 2 -/

/-- The data of the load table: bytes 0x2000 to 0x200f. -/
def data : Memory :=
  [(0x2000, 0x88), (0x2001, 0x77), (0x2002, 0x66), (0x2003, 0x55), (0x2004, 0x44), (0x2005, 0x33),
    (0x2006, 0x22), (0x2007, 0x11), (0x2008, 0x80), (0x2009, 0xff), (0x200b, 0x80), (0x200c, 0xff),
    (0x200d, 0xff), (0x200e, 0xff), (0x200f, 0x7f)]

/-- A start state: a word at 0x1000, the data, two registers, the others 0xdead, two CSRs. -/
def start (p : Params) (w : InstrWord) (x1 x2 : Word) : State :=
  State.launch p (((Vector.replicate 32 0xdead#64).set 1 x1).set 2 x2) [(0x340, 0x1ff0#64), (0xf11, 0x1234#64)]
    (((accessBytes p.resetPc 4).zip (bytesOfWord w)).foldl (fun m e => m.writeByte e.1 e.2) data)

/-- Something read from the state after one step. -/
def afterStep {α : Type} (s : State) (f : State → α) : Option α :=
  match step s with
  | .next t => some (f t)
  | _ => none

/-- The exception, if a step raises one. -/
def trapOf (s : State) : Option Fault :=
  match step s with
  | .fault f => some f
  | _ => none

/-- The refusal, if a step is refused. -/
def refusalOf (s : State) : Option Refusal :=
  match step s with
  | .refused r => some r
  | _ => none

def regAfter (p : Params) (w : InstrWord) (x1 x2 : Word) (r : Reg) : Option Word :=
  afterStep (start p w x1 x2) (·.readReg r)

def pcAfter (w : InstrWord) (x1 x2 : Word) : Option Word :=
  afterStep (start params w x1 x2) (·.pc)

def csrAfter (w : InstrWord) (x1 : Word) (c : CsrAddr) : Option Word :=
  afterStep (start params w x1 0#64) (·.readCsr c)

def bytesAfter (p : Params) (w : InstrWord) (x1 x2 : Word) (as : List Nat) : Option (List Byte) :=
  afterStep (start p w x1 x2) fun t => as.map t.readByte

def dirtyAfter (w : InstrWord) (x1 x2 : Word) : Option (List Nat) :=
  afterStep (start params w x1 x2) (·.dirty)

theorem test_add :
    regAfter params 0x002081b3#32 0xffffffffffffffff#64 0xffffffffffffffff#64 3#5 =
        some 0xfffffffffffffffe#64 := by decide

theorem test_sub :
    regAfter params 0x402081b3#32 0x5#64 0x7#64 3#5 = some 0xfffffffffffffffe#64 := by decide

theorem test_sll :
    regAfter params 0x002091b3#32 0x1#64 0x40#64 3#5 = some 0x1#64 := by decide

theorem test_sll_again :
    regAfter params 0x002091b3#32 0xffffffffffffffff#64 0xffffffffffffffc4#64 3#5 =
        some 0xfffffffffffffff0#64 := by decide

theorem test_srl :
    regAfter params 0x0020d1b3#32 0xffffffffffffffff#64 0x4#64 3#5 = some 0xfffffffffffffff#64 := by decide

theorem test_srl_again :
    regAfter params 0x0020d1b3#32 0x8000000000000000#64 0x40#64 3#5 = some 0x8000000000000000#64 := by decide

theorem test_sra :
    regAfter params 0x4020d1b3#32 0x8000000000000000#64 0x4#64 3#5 = some 0xf800000000000000#64 := by decide

theorem test_sra_again :
    regAfter params 0x4020d1b3#32 0xfffffffffffffff0#64 0x42#64 3#5 = some 0xfffffffffffffffc#64 := by decide

theorem test_slt :
    regAfter params 0x0020a1b3#32 0xffffffffffffffff#64 0x1#64 3#5 = some 0x1#64 := by decide

theorem test_slt_again :
    regAfter params 0x0020a1b3#32 0x8000000000000000#64 0x7fffffffffffffff#64 3#5 = some 0x1#64 := by decide

theorem test_sltu :
    regAfter params 0x0020b1b3#32 0xffffffffffffffff#64 0x1#64 3#5 = some 0x0#64 := by decide

theorem test_sltu_again :
    regAfter params 0x0020b1b3#32 0x1#64 0xffffffffffffffff#64 3#5 = some 0x1#64 := by decide

theorem test_and :
    regAfter params 0x0020f1b3#32 0xff00ff00ff00ff00#64 0xff00ff00ff00ff0#64 3#5 =
        some 0xf000f000f000f00#64 := by decide

theorem test_or :
    regAfter params 0x0020e1b3#32 0xff00ff00ff00ff00#64 0xff00ff00ff00ff0#64 3#5 =
        some 0xfff0fff0fff0fff0#64 := by decide

theorem test_xor :
    regAfter params 0x0020c1b3#32 0xff00ff00ff00ff00#64 0xff00ff00ff00ff0#64 3#5 =
        some 0xf0f0f0f0f0f0f0f0#64 := by decide

theorem test_addw :
    regAfter params 0x002081bb#32 0x7fffffff#64 0x1#64 3#5 = some 0xffffffff80000000#64 := by decide

theorem test_addw_again :
    regAfter params 0x002081bb#32 0x1234567800000001#64 0xabcdef0000000002#64 3#5 = some 0x3#64 := by decide

theorem test_subw :
    regAfter params 0x402081bb#32 0x80000000#64 0x1#64 3#5 = some 0x7fffffff#64 := by decide

theorem test_subw_again :
    regAfter params 0x402081bb#32 0x100000000#64 0x1#64 3#5 = some 0xffffffffffffffff#64 := by decide

theorem test_sllw :
    regAfter params 0x002091bb#32 0x1#64 0x20#64 3#5 = some 0x1#64 := by decide

theorem test_sllw_again :
    regAfter params 0x002091bb#32 0x40000000#64 0x1#64 3#5 = some 0xffffffff80000000#64 := by decide

theorem test_srlw :
    regAfter params 0x0020d1bb#32 0xffffffff80000000#64 0x0#64 3#5 = some 0xffffffff80000000#64 := by decide

theorem test_srlw_again :
    regAfter params 0x0020d1bb#32 0xaaaaaaaaffffffff#64 0x4#64 3#5 = some 0xfffffff#64 := by decide

theorem test_sraw :
    regAfter params 0x4020d1bb#32 0x80000000#64 0x4#64 3#5 = some 0xfffffffff8000000#64 := by decide

theorem test_sraw_again :
    regAfter params 0x4020d1bb#32 0xffffffff00000010#64 0x24#64 3#5 = some 0x1#64 := by decide

theorem test_addi :
    regAfter params 0x80008193#32 0x0#64 0x0#64 3#5 = some 0xfffffffffffff800#64 := by decide

theorem test_addi_again :
    regAfter params 0x00108193#32 0x7fffffffffffffff#64 0x0#64 3#5 = some 0x8000000000000000#64 := by decide

theorem test_slti :
    regAfter params 0x0000a193#32 0xffffffffffffffff#64 0x0#64 3#5 = some 0x1#64 := by decide

theorem test_slti_again :
    regAfter params 0x8000a193#32 0x8000000000000000#64 0x0#64 3#5 = some 0x1#64 := by decide

theorem test_sltiu :
    regAfter params 0xfff0b193#32 0x0#64 0x0#64 3#5 = some 0x1#64 := by decide

theorem test_sltiu_again :
    regAfter params 0x8000b193#32 0xfffffffffffff7ff#64 0x0#64 3#5 = some 0x1#64 := by decide

theorem test_andi :
    regAfter params 0xf000f193#32 0x123456789abcdef0#64 0x0#64 3#5 = some 0x123456789abcde00#64 := by decide

theorem test_andi_again :
    regAfter params 0x7ff0f193#32 0xffffffffffffffff#64 0x0#64 3#5 = some 0x7ff#64 := by decide

theorem test_ori :
    regAfter params 0xfff0e193#32 0x0#64 0x0#64 3#5 = some 0xffffffffffffffff#64 := by decide

theorem test_ori_again :
    regAfter params 0x00f0e193#32 0x100#64 0x0#64 3#5 = some 0x10f#64 := by decide

theorem test_xori :
    regAfter params 0xfff0c193#32 0xf0f#64 0x0#64 3#5 = some 0xfffffffffffff0f0#64 := by decide

theorem test_xori_again :
    regAfter params 0x0f00c193#32 0xff#64 0x0#64 3#5 = some 0xf#64 := by decide

theorem test_addiw :
    regAfter params 0x0010819b#32 0x7fffffff#64 0x0#64 3#5 = some 0xffffffff80000000#64 := by decide

theorem test_addiw_again :
    regAfter params 0xfff0819b#32 0x80000000#64 0x0#64 3#5 = some 0x7fffffff#64 := by decide

theorem test_slli :
    regAfter params 0x03f09193#32 0x1#64 0x0#64 3#5 = some 0x8000000000000000#64 := by decide

theorem test_slli_again :
    regAfter params 0x02009193#32 0xffffffffffffffff#64 0x0#64 3#5 = some 0xffffffff00000000#64 := by decide

theorem test_srli :
    regAfter params 0x03f0d193#32 0x8000000000000000#64 0x0#64 3#5 = some 0x1#64 := by decide

theorem test_srli_again :
    regAfter params 0x0200d193#32 0xffffffffffffffff#64 0x0#64 3#5 = some 0xffffffff#64 := by decide

theorem test_srai :
    regAfter params 0x43f0d193#32 0x8000000000000000#64 0x0#64 3#5 = some 0xffffffffffffffff#64 := by decide

theorem test_srai_again :
    regAfter params 0x4010d193#32 0x7fffffffffffffff#64 0x0#64 3#5 = some 0x3fffffffffffffff#64 := by decide

theorem test_slliw :
    regAfter params 0x01f0919b#32 0x1#64 0x0#64 3#5 = some 0xffffffff80000000#64 := by decide

theorem test_slliw_again :
    regAfter params 0x01e0919b#32 0xffffffff00000003#64 0x0#64 3#5 = some 0xffffffffc0000000#64 := by decide

theorem test_srliw :
    regAfter params 0x0000d19b#32 0x80000000#64 0x0#64 3#5 = some 0xffffffff80000000#64 := by decide

theorem test_srliw_again :
    regAfter params 0x0010d19b#32 0xffffffffffffffff#64 0x0#64 3#5 = some 0x7fffffff#64 := by decide

theorem test_sraiw :
    regAfter params 0x4010d19b#32 0x80000000#64 0x0#64 3#5 = some 0xffffffffc0000000#64 := by decide

theorem test_sraiw_again :
    regAfter params 0x4030d19b#32 0xffffffff7fffffff#64 0x0#64 3#5 = some 0xfffffff#64 := by decide

theorem test_div :
    regAfter params 0x0220c1b3#32 0xffffffffffffffec#64 0x6#64 3#5 = some 0xfffffffffffffffd#64 := by decide

theorem test_div_again :
    regAfter params 0x0220c1b3#32 0x8000000000000000#64 0xffffffffffffffff#64 3#5 =
        some 0x8000000000000000#64 := by decide

theorem test_divu :
    regAfter params 0x0220d1b3#32 0xffffffffffffffec#64 0x6#64 3#5 = some 0x2aaaaaaaaaaaaaa7#64 := by decide

theorem test_divu_again :
    regAfter params 0x0220d1b3#32 0x7#64 0x0#64 3#5 = some 0xffffffffffffffff#64 := by decide

theorem test_mul :
    regAfter full 0x022081b3#32 0xffffffffffffffff#64 0xffffffffffffffff#64 3#5 = some 0x1#64 := by decide

theorem test_mulh :
    regAfter full 0x022091b3#32 0x8000000000000000#64 0x8000000000000000#64 3#5 =
        some 0x4000000000000000#64 := by decide

theorem test_mulh_again :
    regAfter full 0x022091b3#32 0xffffffffffffffff#64 0xffffffffffffffff#64 3#5 = some 0x0#64 := by decide

theorem test_mulhsu :
    regAfter full 0x0220a1b3#32 0xffffffffffffffff#64 0xffffffffffffffff#64 3#5 =
        some 0xffffffffffffffff#64 := by decide

theorem test_mulhsu_again :
    regAfter full 0x0220a1b3#32 0x8000000000000000#64 0xffffffffffffffff#64 3#5 =
        some 0x8000000000000000#64 := by decide

theorem test_mulhu :
    regAfter full 0x0220b1b3#32 0xffffffffffffffff#64 0xffffffffffffffff#64 3#5 =
        some 0xfffffffffffffffe#64 := by decide

theorem test_mulhu_again :
    regAfter full 0x0220b1b3#32 0x8000000000000000#64 0x2#64 3#5 = some 0x1#64 := by decide

theorem test_rem :
    regAfter full 0x0220e1b3#32 0xffffffffffffffec#64 0x6#64 3#5 = some 0xfffffffffffffffe#64 := by decide

theorem test_rem_again :
    regAfter full 0x0220e1b3#32 0x8000000000000000#64 0xffffffffffffffff#64 3#5 = some 0x0#64 := by decide

theorem test_remu :
    regAfter full 0x0220f1b3#32 0xffffffffffffffec#64 0x6#64 3#5 = some 0x2#64 := by decide

theorem test_remu_again :
    regAfter full 0x0220f1b3#32 0x7#64 0x0#64 3#5 = some 0x7#64 := by decide

theorem test_mulw :
    regAfter full 0x022081bb#32 0x8000#64 0x10000#64 3#5 = some 0xffffffff80000000#64 := by decide

theorem test_mulw_again :
    regAfter full 0x022081bb#32 0xffffffff#64 0xffffffff#64 3#5 = some 0x1#64 := by decide

theorem test_divw :
    regAfter full 0x0220c1bb#32 0x80000000#64 0xffffffffffffffff#64 3#5 = some 0xffffffff80000000#64 := by decide

theorem test_divw_again :
    regAfter full 0x0220c1bb#32 0xffffffec#64 0x6#64 3#5 = some 0xfffffffffffffffd#64 := by decide

theorem test_divuw :
    regAfter full 0x0220d1bb#32 0xffffffec#64 0x6#64 3#5 = some 0x2aaaaaa7#64 := by decide

theorem test_divuw_again :
    regAfter full 0x0220d1bb#32 0x80000000#64 0x1#64 3#5 = some 0xffffffff80000000#64 := by decide

theorem test_remw :
    regAfter full 0x0220e1bb#32 0xffffffff#64 0x0#64 3#5 = some 0xffffffffffffffff#64 := by decide

theorem test_remw_again :
    regAfter full 0x0220e1bb#32 0xffffffec#64 0x6#64 3#5 = some 0xfffffffffffffffe#64 := by decide

theorem test_remuw :
    regAfter full 0x0220f1bb#32 0x80000007#64 0x0#64 3#5 = some 0xffffffff80000007#64 := by decide

theorem test_remuw_again :
    regAfter full 0x0220f1bb#32 0xffffffec#64 0x6#64 3#5 = some 0x2#64 := by decide

theorem test_add_same_register : regAfter params 0x001080b3#32 0x4000000000000001#64 0#64 1#5 =
        some 0x8000000000000002#64 := by decide

theorem test_sub_to_x0 : regAfter params 0x40208033#32 5#64 7#64 0#5 = some 0#64 := by decide

theorem test_lui : regAfter params 0x800002b7#32 0#64 0#64 5#5 = some 0xffffffff80000000#64 := by decide

theorem test_lui_again : regAfter params 0x7ffff2b7#32 0#64 0#64 5#5 = some 0x7ffff000#64 := by decide

theorem test_auipc : regAfter params 0x80000297#32 0#64 0#64 5#5 = some 0xffffffff80001000#64 := by decide

theorem test_auipc_again : regAfter params 0xfffff297#32 0#64 0#64 5#5 = some 0#64 := by decide

theorem test_jal : regAfter params 0xffdff0ef#32 0#64 0#64 1#5 = some 0x1004#64 ∧
    pcAfter 0xffdff0ef#32 0#64 0#64 = some 0xffc#64 := by decide

theorem test_jal_misaligned : trapOf (start params 0x002000ef#32 0xdead#64 0#64) =
    some (.trapped .instructionAddressMisaligned 0x1000#64 0x1002#64) := by decide

theorem test_jalr_reads_before_it_writes : regAfter params 0x000080e7#32 0x2000#64 0#64 1#5 = some 0x1004#64 ∧
    pcAfter 0x000080e7#32 0x2000#64 0#64 = some 0x2000#64 := by decide

theorem test_jalr_clears_bit_0 : pcAfter 0x7ff082e7#32 0x2001#64 0#64 = some 0x2800#64 ∧
    trapOf (start params 0x003082e7#32 0x2000#64 0#64) =
      some (.trapped .instructionAddressMisaligned 0x1000#64 0x2002#64) := by decide

theorem test_sb : bytesAfter params 0xfe208823#32 0x2010#64 0x1122334455667788#64 [0x2000, 0x2001] =
        some [0x88, 0x77] ∧
    dirtyAfter 0xfe208823#32 0x2010#64 0x1122334455667788#64 = some [0x2000] := by decide

theorem test_sh : bytesAfter params 0x00209123#32 0x2010#64 0x1122334455667788#64 [0x2011, 0x2012, 0x2013,
        0x2014] = some [0, 0x88, 0x77, 0] ∧
    dirtyAfter 0x00209123#32 0x2010#64 0x1122334455667788#64 = some [0x2012, 0x2013] := by decide

theorem test_sw : bytesAfter params 0x0020a223#32 0x2010#64 0x1122334455667788#64 [0x2013, 0x2014, 0x2015,
        0x2016, 0x2017, 0x2018] = some [0, 0x88, 0x77, 0x66, 0x55, 0] ∧
    dirtyAfter 0x0020a223#32 0x2010#64 0x1122334455667788#64 = some [0x2014, 0x2015, 0x2016, 0x2017] := by decide

theorem test_sd : bytesAfter params 0xfe20bc23#32 0x2010#64 0x1122334455667788#64 [0x2007, 0x2008, 0x2009,
        0x200a, 0x200b, 0x200c, 0x200d, 0x200e, 0x200f, 0x2010] =
        some [0x11, 0x88, 0x77, 0x66, 0x55, 0x44, 0x33, 0x22, 0x11, 0] ∧
    dirtyAfter 0xfe20bc23#32 0x2010#64 0x1122334455667788#64 = some [0x2008, 0x2009, 0x200a, 0x200b, 0x200c,
        0x200d, 0x200e, 0x200f] := by decide

theorem test_sd_big_endian :
    bytesAfter { params with byteOrder := .big } 0xfe20bc23#32 0x2010#64 0x1122334455667788#64
      [0x2008, 0x2009, 0x200a, 0x200b, 0x200c, 0x200d, 0x200e, 0x200f] =
      some [0x11, 0x22, 0x33, 0x44, 0x55, 0x66, 0x77, 0x88] := by decide

theorem test_sh_misaligned : trapOf (start params 0x002090a3#32 0x2010#64 0x1122334455667788#64) =
    some (.trapped .storeAddressMisaligned 0x1000#64 0x2011#64) := by decide

theorem test_sb_outside_memory : trapOf (start params 0x02208823#32 0x2010#64 0x1122334455667788#64) =
    some (.trapped .storeAccessFault 0x1000#64 0x2040#64) := by decide

theorem test_beq_taken : pcAfter 0x00108863#32 0xffffffffffffffff#64 1#64 = some 0x1010#64 := by decide

theorem test_beq_not_taken : pcAfter 0x00208863#32 0xffffffffffffffff#64 1#64 = some 0x1004#64 := by decide

theorem test_bne_taken : pcAfter 0xfe2098e3#32 0xffffffffffffffff#64 1#64 = some 0xff0#64 := by decide

theorem test_bne_not_taken : pcAfter 0x00211863#32 0xffffffffffffffff#64 1#64 = some 0x1004#64 := by decide

theorem test_blt_taken : pcAfter 0x0020c863#32 0xffffffffffffffff#64 1#64 = some 0x1010#64 := by decide

theorem test_bltu_taken : pcAfter 0x00116863#32 0xffffffffffffffff#64 1#64 = some 0x1010#64 := by decide

theorem test_bltu_not_taken : pcAfter 0x0020e863#32 0xffffffffffffffff#64 1#64 = some 0x1004#64 := by decide

theorem test_bge_taken : pcAfter 0x00115863#32 0xffffffffffffffff#64 1#64 = some 0x1010#64 := by decide

theorem test_bge_not_taken : pcAfter 0x0020d863#32 0xffffffffffffffff#64 1#64 = some 0x1004#64 := by decide

theorem test_bgeu_taken : pcAfter 0x0020f863#32 0xffffffffffffffff#64 1#64 = some 0x1010#64 := by decide

theorem test_bgeu_not_taken : pcAfter 0x00117863#32 0xffffffffffffffff#64 1#64 = some 0x1004#64 := by decide

theorem test_blt_to_a_misaligned_target : trapOf (start params 0xfe20cfe3#32 0xffffffffffffffff#64 1#64) =
    some (.trapped .instructionAddressMisaligned 0x1000#64 0xffe#64) := by decide

theorem test_lb : regAfter params 0x00008183#32 0x2008#64 0#64 3#5 = some 0xffffffffffffff80#64 := by decide

theorem test_lbu : regAfter params 0x0000c183#32 0x2008#64 0#64 3#5 = some 0x80#64 := by decide

theorem test_lh : regAfter params 0x00209183#32 0x2008#64 0#64 3#5 = some 0xffffffffffff8000#64 := by decide

theorem test_lh_again : regAfter params 0xff809183#32 0x2008#64 0#64 3#5 = some 0x7788#64 := by decide

theorem test_lhu : regAfter params 0x0000d183#32 0x2008#64 0#64 3#5 = some 0xff80#64 := by decide

theorem test_lw : regAfter params 0x0000a183#32 0x2008#64 0#64 3#5 = some 0xffffffff8000ff80#64 := by decide

theorem test_lwu : regAfter params 0x0000e183#32 0x2008#64 0#64 3#5 = some 0x8000ff80#64 := by decide

theorem test_ld : regAfter params 0xff80b183#32 0x2008#64 0#64 3#5 = some 0x1122334455667788#64 := by decide

theorem test_ld_again : regAfter params 0x0000b183#32 0x2008#64 0#64 3#5 = some 0x7fffffff8000ff80#64 := by decide

theorem test_lwu_misaligned : trapOf (start params 0xffa0e183#32 0x2008#64 0#64) =
    some (.trapped .loadAddressMisaligned 0x1000#64 0x2002#64) := by decide

theorem test_lb_to_x0_outside_memory : trapOf (start params 0x00008003#32 0x3000#64 0#64) =
    some (.trapped .loadAccessFault 0x1000#64 0x3000#64) := by decide

theorem test_lw_misaligned_but_split :
    regAfter { params with misalignedData := .split } 0x0020a183#32 0x2007#64 0#64 3#5 =
      some 0xffffffffff8000ff#64 := by decide

theorem test_csrrw : csrAfter 0x340090f3#32 0xf0f#64 0x340#12 = some 0xf0f#64 ∧
    regAfter params 0x340090f3#32 0xf0f#64 0#64 1#5 = some 0x1ff0#64 := by decide

theorem test_csrrs : csrAfter 0x3400a0f3#32 0xf0f#64 0x340#12 = some 0x1fff#64 ∧
    regAfter params 0x3400a0f3#32 0xf0f#64 0#64 1#5 = some 0x1ff0#64 := by decide

theorem test_csrrc : csrAfter 0x3400b0f3#32 0xf0f#64 0x340#12 = some 0x10f0#64 ∧
    regAfter params 0x3400b0f3#32 0xf0f#64 0#64 1#5 = some 0x1ff0#64 := by decide

theorem test_csrrwi : csrAfter 0x340fd0f3#32 0xf0f#64 0x340#12 = some 0x1f#64 ∧
    regAfter params 0x340fd0f3#32 0xf0f#64 0#64 1#5 = some 0x1ff0#64 := by decide

theorem test_csrrsi : csrAfter 0x3402e0f3#32 0xf0f#64 0x340#12 = some 0x1ff5#64 ∧
    regAfter params 0x3402e0f3#32 0xf0f#64 0#64 1#5 = some 0x1ff0#64 := by decide

theorem test_csrrci : csrAfter 0x340ff0f3#32 0xf0f#64 0x340#12 = some 0x1fe0#64 ∧
    regAfter params 0x340ff0f3#32 0xf0f#64 0#64 1#5 = some 0x1ff0#64 := by decide

theorem test_csrrs_reads_a_readonly_csr : regAfter params 0xf11021f3#32 0xf0f#64 0#64 3#5 =
        some 0x1234#64 := by decide

theorem test_csrrwi_writes_no_readonly_csr : trapOf (start params 0xf11051f3#32 0xf0f#64 0#64) =
    some (.trapped .illegalInstruction 0x1000#64 0xf11051f3#64) := by decide

theorem test_csrrci_of_an_absent_csr : trapOf (start params 0x00007073#32 0xf0f#64 0#64) =
    some (.trapped .illegalInstruction 0x1000#64 0x00007073#64) := by decide

theorem test_ecall :
    trapOf (start params 0x00000073#32 0#64 0#64) = some (.trapped .environmentCall 0x1000#64 0#64) := by decide

theorem test_ebreak :
    trapOf (start params 0x00100073#32 0#64 0#64) = some (.trapped .breakpoint 0x1000#64 0x1000#64) := by decide

theorem test_fence : pcAfter 0x0330000f#32 0#64 0#64 = some 0x1004#64 := by decide

theorem test_fence_i :
    afterStep { start params 0x0000100f#32 0#64 0#64 with dirty := [0x2000, 0x2004] } (fun t => (t.pc, t.dirty)) =
      some (0x1004#64, []) := by decide

theorem test_uret : refusalOf (start params 0x00200073#32 0#64 0#64) = some .uret := by decide

theorem test_mret : refusalOf (start params 0x30200073#32 0#64 0#64) = some .mret := by decide

theorem test_sret : refusalOf (start params 0x10200073#32 0#64 0#64) = some .sret := by decide

theorem test_sfence_vma : refusalOf (start params 0x126280f3#32 0#64 0#64) = some .sfenceVma := by decide

theorem test_wfi : refusalOf (start params 0x10500073#32 0#64 0#64) = some .wfi := by decide

theorem test_mul_not_admitted : trapOf (start params 0x022081b3#32 0#64 0#64) =
    some (.trapped .illegalInstruction 0x1000#64 0x022081b3#64) := by decide

/-! ### Fetch -/

theorem test_fetch_misaligned_first :
    trapOf { start params 0#32 0#64 0#64 with pc := 0x3002#64, dirty := [0x3003] } =
      some (.trapped .instructionAddressMisaligned 0x3002#64 0x3002#64) := by decide

theorem test_fetch_outside_memory :
    trapOf { start { params with memValid := [⟨0x1000, 0x10fd⟩] } 0#32 0#64 0#64 with pc := 0x10fc#64 } =
      some (.trapped .instructionAccessFault 0x10fc#64 0x10fc#64) := by decide

theorem test_fetch_stale : refusalOf { start params 0x002081b3#32 0#64 0#64 with dirty := [0x1003] } =
        some .staleFetch := by decide

theorem test_fetch_is_little_endian : regAfter { params with byteOrder := .big } 0x002081b3#32 1#64 2#64 3#5 =
        some 3#64 := by decide

theorem test_pc_wraps :
    afterStep (({ State.reset with pc := 0xfffffffffffffffc#64 } : State).placeWord 0x00000013#32) (·.pc) =
      some 0#64 := by decide

/-! ### Reset, and the interface to the host -/

theorem test_reset_runs_a_placed_word :
    afterStep (State.reset.withFetchWord 32 0x00100093) (fun t => (t.pc, t.readReg 1#5)) =
        some (0x1004#64, 1#64) := by decide

theorem test_reset_executes_an_illegal_word : trapOf State.reset =
        some (.trapped .illegalInstruction 0x1000#64 0#64) := by decide

theorem test_decode_table_word : decodeTableWord 32 0x002081b3 = some (.add 3#5 1#5 2#5) ∧
    decodeTableWord 32 0x022081b3 = some (.mul 3#5 1#5 2#5) ∧ decodeTableWord 32 0 = none := by decide

/-! ### Witnesses: for every statement with hypotheses, values that meet them, for each of its clauses

A witness `∃ t, exec i s = .next t` is stated as such; a hypothesis on a word, a state or the parameters is shown
to hold of the values named. -/

/-- `FENCE_STRICT = false`. -/
def lax : Params :=
  { params with fenceStrict := false }

/-- A state at 0x1000 whose `x[1]` is an address. -/
def at1 (x1 : Word) : State :=
  start params 0x00000013#32 x1 0x1122334455667788#64

theorem witness_DecodeOfEncode :
    (Instr.bgeu 31#5 31#5 0x1000#13).wf = true ∧ (Instr.bgeu 31#5 31#5 0x1000#13).admitted params = true ∧
      (Instr.remuw 31#5 31#5 31#5).wf = true ∧ (Instr.remuw 31#5 31#5 31#5).admitted full = true := by decide

theorem witness_EncodeOfDecode_strict :
    decode params 0x0ff0000f#32 = .instr (.fence 15#4 15#4) ∧ params.fenceStrict = true := by decide

theorem witness_EncodeOfDecode_not_fence :
    decode lax 0x002081b3#32 = .instr (.add 3#5 1#5 2#5) ∧ lax.fenceStrict = false ∧
      (0x002081b3#32).extractLsb' 0 7 ≠ 0b0001111#7 := by decide

theorem witness_DecodeFollowsOpcodeTable_selected :
    (Instr.fence 0#4 0#4).admitted lax = true ∧
      ((Instr.fence 0#4 0#4).opcodeRow lax).selects 0xffff8f8f#32 = true := by decide

theorem witness_DecodeFollowsOpcodeTable_decoded :
    decode full 0x022081b3#32 = .instr (.mul 3#5 1#5 2#5) := by decide

/-- The word 0 matches no row. -/
theorem witness_DecodeFollowsOpcodeTable_illegal : matchesNoRow params 0#32 := by
  intro i _
  cases i <;> simp only [Instr.opcodeRow] <;> decide

theorem witness_UnlistedWordTraps_step :
    (start params 0xffffffff#32 0#64 0#64).fetch = .word 0xffffffff#32 ∧ matchesNoRow params 0xffffffff#32 := by
  refine ⟨by decide, fun i _ => ?_⟩
  cases i <;> simp only [Instr.opcodeRow] <;> decide

theorem witness_UnlistedWordTraps_short_and_unlisted_opcodes :
    (0x00000001#32).extractLsb' 0 2 ≠ 0b11#2 ∧
      (0x0000202f#32).extractLsb' 0 7 ∉ [0b0000011#7, 0b0001111#7, 0b0010011#7, 0b0010111#7, 0b0011011#7,
        0b0100011#7, 0b0110011#7, 0b0110111#7, 0b0111011#7, 0b1100011#7, 0b1100111#7, 0b1101111#7, 0b1110011#7] := by
  decide

theorem witness_UnlistedWordTraps_constants :
    ((0x40001033#32).extractLsb' 0 7 = 0b0110011#7 ∧ (0x40001033#32).extractLsb' 25 7 = 0b0100000#7 ∧
        (0x40001033#32).extractLsb' 12 3 = 0b001#3) ∧
      ((0x00002063#32).extractLsb' 0 7 = 0b1100011#7 ∧ (0x00002063#32).extractLsb' 12 3 ∈ [0b010#3, 0b011#3]) ∧
      ((0x00007003#32).extractLsb' 0 7 = 0b0000011#7 ∧ (0x00007003#32).extractLsb' 12 3 = 0b111#3) ∧
      ((0x00004023#32).extractLsb' 0 7 = 0b0100011#7 ∧
        (0x00004023#32).extractLsb' 12 3 ∈ [0b100#3, 0b101#3, 0b110#3, 0b111#3]) ∧
      ((0x00001067#32).extractLsb' 0 7 = 0b1100111#7 ∧ (0x00001067#32).extractLsb' 12 3 ≠ 0b000#3) := by decide

theorem witness_UnlistedWordTraps_system_words :
    ((0x00004073#32).extractLsb' 0 7 = 0b1110011#7 ∧ (0x00004073#32).extractLsb' 12 3 = 0b100#3) ∧
      ((0x0000201b#32).extractLsb' 0 7 = 0b0011011#7 ∧
        (0x0000201b#32).extractLsb' 12 3 ∉ [0b000#3, 0b001#3, 0b101#3]) ∧
      ((0x0000200f#32).extractLsb' 0 7 = 0b0001111#7 ∧ (0x0000200f#32).extractLsb' 12 3 ∉ [0b000#3, 0b001#3]) ∧
      ((0x00300073#32).extractLsb' 0 7 = 0b1110011#7 ∧ (0x00300073#32).extractLsb' 12 3 = 0b000#3 ∧
        0x00300073#32 ∉ [0x00000073#32, 0x00100073#32, 0x00200073#32, 0x10200073#32, 0x30200073#32,
          0x10500073#32] ∧
        (0x00300073#32).extractLsb' 25 7 ≠ 0b0001001#7) := by decide

theorem witness_ShiftImmediateConstants :
    ((0x40009193#32).extractLsb' 0 7 = 0b0010011#7 ∧ (0x40009193#32).extractLsb' 12 3 = 0b001#3 ∧
        (0x40009193#32).extractLsb' 26 6 ≠ 0b000000#6) ∧
      ((0x8000d193#32).extractLsb' 0 7 = 0b0010011#7 ∧ (0x8000d193#32).extractLsb' 12 3 = 0b101#3 ∧
        (0x8000d193#32).extractLsb' 26 6 ≠ 0b000000#6 ∧ (0x8000d193#32).extractLsb' 26 6 ≠ 0b010000#6) ∧
      ((0x0200919b#32).extractLsb' 0 7 = 0b0011011#7 ∧ (0x0200919b#32).extractLsb' 12 3 = 0b001#3 ∧
        (0x0200919b#32).extractLsb' 25 7 ≠ 0b0000000#7) ∧
      ((0x4200d19b#32).extractLsb' 0 7 = 0b0011011#7 ∧ (0x4200d19b#32).extractLsb' 12 3 = 0b101#3 ∧
        (0x4200d19b#32).extractLsb' 25 7 ≠ 0b0000000#7 ∧ (0x4200d19b#32).extractLsb' 25 7 ≠ 0b0100000#7) := by decide

theorem witness_FenceReservedFields_strict :
    (0x8330000f#32).extractLsb' 0 7 = 0b0001111#7 ∧ (0x8330000f#32).extractLsb' 12 3 = 0b000#3 ∧
      params.fenceStrict = true ∧ (0x8330000f#32).extractLsb' 28 4 ≠ 0#4 ∧
      (0x0010100f#32).extractLsb' 0 7 = 0b0001111#7 ∧ (0x0010100f#32).extractLsb' 12 3 = 0b001#3 ∧
      (0x0010100f#32).extractLsb' 20 12 ≠ 0#12 := by decide

theorem witness_FenceReservedFields_not_strict :
    (0xffff8f8f#32).extractLsb' 0 7 = 0b0001111#7 ∧ (0xffff8f8f#32).extractLsb' 12 3 = 0b000#3 ∧
      lax.fenceStrict = false ∧
      (0xffff9f8f#32).extractLsb' 0 7 = 0b0001111#7 ∧ (0xffff9f8f#32).extractLsb' 12 3 = 0b001#3 := by decide

theorem witness_Rv64mAdmission_listed :
    (0x0220c1b3#32).extractLsb' 25 7 = 0b0000001#7 ∧ (0x0220c1b3#32).extractLsb' 0 7 = 0b0110011#7 ∧
      (0x0220c1b3#32).extractLsb' 12 3 = 0b100#3 ∧
      (0x0220d1b3#32).extractLsb' 25 7 = 0b0000001#7 ∧ (0x0220d1b3#32).extractLsb' 0 7 = 0b0110011#7 ∧
      (0x0220d1b3#32).extractLsb' 12 3 = 0b101#3 := by decide

theorem witness_Rv64mAdmission_unlisted :
    params.rv64mFull = false ∧ full.rv64mFull = true ∧
      ((0x0220f1b3#32).extractLsb' 25 7 = 0b0000001#7 ∧ (0x0220f1b3#32).extractLsb' 0 7 = 0b0110011#7 ∧
        (0x0220f1b3#32).extractLsb' 12 3 ∉ [0b100#3, 0b101#3]) ∧
      ((0x0220f1bb#32).extractLsb' 25 7 = 0b0000001#7 ∧ (0x0220f1bb#32).extractLsb' 0 7 = 0b0111011#7 ∧
        (0x0220f1bb#32).extractLsb' 12 3 ∉ [0b001#3, 0b010#3, 0b011#3]) ∧
      ((0x022091bb#32).extractLsb' 25 7 = 0b0000001#7 ∧ (0x022091bb#32).extractLsb' 0 7 = 0b0111011#7 ∧
        (0x022091bb#32).extractLsb' 12 3 ∈ [0b001#3, 0b010#3, 0b011#3]) := by decide

theorem witness_ImmediateValues :
    decode params 0x80008193#32 = .instr (.addi 3#5 1#5 0x800#12) ∧
      decode params 0x7e208fa3#32 = .instr (.sb 2#5 1#5 0x7ff#12) ∧
      decode params 0x80000063#32 = .instr (.beq 0#5 0#5 0x1000#13) ∧
      decode params 0x800002b7#32 = .instr (.lui 5#5 0x80000#20) ∧
      decode params 0x7ffff0ef#32 = .instr (.jal 1#5 0xffffe#21) := by decide

theorem witness_ImmediateValues_named :
    iImmediateOf (.addi 3#5 1#5 0x800#12) = some 0x800#12 ∧ sImmediateOf (.sb 2#5 1#5 0x7ff#12) = some 0x7ff#12 ∧
      bImmediateOf (.beq 0#5 0#5 0x1000#13) = some 0x1000#13 ∧ uImmediateOf (.lui 5#5 0x80000#20) = some 0x80000#20 ∧
      jImmediateOf (.jal 1#5 0xffffe#21) = some 0xffffe#21 := by decide

theorem witness_StepRunsDecodedInstruction :
    (start params 0x002081b3#32 1#64 2#64).fetch = .word 0x002081b3#32 ∧
      decode params 0x002081b3#32 = .instr (.add 3#5 1#5 2#5) := by decide

theorem witness_StepRunsBytesAtPc :
    let s := start params 0x7e000fe3#32 1#64 2#64
    s.pc.toNat % 4 = 0 ∧ s.existsAt s.pc 4 ∧ (∀ k < 4, byteAddr s.pc k ∉ s.dirty) ∧
      (∀ k < 4, s.readByte (byteAddr s.pc k) = (encode (.beq 0#5 0#5 0xffe#13)).extractLsb' (8 * k) 8) ∧
      (Instr.beq 0#5 0#5 0xffe#13).wf = true ∧ (Instr.beq 0#5 0#5 0xffe#13).admitted s.params = true := by
  unfold State.existsAt
  decide

/-- The pc is no multiple of 4; its last byte is outside memory; its last byte is stale; none of these. -/
theorem witness_FetchChecksInOrder :
    (({ State.reset with pc := 0x1002#64 } : State).pc.toNat % 4 ≠ 0) ∧
      (let s := { start params 0#32 0#64 0#64 with
          pc := 0x10fc#64, params := { params with memValid := [⟨0x1000, 0x10fe⟩] } };
        s.pc.toNat % 4 = 0 ∧ ¬ s.existsAt s.pc 4) ∧
      (let s := { start params 0#32 0#64 0#64 with dirty := [0x1003] };
        s.pc.toNat % 4 = 0 ∧ s.existsAt s.pc 4 ∧ ∃ k < 4, byteAddr s.pc k ∈ s.dirty) ∧
      (let s := { start params 0#32 0#64 0#64 with dirty := [0xfff, 0x1004] };
        s.pc.toNat % 4 = 0 ∧ s.existsAt s.pc 4 ∧ ∀ k < 4, byteAddr s.pc k ∉ s.dirty) := by
  unfold State.existsAt
  decide

theorem witness_StepKeepsInvariant :
    (start params 0xfe20bc23#32 0x2010#64 0x1122334455667788#64).Inv ∧
      ∃ t, step (start params 0xfe20bc23#32 0x2010#64 0x1122334455667788#64) = .next t :=
  ⟨⟨by decide, by decide, by decide, by decide, by decide, by decide, by decide, by decide, by decide⟩, _, rfl⟩

theorem witness_LaunchMeetsInvariant :
    LaunchPremises params [(0x340, 0x1ff0#64), (0xf11, 0x1234#64)] data :=
  ⟨by decide, by decide, by decide, by decide, by decide⟩

theorem witness_LaunchIsStateAfterReset :
    let s := start params 0#32 1#64 2#64
    s.pc = s.params.resetPc ∧ s.regs.get 0 = 0#64 ∧ s.dirty = [] := by decide

theorem witness_FrameOfEveryInstruction :
    (∃ t, exec (.sd 2#5 1#5 0#12) (at1 0x2008#64) = .next t) ∧ (∃ t, exec (.csrrw 3#5 0x340#12 1#5) (at1 0#64) = .next t) ∧
      (∃ t, exec .fenceI (at1 0#64) = .next t) ∧ (∃ t, exec (.ld 0#5 1#5 0#12) (at1 0x2008#64) = .next t) :=
  ⟨⟨_, rfl⟩, ⟨_, rfl⟩, ⟨_, rfl⟩, ⟨_, rfl⟩⟩

theorem witness_OnlyNamedRegistersMatter :
    let i := Instr.ld 3#5 1#5 0#12
    (31#5 ∉ sourcesOf i ∧ destOf i ≠ some 31#5) ∧ (3#5 ∉ sourcesOf i ∧ destOf i = some 3#5) ∧
      ∃ t, exec i (at1 0x2000#64) = .next t := ⟨by decide, by decide, _, rfl⟩

theorem witness_RegisterZeroDiscardsWrites :
    destOf (.ld 3#5 1#5 0#12) = some 3#5 ∧ (∃ t, exec (withDest (.ld 3#5 1#5 0#12) 0#5) (at1 0x2000#64) = .next t) ∧
      exec (withDest (.ld 3#5 1#5 0#12) 31#5) (at1 0x2004#64) =
        .fault (.trapped .loadAddressMisaligned 0x1000#64 0x2004#64) := ⟨rfl, ⟨_, rfl⟩, rfl⟩

theorem witness_PcFollowsTheRule_next : ∃ t, step (start params 0x80000063#32 0#64 0#64) = .next t := ⟨_, rfl⟩

theorem witness_PcFollowsTheRule_trap :
    let s := start params 0x7e000fe3#32 0#64 0#64
    Runs s 0x7e000fe3#32 (.beq 0#5 0#5 0xffe#13) ∧ targetOf s (.beq 0#5 0#5 0xffe#13) = some 0x1ffe#64 ∧
      (0x1ffe#64).toNat % 4 ≠ 0 := by
  unfold Runs
  decide

/-- A run that ends in its first state, at `ecall`. -/
theorem witness_RunEndsWhereRaisedOrRefused :
    EndsIn (start params 0x00000073#32 0#64 0#64) (start params 0x00000073#32 0#64 0#64) := by
  refine ⟨.start, fun t h => ?_⟩
  have hs : step (start params 0x00000073#32 0#64 0#64) = .fault (.trapped .environmentCall 0x1000#64 0#64) := rfl
  rw [hs] at h
  cases h

/-- It ends normally, and so does a run at `ebreak`. -/
theorem witness_RunEndsWhereRaisedOrRefused_normally :
    EndsNormally (start params 0x00000073#32 0#64 0#64) (start params 0x00000073#32 0#64 0#64) ∧
      EndsNormally (start params 0x00100073#32 0#64 0#64) (start params 0x00100073#32 0#64 0#64) :=
  ⟨⟨.start, .inl rfl⟩, ⟨.start, .inr rfl⟩⟩

/-- A state that fetches `jal x0, 0`, from which a run is infinite. -/
theorem witness_RunEndsWhereRaisedOrRefused_infinite :
    (start params 0x0000006f#32 0#64 0#64).fetch = .word 0x0000006f#32 := by decide

/-- A run of one step, a store, from a state with the invariant. -/
theorem witness_RunEndsWhereRaisedOrRefused_kept :
    (start params 0xfe20bc23#32 0x2010#64 0x1122334455667788#64).Inv ∧
      ∃ t, Reaches (start params 0xfe20bc23#32 0x2010#64 0x1122334455667788#64) t ∧ t.dirty ≠ [] :=
  ⟨witness_StepKeepsInvariant.1, _, .next .start rfl, by decide⟩

theorem witness_PlacedWordIsFetched :
    State.reset.pc.toNat % 4 = 0 ∧ State.reset.mem.wf ∧ 0xffffffff < 2 ^ 32 := by decide

/-- Misaligned, in memory and outside it. -/
theorem witness_MisalignedAccessTraps :
    accessOf (at1 0x2001#64) (.lh 3#5 1#5 0#12) = some (.load, 0x2001#64, 2) ∧ (at1 0x2001#64).misalignedAt 0x2001#64 2 ∧
      accessOf (at1 0x3007#64) (.sd 2#5 1#5 0#12) = some (.store, 0x3007#64, 8) ∧
      (at1 0x3007#64).misalignedAt 0x3007#64 8 ∧
      accessOf (at1 0x2001#64) (.lb 3#5 1#5 0#12) = some (.load, 0x2001#64, 1) := by
  unfold State.misalignedAt
  decide

theorem witness_AccessOutsideMemoryTraps :
    (accessOf (at1 0x2040#64) (.sb 2#5 1#5 0#12) = some (.store, 0x2040#64, 1) ∧ ¬ (at1 0x2040#64).existsAt 0x2040#64 1 ∧
        ¬ (at1 0x2040#64).misalignedAt 0x2040#64 1) ∧
      (accessOf (at1 0x203d#64) (.lw 2#5 1#5 0#12) = some (.load, 0x203d#64, 4) ∧ ¬ (at1 0x203d#64).existsAt 0x203d#64 4 ∧
        (at1 0x203d#64).misalignedAt 0x203d#64 4) ∧
      (let s := { at1 0#64 with pc := 0x1100#64 };
        s.pc.toNat % 4 = 0 ∧ ¬ s.existsAt s.pc 4) := by
  unfold State.misalignedAt State.existsAt
  decide

/-- The last access that fits into the memory of the tests, and the first that does not. -/
theorem witness_SplitAccessCompletes :
    let split := { params with misalignedData := .split }
    let s := start split 0#32 0x203c#64 0#64
    let u := start split 0#32 0x203d#64 0#64
    s.params.misalignedData = .split ∧ accessOf s (.sw 2#5 1#5 0#12) = some (.store, 0x203c#64, 4) ∧
      s.existsAt 0x203c#64 4 ∧ accessOf u (.sw 2#5 1#5 0#12) = some (.store, 0x203d#64, 4) ∧
      ¬ u.existsAt 0x203d#64 4 := by
  unfold State.existsAt
  decide

theorem witness_StoreThenLoadReturnsValue :
    (at1 0x2038#64).mem.wf ∧ (∃ t, exec (.sb 2#5 1#5 0#12) (at1 0x203f#64) = .next t) ∧
      (∃ t, exec (.sh 2#5 1#5 0#12) (at1 0x203e#64) = .next t) ∧
      (∃ t, exec (.sw 2#5 1#5 0#12) (at1 0x203c#64) = .next t) ∧
      ∃ t, exec (.sd 2#5 1#5 0#12) (at1 0x2038#64) = .next t :=
  ⟨by decide, ⟨_, rfl⟩, ⟨_, rfl⟩, ⟨_, rfl⟩, ⟨_, rfl⟩⟩

theorem witness_StaleFetchSet_store :
    accessOf (at1 0x2038#64) (.sd 2#5 1#5 0#12) = some (.store, 0x2038#64, 8) ∧
      ∃ t, exec (.sd 2#5 1#5 0#12) (at1 0x2038#64) = .next t := ⟨rfl, _, rfl⟩

theorem witness_StaleFetchSet_fetch :
    (let s := { at1 0#64 with dirty := [0x1000] };
      s.pc.toNat % 4 = 0 ∧ s.existsAt s.pc 4 ∧ ∃ k < 4, byteAddr s.pc k ∈ s.dirty) ∧
      (at1 0#64).advance.pc.toNat % 4 = 0 ∧ (at1 0#64).advance.existsAt (at1 0#64).advance.pc 4 := by
  unfold State.existsAt
  decide

theorem witness_JumpAndLink :
    let low := BitVec.ofInt 64 ((at1 0#64).pc.toNat + (0x100000#21).toInt)
    let high := BitVec.ofInt 64 ((at1 0#64).pc.toNat + (0xffffe#21).toInt)
    low.toNat % 4 = 0 ∧ high.toNat % 4 ≠ 0 := by decide

theorem witness_JumpAndLinkRegister :
    let target (s : State) (imm : BitVec 12) := BitVec.ofInt 64 (2 * (((s.readReg 1#5).toNat + imm.toInt) / 2))
    (target (at1 0x2001#64) 0x7ff#12).toNat % 4 = 0 ∧ (target (at1 0x2000#64) 3#12).toNat % 4 ≠ 0 := by decide

/-- For every store and load: the last address at which it completes, a misaligned one, the first outside
memory. -/
theorem witness_StoresWriteLowBytes_SignedLoads_UnsignedLoads :
    (∀ e ∈ [(0x203f#64, 1), (0x203e#64, 2), (0x203c#64, 4), (0x2038#64, 8)],
        ¬ (at1 0#64).misalignedAt e.1 e.2 ∧ (at1 0#64).existsAt e.1 e.2) ∧
      (∀ e ∈ [(0x2041#64, 2), (0x2003#64, 4), (0x2004#64, 8)], (at1 0#64).misalignedAt e.1 e.2) ∧
      (∀ e ∈ [(0x2040#64, 1), (0x2040#64, 2), (0x2040#64, 4), (0x2040#64, 8)],
        ¬ (at1 0#64).misalignedAt e.1 e.2 ∧ ¬ (at1 0#64).existsAt e.1 e.2) := by
  unfold State.misalignedAt State.existsAt
  decide

/-- The address of such an access from register and immediate, at the immediate's two ends. -/
theorem witness_StoresWriteLowBytes_address :
    (at1 0x2800#64).effectiveAddress 1#5 0x800#12 = 0x2000#64 ∧
      (at1 0x1841#64).effectiveAddress 1#5 0x7ff#12 = 0x2040#64 := by decide

/-- Equal, with an aligned target and with one that is not; not equal. -/
theorem witness_BranchesOnEquality :
    let s := start params 0#32 1#64 (-1#64)
    (s.readReg 1#5).toNat = (s.readReg 1#5).toNat ∧ (s.readReg 1#5).toNat ≠ (s.readReg 2#5).toNat ∧
      (BitVec.ofInt 64 (s.pc.toNat + (0x1000#13).toInt)).toNat % 4 = 0 ∧
      (BitVec.ofInt 64 (s.pc.toNat + (0xffe#13).toInt)).toNat % 4 ≠ 0 := by decide

/-- 1 and -1: signed and unsigned order differ. -/
theorem witness_BranchesOnOrder :
    let s := start params 0#32 1#64 (-1#64)
    (s.readReg 2#5).toInt < (s.readReg 1#5).toInt ∧ (s.readReg 1#5).toInt ≥ (s.readReg 1#5).toInt ∧
      (s.readReg 1#5).toNat < (s.readReg 2#5).toNat ∧ (s.readReg 1#5).toNat ≥ (s.readReg 1#5).toNat ∧
      (BitVec.ofInt 64 (s.pc.toNat + (0x1000#13).toInt)).toNat % 4 = 0 ∧
      (BitVec.ofInt 64 (s.pc.toNat + (0xffe#13).toInt)).toNat % 4 ≠ 0 := by decide

/-- A CSR that may be written, one that may only be read, one that does not exist. -/
theorem witness_CsrReadAndWrite_CsrReadAndSet_CsrReadAndClear :
    (at1 0#64).csrLegal 0x340#12 True ∧ (at1 0#64).csrLegal 0xf11#12 (0#5 ≠ 0#5) ∧
      ¬ (at1 0#64).csrLegal 0xf11#12 (1#5 ≠ 0#5) ∧ ¬ (at1 0#64).csrLegal 0xfff#12 True ∧
      sparseWf 0#64 (at1 0#64).csr := by
  unfold State.csrLegal
  simp only [at1, start, State.launch, params]
  decide

theorem witness_CsrReadAndWrite_word :
    decode params 0xf11051f3#32 = .instr (.csrrwi 3#5 0xf11#12 0#5) ∧
      decode params 0xf110a1f3#32 = .instr (.csrrs 3#5 0xf11#12 1#5) ∧
      decode params 0xf110f1f3#32 = .instr (.csrrci 3#5 0xf11#12 1#5) := by decide

theorem witness_CsrLegality :
    (csrOf (.csrrs 3#5 0xc00#12 0#5) = some 0xc00#12 ∧ 0xc00#12 ∉ params.csrSet ∧
        decode params 0xc00021f3#32 = .instr (.csrrs 3#5 0xc00#12 0#5)) ∧
      (csrOf (.csrrwi 3#5 0xf11#12 0#5) = some 0xf11#12 ∧ 0xf11#12 ∈ params.csrSet ∧ 0xf11#12 ∈ params.csrReadonly ∧
        csrWrittenBy (.csrrwi 3#5 0xf11#12 0#5) = some 0xf11#12 ∧
        decode params 0xf11051f3#32 = .instr (.csrrwi 3#5 0xf11#12 0#5)) ∧
      (csrOf (.csrrci 3#5 0xf11#12 0#5) = some 0xf11#12 ∧ csrWrittenBy (.csrrci 3#5 0xf11#12 0#5) = none) ∧
      destOf (.csrrw 0#5 0x340#12 1#5) = some 0#5 := by decide

theorem witness_CsrLegality_discards : ∃ t, exec (.csrrw 0#5 0x340#12 1#5) (at1 7#64) = .next t := ⟨_, rfl⟩

theorem witness_DivisionAndProductIdentities :
    let s := start full 0#32 0x8000000000000000#64 (-1#64)
    (3#5 ≠ 0#5) ∧ (∃ t, exec (.div 3#5 1#5 2#5) s = .next t) ∧ (∃ t, exec (.rem 3#5 1#5 2#5) s = .next t) ∧
      (∃ t, exec (.divu 3#5 1#5 2#5) s = .next t) ∧ (∃ t, exec (.remu 3#5 1#5 2#5) s = .next t) ∧
      (∃ t, exec (.mulh 3#5 1#5 2#5) s = .next t) ∧ ∃ t, exec (.mul 3#5 1#5 2#5) s = .next t :=
  ⟨by decide, ⟨_, rfl⟩, ⟨_, rfl⟩, ⟨_, rfl⟩, ⟨_, rfl⟩, ⟨_, rfl⟩, ⟨_, rfl⟩⟩

end Sys2Proof.Tests
end

section
/-! PROOFS. What a completed instruction did to the state: its target, and the five ways to complete. -/

namespace Sys2Proof.Machine

/-! ### Jumps and taken branches -/

/-- An instruction with a target is a jump there or a taken branch there. -/
theorem exec_of_targetOf {i : Instr} {s : State} {a : Word} (h : targetOf s i = some a) :
    (∃ rd, exec i s = s.jumpAndLink rd a) ∨ exec i s = s.branchTo true a := by
  cases i
  case jal rd offset => cases h; exact .inl ⟨rd, rfl⟩
  case jalr rd rs1 imm => cases h; exact .inl ⟨rd, rfl⟩
  case beq | bne | blt | bltu | bge | bgeu =>
    right
    simp only [targetOf, Option.ite_none_right_eq_some, Option.some.injEq] at h
    obtain ⟨taken, rfl⟩ := h
    simp [exec_beq, exec_bne, exec_blt, exec_bltu, exec_bge, exec_bgeu, execBeq, execBne, execBlt, execBltu,
      execBge, execBgeu, taken]
  all_goals simp [targetOf] at h

/-- A misaligned target raises, whatever else the instruction does (20_memory.md R32). -/
theorem exec_of_targetOf_misaligned {i : Instr} {s : State} {a : Word} (h : targetOf s i = some a)
    (ha : a.toNat % 4 ≠ 0) :
    exec i s = .fault (.trapped .instructionAddressMisaligned s.pc a) := by
  rcases exec_of_targetOf h with ⟨rd, he⟩ | he
  · rw [he, jumpAndLink_eq_fault]; simp [isInstrAligned, ha]
  · rw [he, branchTo_eq_fault]; simp [isInstrAligned, ha]

/-- An instruction that completes has no target or an aligned one. -/
theorem targetOf_aligned_of_exec_eq_next {i : Instr} {s t : State} {a : Word} (h : exec i s = .next t)
    (ht : targetOf s i = some a) : a.toNat % 4 = 0 := by
  by_contra ha
  rw [exec_of_targetOf_misaligned ht ha] at h
  cases h

/-- The address of the instruction after `i`: its target, if it is a jump or a taken branch, else the next
one in memory (10_state.md R14). -/
def State.pcAfter (s : State) (i : Instr) : Word :=
  (targetOf s i).getD s.nextPc

theorem pcAfter_of_target {s : State} {i : Instr} {a : Word} (h : targetOf s i = some a) : s.pcAfter i = a := by
  simp [State.pcAfter, h]

theorem pcAfter_of_no_target {s : State} {i : Instr} (h : targetOf s i = none) : s.pcAfter i = s.pc + 4#64 := by
  simp [State.pcAfter, h, nextPc_eq]

/-- An instruction that completes at an aligned pc leaves an aligned pc: 2^64 is a multiple of 4. -/
theorem pcAfter_aligned {i : Instr} {s t : State} (h : exec i s = .next t) (hpc : s.pc.toNat % 4 = 0) :
    (s.pcAfter i).toNat % 4 = 0 := by
  cases ht : targetOf s i with
  | none => rw [pcAfter_of_no_target ht, BitVec.toNat_add]; simp; omega
  | some a => rw [pcAfter_of_target ht]; exact targetOf_aligned_of_exec_eq_next h ht

/-! ### The five ways to complete -/

/-- What an instruction that completes from `s` to `t` did, and what it names accordingly. In every case the
pc goes to `State.pcAfter`. -/
inductive Completed (i : Instr) (s t : State) : Prop where
  | pcOnly : destOf i = none → csrWrittenBy i = none → storedBytes s i = [] → i ≠ .fenceI →
      t = s.setPc (s.pcAfter i) → Completed i s t
  | result (rd : Reg) (v : Word) : destOf i = some rd → csrWrittenBy i = none → storedBytes s i = [] →
      i ≠ .fenceI → t = (s.writeReg rd v).setPc (s.pcAfter i) → Completed i s t
  | csr (rd : Reg) (c : CsrAddr) (new v : Word) : destOf i = some rd → csrWrittenBy i = some c →
      storedBytes s i = [] → i ≠ .fenceI → s.csrExists c = true →
      t = ((s.writeCsr c new).writeReg rd v).setPc (s.pcAfter i) → Completed i s t
  | store (a : Word) (n v : Nat) : destOf i = none → csrWrittenBy i = none →
      storedBytes s i = accessBytes a n → i ≠ .fenceI → s.inMemory a n = true →
      t = (s.storeValue a n v).setPc (s.pcAfter i) → Completed i s t
  | fenceI : i = .fenceI → t = s.clearDirty.setPc (s.pcAfter i) → Completed i s t

theorem storedBytes_of_no_access {s : State} {i : Instr} (h : accessOf s i = none) : storedBytes s i = [] := by
  simp [storedBytes, h]

/-- Every instruction that completes does so in one of the five ways. -/
theorem completed_of_exec_eq_next {i : Instr} {s t : State} (h : exec i s = .next t) : Completed i s t := by
  have shape := execShape i s
  rw [h] at shape
  generalize ho : Host.Outcome.next t = o at shape
  cases shape with
  | result rd v hd hacc ht _ hf hw =>
    have e := writeAndAdvance_eq_next.1 ho.symm
    exact .result rd v hd hw (storedBytes_of_no_access hacc) hf (by rw [e, pcAfter_of_no_target ht]; rfl)
  | load rd ext a n hd hacc ht _ hf hw _ =>
    obtain ⟨-, e⟩ := load_eq_next.1 ho.symm
    exact .result rd _ hd hw (by simp [storedBytes, hacc]) hf (by rw [e, pcAfter_of_no_target ht]; rfl)
  | store a v n hd hacc ht _ hf hw _ =>
    obtain ⟨hc, e⟩ := store_eq_next.1 ho.symm
    exact .store a n v.toNat hd hw (by simp [storedBytes, hacc]) hf (accessCheck_eq_none.1 hc).2
      (by rw [e, pcAfter_of_no_target ht, State.advance, storeValue_pc])
  | jump rd a hd hacc ht _ hf hw =>
    obtain ⟨-, e⟩ := jumpAndLink_eq_next.1 ho.symm
    exact .result rd _ hd hw (storedBytes_of_no_access hacc) hf (by rw [e, pcAfter_of_target ht])
  | branch taken a hd hacc ht _ hf hw =>
    refine .pcOnly hd hw (storedBytes_of_no_access hacc) hf ?_
    rcases branchTo_eq_next.1 ho.symm with ⟨rfl, -, e⟩ | ⟨rfl, e⟩
    · rw [e, pcAfter_of_target ht]
    · rw [e, pcAfter_of_no_target ht]; rfl
  | csr w rd c wr new hd hacc ht _ hf hw =>
    obtain ⟨hex, ⟨rfl, -, e⟩ | ⟨rfl, e⟩⟩ := accessCsr_eq_next.1 ho.symm
    · exact .csr rd c _ _ hd hw (storedBytes_of_no_access hacc) hf hex (by rw [e, pcAfter_of_no_target ht]; rfl)
    · exact .result rd _ hd hw (storedBytes_of_no_access hacc) hf (by rw [e, pcAfter_of_no_target ht]; rfl)
  | fence hd hacc ht _ hf hw =>
    cases ho
    exact .pcOnly hd hw (storedBytes_of_no_access hacc) hf (by rw [pcAfter_of_no_target ht]; rfl)
  | fenceI hi =>
    cases ho
    exact .fenceI hi (by rw [hi, pcAfter_of_no_target rfl]; rfl)
  | fault f _ => cases ho
  | refused r _ => cases ho

/-- An instruction that completes leaves the pc at `State.pcAfter`. -/
theorem pc_of_exec_eq_next {i : Instr} {s t : State} (h : exec i s = .next t) : t.pc = s.pcAfter i := by
  cases completed_of_exec_eq_next h <;> subst_vars <;> rfl

end Sys2Proof.Machine
end

section
/-! PROOFS. O10, O16, O19 and O22: what every step keeps, changes and where it goes. -/

namespace Sys2Proof.Machine

/-! ### The step around an instruction -/

/-- Settles O10, by the definition of the step at a fetched word that decodes. -/
theorem stepRunsDecodedInstruction : Obligations.StepRunsDecodedInstruction := by
  intro s w i hfetch hdecode
  simp only [step, hfetch, hdecode]

theorem step_of_runs {s : State} {w : InstrWord} {i : Instr} (h : Runs s w i) : step s = exec i s :=
  stepRunsDecodedInstruction s w i h.1 h.2

/-- A step that completes ran an instruction, from an aligned pc. -/
theorem runs_of_step_eq_next {s t : State} (h : step s = .next t) :
    s.pc.toNat % 4 = 0 ∧ ∃ w i, Runs s w i ∧ exec i s = .next t := by
  obtain ⟨w, i, hfetch, hdecode, hexec⟩ := step_eq_next.1 h
  obtain ⟨hal, -⟩ := fetch_eq_word.1 hfetch
  exact ⟨by simpa [isInstrAligned] using hal, w, i, ⟨hfetch, hdecode⟩, hexec⟩

/-- Settles O22: the pc after a completed instruction is `State.pcAfter`, and a misaligned target raises. -/
theorem pcFollowsTheRule : Obligations.PcFollowsTheRule := by
  intro s
  refine ⟨fun t hstep => ?_, fun w i a hruns htarget ha => ?_⟩
  · obtain ⟨hpc, w, i, hruns, hexec⟩ := runs_of_step_eq_next hstep
    have hnext : t.pc = s.pcAfter i := pc_of_exec_eq_next hexec
    exact ⟨hpc, hnext ▸ pcAfter_aligned hexec hpc, w, i, hruns, hnext⟩
  · rw [step_of_runs hruns]
    exact exec_of_targetOf_misaligned htarget ha

/-! ### The frame -/

/-- Settles O19, by the five ways to complete: each writes only what the instruction names. -/
theorem frameOfEveryInstruction : Obligations.FrameOfEveryInstruction := by
  intro i s t hexec
  cases completed_of_exec_eq_next hexec with
  | pcOnly hd hw hb hf ht =>
    subst ht
    simp [hb, hf]
  | result rd v hd hw hb hf ht =>
    subst ht
    refine ⟨fun q hq => ?_, by simp, by simp, by simp [hb, hf], rfl⟩
    have hne : q ≠ rd := by rintro rfl; exact hq hd
    simp [hne]
  | csr rd c new v hd hw hb hf hex ht =>
    subst ht
    refine ⟨fun q hq => ?_, fun e he => ?_, by simp, by simp [hb, hf], rfl⟩
    · have hne : q ≠ rd := by rintro rfl; exact hq hd
      simp [hne]
    · have hne : e ≠ c := by rintro rfl; exact he hw
      simpa using readCsr_writeCsr_ne s hne new
  | store a n v hd hw hb hf hin ht =>
    subst ht
    refine ⟨by simp, by simp, fun x hx => ?_, fun x => ?_, by simp⟩
    · rw [hb] at hx
      exact readByte_storeValue_of_not_mem s a n v hx
    · simp [hb, hf, mem_dirty_storeValue, or_comm]
  | fenceI hi ht =>
    subst hi ht
    simp [storedBytes, accessOf]

/-! ### The invariant of the machine -/

/-- Register 0 keeps its zero slot under every register write (10_state.md R11). -/
theorem zeroSlot_writeReg {s : State} (h : s.regs.get 0 = 0#64) (r : Reg) (v : Word) :
    (s.writeReg r v).regs.get 0 = 0#64 := by
  by_cases hr : r = 0#5
  · simpa [hr] using h
  · have hn : r.toNat ≠ 0 := fun hh => hr (BitVec.eq_of_toNat_eq hh)
    simpa [hr, hn, Vector.get_eq_getElem] using h

theorem State.Inv.writeReg {s : State} (h : s.Inv) (r : Reg) (v : Word) : (s.writeReg r v).Inv :=
  { h with zeroSlot := zeroSlot_writeReg h.zeroSlot r v }

theorem State.Inv.setPc {s : State} (h : s.Inv) {a : Word} (ha : a.toNat % 4 = 0) : (s.setPc a).Inv :=
  { h with pcAligned := ha }

theorem State.Inv.clearDirty {s : State} (h : s.Inv) : s.clearDirty.Inv :=
  { h with dirtyCanonical := List.Pairwise.nil, dirtyExisting := by simp }

/-- A CSR that exists may be written. -/
theorem State.Inv.writeCsr {s : State} (h : s.Inv) {c : CsrAddr} (hc : s.csrExists c = true) (v : Word) :
    (s.writeCsr c v).Inv := by
  refine { h with csrCanonical := writeCsr_csr_wf s h.csrCanonical c v, csrExisting := fun e he => ?_ }
  rcases mem_sparseSet he with rfl | he
  · exact ⟨c, by simpa [State.csrExists] using hc, rfl⟩
  · exact h.csrExisting e he

/-- Bytes that exist may be stored to. -/
theorem State.Inv.storeValue {s : State} (h : s.Inv) {a : Word} {n : Nat} (hin : s.inMemory a n = true)
    (v : Nat) : (s.storeValue a n v).Inv where
  paramsLegal := by simpa using h.paramsLegal
  pcAligned := by simpa using h.pcAligned
  zeroSlot := by simpa using h.zeroSlot
  csrCanonical := by simpa using h.csrCanonical
  csrExisting := by simpa using h.csrExisting
  memCanonical := mem_wf_storeValue s h.memCanonical a n v
  memExisting e he := by
    rw [storeValue_params]
    rcases mem_mem_storeValue s a n v he with hx | he
    · exact inMemory_eq_true.1 hin _ hx
    · exact h.memExisting e he
  dirtyCanonical := dirty_wf_storeValue s h.dirtyCanonical a n v
  dirtyExisting x hx := by
    rw [storeValue_params]
    rcases (mem_dirty_storeValue s a n v x).1 hx with hx | hx
    · exact inMemory_eq_true.1 hin _ hx
    · exact h.dirtyExisting x hx

/-- Every instruction that completes keeps the invariant. -/
theorem State.Inv.exec {i : Instr} {s t : State} (h : s.Inv) (hexec : exec i s = .next t) : t.Inv := by
  have hpc := pcAfter_aligned hexec h.pcAligned
  cases completed_of_exec_eq_next hexec with
  | pcOnly _ _ _ _ ht => exact ht ▸ h.setPc hpc
  | result rd v _ _ _ _ ht => exact ht ▸ (h.writeReg rd v).setPc hpc
  | csr rd c new v _ _ _ _ hc ht => exact ht ▸ ((h.writeCsr hc new).writeReg rd v).setPc hpc
  | store a n v _ _ _ _ hin ht => exact ht ▸ (h.storeValue hin v).setPc hpc
  | fenceI _ ht => exact ht ▸ h.clearDirty.setPc hpc

/-- Settles O16: a step that completes executes one instruction, which keeps the invariant. -/
theorem stepKeepsInvariant : Obligations.StepKeepsInvariant := by
  intro s t hinv hstep
  obtain ⟨-, w, i, -, hexec⟩ := runs_of_step_eq_next hstep
  exact hinv.exec hexec

end Sys2Proof.Machine
end

section
/-! PROOFS. O20 and O21: which registers an instruction depends on, and its destination. -/

namespace Sys2Proof.Machine

/-! ### Register writes and the other updates of the state -/

section
variable (s : State)

theorem writeReg_writeReg_self (r : Reg) (v u : Word) : (s.writeReg r v).writeReg r u = s.writeReg r u := by
  by_cases hr : r = 0#5 <;> simp [State.writeReg, hr]

theorem writeReg_writeReg_comm {r q : Reg} (h : r ≠ q) (v u : Word) :
    (s.writeReg r v).writeReg q u = (s.writeReg q u).writeReg r v := by
  have hn : r.toNat ≠ q.toNat := fun hh => h (BitVec.eq_of_toNat_eq hh)
  by_cases hr : r = 0#5
  · simp [hr]
  · by_cases hq : q = 0#5
    · simp [hq]
    · simp [State.writeReg, hr, hq, Vector.set_comm _ _ hn]

theorem setPc_writeReg (r : Reg) (v a : Word) : (s.writeReg r v).setPc a = (s.setPc a).writeReg r v := rfl

theorem advance_writeReg (r : Reg) (v : Word) : (s.writeReg r v).advance = s.advance.writeReg r v := rfl

theorem storeBytes_writeReg (r : Reg) (v : Word) (l : List (Nat × Byte)) :
    (s.writeReg r v).storeBytes l = (s.storeBytes l).writeReg r v := by
  induction l generalizing s with
  | nil => rfl
  | cons e l ih => exact ih (s.storeByte e.1 e.2)

theorem storeValue_writeReg (r : Reg) (v a : Word) (n u : Nat) :
    (s.writeReg r v).storeValue a n u = (s.storeValue a n u).writeReg r v :=
  storeBytes_writeReg s r v _

end

/-! ### Which registers an instruction depends on -/

/-- How the outcome changes from `o` to `o'` when `v` is written beforehand to a register `r` that an
instruction with destination `d` does not read: in `x[r]` only, and not even there if the instruction
overwrites it. -/
def IgnoresReg (r : Reg) (v : Word) (d : Option Reg) (o o' : Outcome) : Prop :=
  (d ≠ some r → o' = mapNext (fun t => t.writeReg r v) o) ∧ (d = some r → o' = o)

section
variable {s : State} {r : Reg} {v : Word}

theorem ignoresReg_raise (d : Option Reg) (c : Cause) (info : Word) :
    IgnoresReg r v d (raise c info s) (raise c info (s.writeReg r v)) :=
  ⟨fun _ => rfl, fun _ => rfl⟩

theorem ignoresReg_refuse (d : Option Reg) (q : Refusal) : IgnoresReg r v d (refuse q) (refuse q) :=
  ⟨fun _ => rfl, fun _ => rfl⟩

theorem ignoresReg_next {t : State} : IgnoresReg r v none (.next t) (.next (t.writeReg r v)) :=
  ⟨fun _ => rfl, fun h => by cases h⟩

/-- The result of an instruction, written to its destination and followed by other updates. -/
theorem ignoresReg_next_writeReg {t : State} {rd : Reg} {x : Word} :
    IgnoresReg r v (some rd) (.next (t.writeReg rd x)) (.next ((t.writeReg r v).writeReg rd x)) := by
  refine ⟨fun h => ?_, fun h => ?_⟩
  · have hne : r ≠ rd := by rintro rfl; exact h rfl
    rw [writeReg_writeReg_comm t hne]; rfl
  · cases h
    rw [writeReg_writeReg_self]

theorem ignoresReg_writeAndAdvance {rd : Reg} {x x' : Word} (hx : x' = x) :
    IgnoresReg r v (some rd) (s.writeAndAdvance rd x) ((s.writeReg r v).writeAndAdvance rd x') :=
  hx ▸ ignoresReg_next_writeReg (t := s.advance)

theorem ignoresReg_load {n : Nat} {ext : Nat → Word} {rd : Reg} {a a' : Word} (ha : a' = a) :
    IgnoresReg r v (some rd) (s.load n ext rd a) ((s.writeReg r v).load n ext rd a') := by
  subst ha
  unfold State.load
  rw [accessCheck_writeReg]
  cases s.accessCheck .load a' n with
  | none => exact ignoresReg_writeAndAdvance rfl
  | some c => exact ignoresReg_raise _ c a'

theorem ignoresReg_store {n : Nat} {a a' x x' : Word} (ha : a' = a) (hx : x' = x) :
    IgnoresReg r v none (s.store n a x) ((s.writeReg r v).store n a' x') := by
  subst ha hx
  unfold State.store
  rw [accessCheck_writeReg, storeValue_writeReg]
  cases s.accessCheck .store a' n with
  | none => exact ignoresReg_next
  | some c => exact ignoresReg_raise _ c a'

theorem ignoresReg_jumpAndLink {rd : Reg} {a a' : Word} (ha : a' = a) :
    IgnoresReg r v (some rd) (s.jumpAndLink rd a) ((s.writeReg r v).jumpAndLink rd a') := by
  subst ha
  unfold State.jumpAndLink
  split
  · exact ignoresReg_next_writeReg (t := s.setPc a')
  · exact ignoresReg_raise _ _ a'

theorem ignoresReg_branchTo {taken taken' : Bool} {a : Word} (htaken : taken' = taken) :
    IgnoresReg r v none (s.branchTo taken a) ((s.writeReg r v).branchTo taken' a) := by
  subst htaken
  unfold State.branchTo
  split
  · split
    · exact ignoresReg_next
    · exact ignoresReg_raise _ _ a
  · exact ignoresReg_next

theorem ignoresReg_accessCsr {w : InstrWord} {rd : Reg} {c : CsrAddr} {writes : Bool} {new new' : Word → Word}
    (hnew : new' = new) :
    IgnoresReg r v (some rd) (s.accessCsr w rd c writes new)
      ((s.writeReg r v).accessCsr w rd c writes new') := by
  subst hnew
  unfold State.accessCsr
  rw [csrExists_writeReg, csrIsReadonly_writeReg]
  split
  · split
    · exact ignoresReg_writeAndAdvance (s := s.writeCsr c (new' (s.readCsr c))) rfl
    · exact ignoresReg_writeAndAdvance rfl
  · exact ignoresReg_raise _ _ _

end

/-- An instruction depends on no register that is not among its sources (10_state.md R12). -/
theorem exec_ignoresReg {i : Instr} {r : Reg} (h : r ∉ sourcesOf i) (s : State) (v : Word) :
    IgnoresReg r v (destOf i) (exec i s) (exec i (s.writeReg r v)) := by
  have hread : ∀ q ∈ sourcesOf i, (s.writeReg r v).readReg q = s.readReg q := fun q hq =>
    readReg_writeReg_ne s (by rintro rfl; exact h hq) v
  cases i <;> simp only [sourcesOf, List.forall_mem_cons, List.not_mem_nil] at hread
  case lb | lh | lw | lbu | lhu | lwu | ld =>
    exact ignoresReg_load (by simp only [State.effectiveAddress, hread])
  case sb | sh | sw | sd =>
    exact ignoresReg_store (by simp only [State.effectiveAddress, hread]) (by simp only [hread])
  case beq | bne | blt | bltu | bge | bgeu => exact ignoresReg_branchTo (by simp only [hread])
  case jal => exact ignoresReg_jumpAndLink rfl
  case jalr => exact ignoresReg_jumpAndLink (by simp only [State.indirectTarget, State.effectiveAddress, hread])
  case csrrw | csrrs | csrrc =>
    simp only [exec_csrrw, execCsrrw, exec_csrrs, execCsrrs, exec_csrrc, execCsrrc]
    exact ignoresReg_accessCsr (by simp only [hread])
  case csrrwi | csrrsi | csrrci =>
    simp only [exec_csrrwi, execCsrrwi, exec_csrrsi, execCsrrsi, exec_csrrci, execCsrrci]
    exact ignoresReg_accessCsr rfl
  case ecall => exact ignoresReg_raise _ _ _
  case ebreak => exact ignoresReg_raise _ _ _
  case fence => exact ignoresReg_next
  case fenceI => exact ignoresReg_next
  case uret | mret | sret | sfenceVma | wfi => exact ignoresReg_refuse _ _
  case lui | auipc => exact ignoresReg_writeAndAdvance rfl
  all_goals exact ignoresReg_writeAndAdvance (by simp only [hread])

/-- Settles O20: the outcome depends on no register but the sources, and the frame keeps every register but
the destination. -/
theorem onlyNamedRegistersMatter : Obligations.OnlyNamedRegistersMatter := by
  intro i s r v
  refine ⟨fun hr => (exec_ignoresReg hr s v).1, fun hr => (exec_ignoresReg hr s v).2, fun t hexec hd => ?_⟩
  obtain ⟨hregs, -⟩ := frameOfEveryInstruction i s t hexec
  exact hregs r hd

/-! ### Instructions that differ in their destination -/

/-- The outcomes of an instruction, by its destination register, are one state but for the value of that
register, or one exception but for the value recorded with it: the word of a CSR instruction names `rd`. -/
def SameButForDest (s : State) (outcome : Reg → Outcome) : Prop :=
  (∃ (t : State) (v : Word), ∀ rd, outcome rd = .next (t.writeReg rd v)) ∨
    ∃ c, ∀ rd, ∃ info, outcome rd = .fault (.trapped c s.pc info)

section
variable (s : State)

theorem sameButForDest_raise (c : Cause) (info : Reg → Word) :
    SameButForDest s (fun rd => raise c (info rd) s) :=
  .inr ⟨c, fun rd => ⟨info rd, rfl⟩⟩

theorem sameButForDest_writeAndAdvance (v : Word) : SameButForDest s (fun rd => s.writeAndAdvance rd v) :=
  .inl ⟨s.advance, v, fun _ => rfl⟩

theorem sameButForDest_load (n : Nat) (ext : Nat → Word) (a : Word) :
    SameButForDest s (fun rd => s.load n ext rd a) := by
  unfold State.load
  cases s.accessCheck .load a n with
  | none => exact sameButForDest_writeAndAdvance s _
  | some c => exact sameButForDest_raise s c fun _ => a

theorem sameButForDest_jumpAndLink (a : Word) : SameButForDest s (fun rd => s.jumpAndLink rd a) := by
  unfold State.jumpAndLink
  cases isInstrAligned a with
  | true => exact .inl ⟨s.setPc a, s.pc + 4#64, fun _ => rfl⟩
  | false => exact sameButForDest_raise s _ fun _ => a

theorem sameButForDest_accessCsr (w : Reg → InstrWord) (c : CsrAddr) (writes : Bool) (new : Word → Word) :
    SameButForDest s (fun rd => s.accessCsr (w rd) rd c writes new) := by
  unfold State.accessCsr
  cases s.csrExists c && !(writes && s.csrIsReadonly c) with
  | false => exact sameButForDest_raise s _ fun rd => zeroExtend64 (w rd)
  | true =>
    cases writes with
    | true => exact .inl ⟨(s.writeCsr c (new (s.readCsr c))).advance, s.readCsr c, fun _ => rfl⟩
    | false => exact sameButForDest_writeAndAdvance s _

end

/-- An instruction with a destination does the same with any other (30_encoding.md R71). -/
theorem exec_withDest {i : Instr} {q : Reg} (h : destOf i = some q) (s : State) :
    SameButForDest s (fun rd => exec (withDest i rd) s) := by
  cases i
  case lb | lh | lw | lbu | lhu | lwu | ld => exact sameButForDest_load s _ _ _
  case jal | jalr => exact sameButForDest_jumpAndLink s _
  case csrrw | csrrs | csrrc | csrrwi | csrrsi | csrrci =>
    simp only [withDest, exec_csrrw, execCsrrw, exec_csrrs, execCsrrs, exec_csrrc, execCsrrc, exec_csrrwi, execCsrrwi,
      exec_csrrsi, execCsrrsi, exec_csrrci, execCsrrci]
    exact sameButForDest_accessCsr s _ _ _ _
  case sb | sh | sw | sd | beq | bne | blt | bltu | bge | bgeu | ecall | ebreak | fence | fenceI | uret | mret |
      sret | sfenceVma | wfi => cases h
  all_goals exact sameButForDest_writeAndAdvance s _

/-- Settles O21: with `rd = x0` an instruction does what it does with another destination, and the write is
discarded. -/
theorem registerZeroDiscardsWrites : Obligations.RegisterZeroDiscardsWrites := by
  intro s
  refine ⟨readReg_zero s, writeReg_zero s, fun i q r t hd hexec => ⟨readReg_zero t, ?_⟩,
    fun i q r c pc info hd hexec => ?_⟩
  · rcases exec_withDest hd s with ⟨u, v, hnext⟩ | ⟨c, hfault⟩
    · cases (hnext 0#5).symm.trans hexec
      rw [writeReg_zero]
      exact ⟨v, hnext r⟩
    · obtain ⟨info, hf⟩ := hfault 0#5
      cases hf.symm.trans hexec
  · rcases exec_withDest hd s with ⟨u, v, hnext⟩ | ⟨c', hfault⟩
    · cases (hnext r).symm.trans hexec
    · obtain ⟨info', hf⟩ := hfault r
      cases hf.symm.trans hexec
      exact hfault 0#5

end Sys2Proof.Machine
end

section
/-! PROOFS. O24: a word placed at the pc is the word that the next fetch gives. -/

namespace Sys2Proof.Machine

/-- The four bytes of a word put together give the word (20_memory.md R31). -/
theorem wordOfBytes_extractLsb' (w : InstrWord) :
    wordOfBytes (w.extractLsb' 0 8) (w.extractLsb' 8 8) (w.extractLsb' 16 8) (w.extractLsb' 24 8) = w := by
  simp only [wordOfBytes, BitVec.extractLsb'_append_extractLsb'_eq_extractLsb', BitVec.extractLsb'_eq_self]

/-- Loading bytes from outside leaves in memory what storing them would. -/
theorem storeBytes_mem (s : State) (l : List (Nat × Byte)) :
    (s.storeBytes l).mem = l.foldl (fun m e => m.writeByte e.1 e.2) s.mem := by
  induction l generalizing s with
  | nil => rfl
  | cons e l ih => exact ih (s.storeByte e.1 e.2)

theorem accessBytes_nodup {a : Word} {n : Nat} (hn : n ≤ 8) : (accessBytes a n).Nodup := by
  rw [accessBytes_eq]
  refine List.Nodup.map_on (fun i hi j hj h => ?_) List.nodup_range
  exact byteAddr_inj hn (List.mem_range.1 hi) (List.mem_range.1 hj) h

/-- The four bytes at an aligned address do not wrap around the address space. -/
theorem byteAddr_of_aligned {a : Word} (ha : a.toNat % 4 = 0) {k : Nat} (hk : k < 4) :
    byteAddr a k = a.toNat + k := by
  have := a.isLt
  unfold byteAddr
  omega

section
variable (s : State) (w : InstrWord)

@[simp] theorem placeWord_pc : (s.placeWord w).pc = s.pc := rfl

/-- Byte `k` of the word placed lies `k` bytes after the pc. -/
theorem readByte_placeWord (hmem : s.mem.wf) {k : Nat} (hk : k < 4) :
    (s.placeWord w).readByte (s.pc + BitVec.ofNat 64 k).toNat = w.extractLsb' (8 * k) 8 := by
  have hread : (s.placeWord w).readByte =
      (s.storeBytes ((accessBytes s.pc 4).zip (bytesOfWord w))).readByte := by
    funext x
    simp only [State.readByte, storeBytes_mem, State.placeWord]
  have hkeys : ((accessBytes s.pc 4).zip (bytesOfWord w)).map Prod.fst = accessBytes s.pc 4 := by
    rw [List.map_fst_zip]; simp [bytesOfWord]
  rw [hread]
  apply readByte_storeBytes_of_mem s hmem _ (by rw [hkeys]; exact accessBytes_nodup (by omega))
  simp only [accessBytes, bytesOfWord, List.range_succ, List.range_zero, List.nil_append, List.cons_append,
    List.map_cons, List.map_nil, List.zip_cons_cons, List.zip_nil_right, List.mem_cons, Prod.mk.injEq]
  interval_cases k <;> simp

theorem wordAtPc_placeWord (hmem : s.mem.wf) : (s.placeWord w).wordAtPc = w := by
  have h (k : Nat) (hk : k < 4) := readByte_placeWord s w hmem hk
  have h0 : (s.placeWord w).readByte s.pc.toNat = w.extractLsb' 0 8 := by simpa using h 0 (by omega)
  simp only [State.wordAtPc, placeWord_pc]
  rw [h0, h 1 (by omega), h 2 (by omega), h 3 (by omega)]
  exact wordOfBytes_extractLsb' w

/-- The bytes placed are fetchable without a `fence.i`. -/
theorem staleAtPc_placeWord : (s.placeWord w).staleAtPc = false := by
  simp only [State.staleAtPc, State.placeWord, List.any_eq_false, List.contains_iff_mem, List.mem_filter]
  intro x hx hdirty
  simp [hx] at hdirty

/-- The bytes placed exist. -/
theorem inMemory_placeWord (hpc : s.pc.toNat % 4 = 0) : (s.placeWord w).inMemory s.pc 4 = true := by
  cases hin : s.inMemory s.pc 4 with
  | true =>
    have hvalid : (s.placeWord w).params.memValid = s.params.memValid := by
      simp only [State.placeWord, hin, if_true]
    simpa [State.inMemory, isMemory, hvalid] using hin
  | false =>
    have hvalid : (s.placeWord w).params.memValid = ⟨s.pc.toNat, s.pc.toNat + 3⟩ :: s.params.memValid := by
      simp [State.placeWord, hin]
    rw [inMemory_iff]
    intro k hk
    have hlast : s.pc.toNat + k ≤ s.pc.toNat + 3 := by omega
    simp [byteAddr_of_aligned hpc hk, isMemory, hvalid, hlast]

theorem fetch_placeWord (hpc : s.pc.toNat % 4 = 0) (hmem : s.mem.wf) :
    (s.placeWord w).fetch = .word w :=
  fetch_eq_word.2 ⟨by simp [isInstrAligned, hpc], inMemory_placeWord s w hpc, staleAtPc_placeWord s w,
    (wordAtPc_placeWord s w hmem).symm⟩

end

/-- Settles O24, by the fetch at the pc after a word is placed there. -/
theorem placedWordIsFetched : Obligations.PlacedWordIsFetched := by
  intro s w hpc hmem hw
  rw [State.withFetchWord, Nat.mod_eq_of_lt hw]
  exact fetch_placeWord s _ hpc hmem

end Sys2Proof.Machine
end

section
/-! PROOFS. O25, O26 and O27: the outcomes of a load, a store and a fetch. -/

namespace Sys2Proof.Machine

/-! ### The outcome of a load or a store -/

section
variable {i : Instr} {s : State} {k : AccessKind} {a : Word} {n : Nat}

/-- An instruction with an access is a load or a store of that access. -/
theorem exec_of_accessOf (h : accessOf s i = some (k, a, n)) :
    (k = .load ∧ ∃ rd ext, exec i s = s.load n ext rd a) ∨ (k = .store ∧ ∃ v, exec i s = s.store n a v) := by
  cases i
  case lb | lh | lw | lbu | lhu | lwu | ld => cases h; exact .inl ⟨rfl, _, _, rfl⟩
  case sb | sh | sw | sd => cases h; exact .inr ⟨rfl, _, rfl⟩
  all_goals cases h

/-- The four sizes of an access (20_memory.md R33). -/
theorem size_of_accessOf (h : accessOf s i = some (k, a, n)) : n = 1 ∨ n = 2 ∨ n = 4 ∨ n = 8 := by
  cases i
  case lb | lh | lw | lbu | lhu | lwu | ld | sb | sh | sw | sd => cases h; decide
  all_goals cases h

/-- An access that the check stops raises, with the address of its first byte. -/
theorem exec_of_accessCheck_eq_some {c : Cause} (h : accessOf s i = some (k, a, n))
    (hc : s.accessCheck k a n = some c) : exec i s = .fault (.trapped c s.pc a) := by
  rcases exec_of_accessOf h with ⟨rfl, rd, ext, he⟩ | ⟨rfl, v, he⟩
  · rw [he, load_eq_fault]; exact ⟨c, hc, rfl⟩
  · rw [he, store_eq_fault]; exact ⟨c, hc, rfl⟩

/-- An access that the check lets through completes. -/
theorem exec_of_accessCheck_eq_none (h : accessOf s i = some (k, a, n)) (hc : s.accessCheck k a n = none) :
    ∃ t, exec i s = .next t := by
  rcases exec_of_accessOf h with ⟨rfl, rd, ext, he⟩ | ⟨rfl, v, he⟩
  · exact ⟨_, he.trans (load_eq_next.2 ⟨hc, rfl⟩)⟩
  · exact ⟨_, he.trans (store_eq_next.2 ⟨hc, rfl⟩)⟩

theorem exec_of_misaligned (h : accessOf s i = some (k, a, n)) (hm : s.misalignedAt a n) :
    exec i s = .fault (.trapped k.misaligned s.pc a) :=
  exec_of_accessCheck_eq_some h (accessCheck_of_misaligned k hm)

theorem exec_of_outside (h : accessOf s i = some (k, a, n)) (hm : ¬ s.misalignedAt a n)
    (ho : ¬ s.existsAt a n) : exec i s = .fault (.trapped k.accessFault s.pc a) :=
  exec_of_accessCheck_eq_some h (accessCheck_of_outside k hm ho)

end

/-! ### When an access is misaligned -/

section
variable {s : State} {a : Word} {n : Nat}

theorem not_misalignedAt_one : ¬ s.misalignedAt a 1 := fun h => h.2 (Nat.mod_one _)

/-- With `MISALIGNED_DATA = split` no access is misaligned (20_memory.md R34). -/
theorem not_misalignedAt_of_split (h : s.params.misalignedData = .split) : ¬ s.misalignedAt a n := by
  rintro ⟨htrap, -⟩
  cases h.symm.trans htrap

end

/-! ### The outcome of a fetch -/

section
variable {s : State}

/-- A fetch that raises records the pc (60_exceptions.md R220). -/
theorem step_of_fetch_eq_trap {c : Cause} (h : s.fetch = .trap c) :
    step s = .fault (.trapped c s.pc s.pc) := by
  simp only [step, h, raise]

theorem step_of_fetch_eq_stale (h : s.fetch = .stale) : step s = .refused .staleFetch := by
  simp only [step, h, refuse]

theorem isInstrAligned_iff {a : Word} : isInstrAligned a = true ↔ a.toNat % 4 = 0 := by
  simp [isInstrAligned]

theorem staleAtPc_iff : s.staleAtPc = true ↔ ∃ k < 4, byteAddr s.pc k ∈ s.dirty := by
  simp [State.staleAtPc, accessBytes_eq]

theorem fetch_of_outside (hpc : s.pc.toNat % 4 = 0) (ho : ¬ s.existsAt s.pc 4) :
    s.fetch = .trap .instructionAccessFault := by
  rw [State.fetch, if_pos (isInstrAligned_iff.2 hpc), if_neg (by rwa [inMemory_iff])]

theorem fetch_of_stale (hpc : s.pc.toNat % 4 = 0) (he : s.existsAt s.pc 4)
    (hd : ∃ k < 4, byteAddr s.pc k ∈ s.dirty) : s.fetch = .stale := by
  rw [State.fetch, if_pos (isInstrAligned_iff.2 hpc), if_pos ((inMemory_iff _ _ _).2 he),
    if_pos (staleAtPc_iff.2 hd)]

theorem fetch_of_fresh (hpc : s.pc.toNat % 4 = 0) (he : s.existsAt s.pc 4)
    (hd : ∀ k < 4, byteAddr s.pc k ∉ s.dirty) : s.fetch = .word s.wordAtPc := by
  have hfresh : ¬ s.staleAtPc = true := by
    rw [staleAtPc_iff]
    rintro ⟨k, hk, hmem⟩
    exact hd k hk hmem
  exact fetch_eq_word.2 ⟨isInstrAligned_iff.2 hpc, (inMemory_iff _ _ _).2 he, by simpa using hfresh, rfl⟩

end

/-! ### The traps of an access and the accesses that complete -/

/-- Settles O25, by the first check of an access: alignment. -/
theorem misalignedAccessTraps : Obligations.MisalignedAccessTraps := by
  intro i s k a n h
  refine ⟨fun hm => ?_, ?_, size_of_accessOf h⟩
  · rw [exec_of_misaligned h hm]
    cases k <;> rfl
  · rintro rfl
    exact not_misalignedAt_one

/-- Settles O26: the second check of an access, and of a fetch, is that every byte exists. -/
theorem accessOutsideMemoryTraps : Obligations.AccessOutsideMemoryTraps := by
  refine ⟨fun i s k a n h ho hm => ?_, fun i s k a n h _ hm => ?_, fun s hpc ho => ?_⟩
  · rw [exec_of_outside h hm ho]
    cases k <;> rfl
  · exact (misalignedAccessTraps i s k a n h).1 hm
  · exact step_of_fetch_eq_trap (fetch_of_outside hpc ho)

/-- Settles O27: with `split` the check of an access is only that every byte exists. -/
theorem splitAccessCompletes : Obligations.SplitAccessCompletes := by
  intro i s k a n hsplit h
  have hm : ¬ s.misalignedAt a n := not_misalignedAt_of_split hsplit
  exact ⟨fun he => exec_of_accessCheck_eq_none h ((accessCheck_eq_none_iff s k a n).2 ⟨hm, he⟩),
    fun ho => accessOutsideMemoryTraps.1 i s k a n h ho hm⟩

end Sys2Proof.Machine
end

section
/-! PROOFS. Decoding an encoded instruction gives it back, as the step at an encoding needs it. -/

namespace Sys2Proof

/-- The instructions by opcode and, under it, by the sub-decoder that reads the other fields: each field of
the encoding is the operand. A jump's or branch's offset needs its bit 0 to be 0, an instruction of `RV64M_FULL`
that parameter. -/
theorem decodeInstr_encode {p : Params} {i : Instr} (hwf : i.wf = true) (hadm : i.admitted p = true) :
    decodeInstr p (encode i) = some i := by
  cases i
  case lb | lh | lw | lbu | lhu | lwu | ld => simp [decodeInstr, decodeLoad]
  case fence | fenceI => simp [decodeInstr, decodeFence, fenceModeOf_shift, predOf_shift, succOf_shift]
  case addi | slti | sltiu | andi | ori | xori => simp [decodeInstr, decodeOpImm]
  case slli | srli | srai => simp [decodeInstr, decodeOpImm, func6Of_shift, shamt6Of_shift]
  case addiw => simp [decodeInstr, decodeOpImm32]
  case slliw | srliw | sraiw => simp [decodeInstr, decodeOpImm32, func7Of_shift, rs2Of_shift]
  case sb | sh | sw | sd => simp [decodeInstr, decodeStore]
  case add | sub | sll | srl | sra | slt | sltu | and | or | xor => simp [decodeInstr, decodeOp]
  case div | divu => simp [decodeInstr, decodeOp, decodeMulDiv]
  case mul | mulh | mulhsu | mulhu | rem | remu =>
    simp only [Instr.admitted] at hadm
    simp [decodeInstr, decodeOp, decodeMulDiv, hadm]
  case addw | subw | sllw | srlw | sraw => simp [decodeInstr, decodeOp32]
  case mulw | divw | divuw | remw | remuw =>
    simp only [Instr.admitted] at hadm
    simp [decodeInstr, decodeOp32, decodeMulDiv32, hadm]
  case beq | bne | blt | bltu | bge | bgeu =>
    simp only [Instr.wf] at hwf
    simp [decodeInstr, decodeBranch, hwf]
  case jal =>
    simp only [Instr.wf] at hwf
    simp [decodeInstr, hwf]
  case lui | auipc | jalr => simp [decodeInstr]
  case csrrw | csrrs | csrrc | csrrwi | csrrsi | csrrci => simp [decodeInstr, decodeSystem]
  case sfenceVma => simp [decodeInstr, decodeSystem, decodePrivileged]
  case ecall | ebreak | uret | mret | sret | wfi => rfl

theorem decode_encode {p : Params} {i : Instr} (hwf : i.wf = true) (hadm : i.admitted p = true) :
    decode p (encode i) = .instr i := by
  rw [decode, decodeInstr_encode hwf hadm]

end Sys2Proof
end

section
/-! PROOFS. O11 and O29: the bytes at the pc and the word that a fetch makes of them. -/

namespace Sys2Proof.Machine

/-! ### The word at the pc and its bytes -/

section
variable {s : State}

/-- A word is its four bytes. -/
theorem eq_of_extractLsb'_bytes {w u : InstrWord}
    (h : ∀ k < 4, w.extractLsb' (8 * k) 8 = u.extractLsb' (8 * k) 8) : w = u := by
  rw [← wordOfBytes_extractLsb' w, ← wordOfBytes_extractLsb' u]
  have h0 := h 0 (by omega)
  have h1 := h 1 (by omega)
  have h2 := h 2 (by omega)
  have h3 := h 3 (by omega)
  simp only [Nat.mul_zero, Nat.mul_one, Nat.reduceMul] at h0 h1 h2 h3
  rw [h0, h1, h2, h3]

/-- Byte `k` of four bytes put together is the `k`-th (20_memory.md R31). -/
theorem extractLsb'_wordOfBytes (f : Nat → Byte) {k : Nat} (hk : k < 4) :
    (wordOfBytes (f 0) (f 1) (f 2) (f 3)).extractLsb' (8 * k) 8 = f k := by
  unfold wordOfBytes
  interval_cases k
  · rw [BitVec.extractLsb'_append_eq_of_add_le (by omega), BitVec.extractLsb'_eq_self]
  · rw [BitVec.extractLsb'_append_eq_of_le (by omega), BitVec.extractLsb'_append_eq_of_add_le (by omega)]
    exact BitVec.extractLsb'_eq_self
  · rw [BitVec.extractLsb'_append_eq_of_le (by omega), BitVec.extractLsb'_append_eq_of_le (by omega),
      BitVec.extractLsb'_append_eq_of_add_le (by omega)]
    exact BitVec.extractLsb'_eq_self
  · rw [BitVec.extractLsb'_append_eq_of_le (by omega), BitVec.extractLsb'_append_eq_of_le (by omega),
      BitVec.extractLsb'_append_eq_of_le (by omega)]
    exact BitVec.extractLsb'_eq_self

theorem wordAtPc_eq : s.wordAtPc = wordOfBytes (s.readByte (byteAddr s.pc 0)) (s.readByte (byteAddr s.pc 1))
    (s.readByte (byteAddr s.pc 2)) (s.readByte (byteAddr s.pc 3)) := by
  simp only [State.wordAtPc, ← byteAddr_eq, BitVec.add_zero]

/-- Byte `k` of the word at the pc lies `k` bytes after it, whatever `BYTE_ORDER` is (log entry 9). -/
theorem extractLsb'_wordAtPc {k : Nat} (hk : k < 4) :
    s.wordAtPc.extractLsb' (8 * k) 8 = s.readByte (byteAddr s.pc k) := by
  rw [wordAtPc_eq]
  exact extractLsb'_wordOfBytes (fun k => s.readByte (byteAddr s.pc k)) hk

/-- The fetch gives the word whose bytes lie at the pc. -/
theorem fetch_of_bytes {w : InstrWord} (hpc : s.pc.toNat % 4 = 0) (he : s.existsAt s.pc 4)
    (hd : ∀ k < 4, byteAddr s.pc k ∉ s.dirty)
    (hw : ∀ k < 4, s.readByte (byteAddr s.pc k) = w.extractLsb' (8 * k) 8) : s.fetch = .word w := by
  have hword : s.wordAtPc = w := eq_of_extractLsb'_bytes fun k hk => (extractLsb'_wordAtPc hk).trans (hw k hk)
  rw [fetch_of_fresh hpc he hd, hword]

end

/-- Settles O11: the fetch puts the bytes at the pc together to the encoding, which decodes to the
instruction. -/
theorem stepRunsBytesAtPc : Obligations.StepRunsBytesAtPc := by
  intro s i hpc he hd hbytes hwf hadm
  exact step_of_runs ⟨fetch_of_bytes hpc he hd hbytes, decode_encode hwf hadm⟩

/-! ### The stale-fetch set -/

/-- Every byte of a store that completes becomes stale (20_memory.md R43). -/
theorem mem_dirty_of_store {i : Instr} {s t : State} {a : Word} {n k : Nat}
    (h : accessOf s i = some (.store, a, n)) (hexec : exec i s = .next t) (hk : k < n) :
    byteAddr a k ∈ t.dirty := by
  obtain ⟨-, -, -, hdirty, -⟩ := frameOfEveryInstruction i s t hexec
  have hfence : i ≠ .fenceI := by rintro rfl; cases h
  have hstored : byteAddr a k ∈ storedBytes s i := by
    simp only [storedBytes, h, accessBytes_eq]
    exact List.mem_map_of_mem (List.mem_range.2 hk)
  exact (hdirty _).2 ⟨hfence, .inr hstored⟩

/-- Settles O29: a store makes its bytes stale, a stale byte refuses the fetch, and after `fence.i` no byte
is stale and memory is what it was. -/
theorem staleFetchSet : Obligations.StaleFetchSet := by
  refine ⟨fun i s t a n h hexec k hk => mem_dirty_of_store h hexec hk,
    fun s hpc he hd => step_of_fetch_eq_stale (fetch_of_stale hpc he hd), fun s => ?_⟩
  refine ⟨s.clearDirty.advance, rfl, rfl, fun a => rfl, fun hpc he => ?_⟩
  have hfresh : ∀ k < 4, byteAddr s.clearDirty.advance.pc k ∉ s.clearDirty.advance.dirty := by simp
  exact ⟨_, fetch_of_fresh hpc he hfresh, fun k hk => extractLsb'_wordAtPc hk⟩

end Sys2Proof.Machine
end

section
/-! PROOFS. O28: a load of what was just stored. -/

namespace Sys2Proof.Machine

/-! ### Reading back what a store wrote -/

theorem arrangeBytes_arrangeBytes (o : ByteOrder) (bs : List Byte) : arrangeBytes o (arrangeBytes o bs) = bs := by
  cases o with
  | little => rfl
  | big => exact List.reverse_reverse bs

/-- Bytes stored at distinct addresses are read back there. -/
theorem map_readByte_storeBytes {s : State} (hmem : s.mem.wf) {as : List Nat} {bs : List Byte} (hn : as.Nodup)
    (hlen : as.length = bs.length) : as.map (s.storeBytes (as.zip bs)).readByte = bs := by
  refine List.ext_getElem (by simpa using hlen) fun j h1 h2 => ?_
  have hja : j < as.length := by simpa using h1
  have hkeys : ((as.zip bs).map Prod.fst).Nodup := by rwa [List.map_fst_zip hlen.le]
  have hj : (as[j], bs[j]) ∈ as.zip bs :=
    List.mem_iff_getElem.2 ⟨j, by simp [hja, h2], List.getElem_zip⟩
  rw [List.getElem_map]
  exact readByte_storeBytes_of_mem s hmem _ hkeys hj

/-- Reading the `n` bytes just stored gives the low `n` bytes of the value, in either byte order
(20_memory.md R30, R44). -/
theorem memValue_storeValue {s : State} (hmem : s.mem.wf) {n : Nat} (hn : n ≤ 8) (a : Word) (v : Nat) :
    (s.storeValue a n v).memValue a n = v % 256 ^ n := by
  rw [State.memValue, storeValue_params, storeValue_eq,
    map_readByte_storeBytes hmem (accessBytes_nodup hn) (by simp), arrangeBytes_arrangeBytes,
    valueOfBytes_bytesOfValue]

/-! ### What the load makes of it -/

/-- The low `n` bytes of a register, as a field of `8n` bits. -/
theorem ofNat_mod_eq_setWidth (v : Word) (n : Nat) :
    BitVec.ofNat (8 * n) (v.toNat % 256 ^ n) = v.setWidth (8 * n) := by
  apply BitVec.eq_of_toNat_eq
  have hpow : 2 ^ (8 * n) = 256 ^ n := pow_mul 2 8 n
  rw [BitVec.toNat_ofNat, BitVec.toNat_setWidth, hpow, Nat.mod_mod]

theorem extendSigned_mod (v : Word) (n : Nat) :
    extendSigned n (v.toNat % 256 ^ n) = (v.setWidth (8 * n)).signExtend 64 := by
  rw [extendSigned, ofNat_mod_eq_setWidth]

theorem extendUnsigned_mod (v : Word) (n : Nat) :
    extendUnsigned n (v.toNat % 256 ^ n) = (v.setWidth (8 * n)).setWidth 64 := by
  rw [extendUnsigned, ofNat_mod_eq_setWidth]

/-! ### A store and then a load -/

section
variable {s t : State} {n : Nat} {v : Word}

/-- A store writes no register, so a base register means the same address after it. -/
theorem effectiveAddress_of_store_eq_next {a : Word} (h : s.store n a v = .next t) (rs1 : Reg) (imm : BitVec 12) :
    t.effectiveAddress rs1 imm = s.effectiveAddress rs1 imm := by
  obtain ⟨-, rfl⟩ := store_eq_next.1 h
  simp [State.effectiveAddress]

/-- After a store that completes, a load of the same bytes passes its check and reads the low `n` bytes
stored. -/
theorem completes_load_of_store_eq_next {j : Instr} {rs1 rd : Reg} {imm : BitVec 12} {ext : Nat → Word} {x : Word}
    (hmem : s.mem.wf) (hn : n ≤ 8) (hstore : s.store n (s.effectiveAddress rs1 imm) v = .next t)
    (hload : exec j t = t.load n ext rd (t.effectiveAddress rs1 imm)) (hx : ext (v.toNat % 256 ^ n) = x) :
    Completes j t rd x := by
  rw [effectiveAddress_of_store_eq_next hstore] at hload
  generalize s.effectiveAddress rs1 imm = a at hstore hload
  obtain ⟨hcheck, rfl⟩ := store_eq_next.1 hstore
  have hvalue : (s.storeValue a n v.toNat).advance.valueAt a n = v.toNat % 256 ^ n :=
    (memValue_eq_valueAt ..).symm.trans (memValue_storeValue hmem hn a v.toNat)
  obtain ⟨hal, hex⟩ : ¬ (s.storeValue a n v.toNat).advance.misalignedAt a n ∧
      (s.storeValue a n v.toNat).advance.existsAt a n := by
    rwa [← accessCheck_eq_none_iff _ .store, accessCheck_advance, accessCheck_storeValue]
  exact (loadMeaning_of_load hload ((congrArg ext hvalue).trans hx)).1 hal hex

end

/-- Settles O28: for each width the load reads the low bytes stored, and the instruction says how they are
extended. -/
theorem storeThenLoadReturnsValue : Obligations.StoreThenLoadReturnsValue := by
  intro s t rs2 rs1 rd imm hmem
  refine ⟨fun h => ⟨?lb, ?lbu⟩, fun h => ⟨?lh, ?lhu⟩, fun h => ⟨?lw, ?lwu⟩, fun h => ?ld⟩
  case lb => exact completes_load_of_store_eq_next hmem (by omega) h rfl (extendSigned_mod _ 1)
  case lbu => exact completes_load_of_store_eq_next hmem (by omega) h rfl (extendUnsigned_mod _ 1)
  case lh => exact completes_load_of_store_eq_next hmem (by omega) h rfl (extendSigned_mod _ 2)
  case lhu => exact completes_load_of_store_eq_next hmem (by omega) h rfl (extendUnsigned_mod _ 2)
  case lw => exact completes_load_of_store_eq_next hmem (by omega) h rfl (extendSigned_mod _ 4)
  case lwu => exact completes_load_of_store_eq_next hmem (by omega) h rfl (extendUnsigned_mod _ 4)
  case ld =>
    have hwhole : extendUnsigned 8 ((s.readReg rs2).toNat % 256 ^ 8) = s.readReg rs2 := by
      rw [extendUnsigned_mod, BitVec.setWidth_setWidth_of_le _ le_rfl, BitVec.setWidth_eq]
    exact completes_load_of_store_eq_next hmem (by omega) h rfl hwhole

end Sys2Proof.Machine
end

section
/-! PROOFS. Every instruction's row selects its encoding: the lemmas of EncodeSelectsRow in one. -/

namespace Sys2Proof.Laws.EncodeSelectsRow

/-- The row of every instruction selects its encoding. -/
theorem opcodeRow_selects_encode (i : Instr) (p : Params) : (i.opcodeRow p).selects (encode i) = true :=
  match i with
  | .add .. => add .. | .sub .. => sub .. | .sll .. => sll .. | .srl .. => srl .. | .sra .. => sra ..
  | .slt .. => slt .. | .sltu .. => sltu .. | .and .. => and .. | .or .. => or .. | .xor .. => xor ..
  | .addw .. => addw .. | .subw .. => subw .. | .sllw .. => sllw .. | .srlw .. => srlw .. | .sraw .. => sraw ..
  | .lui .. => lui .. | .auipc .. => auipc .. | .jal .. => jal .. | .jalr .. => jalr ..
  | .sb .. => sb .. | .sh .. => sh .. | .sw .. => sw .. | .sd .. => sd ..
  | .beq .. => beq .. | .bne .. => bne .. | .blt .. => blt .. | .bltu .. => bltu .. | .bge .. => bge ..
  | .bgeu .. => bgeu .. | .addi .. => addi .. | .slti .. => slti .. | .sltiu .. => sltiu .. | .andi .. => andi ..
  | .ori .. => ori .. | .xori .. => xori .. | .slli .. => slli .. | .srli .. => srli .. | .srai .. => srai ..
  | .csrrw .. => csrrw .. | .csrrs .. => csrrs .. | .csrrc .. => csrrc .. | .csrrwi .. => csrrwi ..
  | .csrrsi .. => csrrsi .. | .csrrci .. => csrrci .. | .lb .. => lb .. | .lh .. => lh .. | .lw .. => lw ..
  | .lbu .. => lbu .. | .lhu .. => lhu .. | .lwu .. => lwu .. | .ld .. => ld .. | .ecall => ecall ..
  | .ebreak => ebreak .. | .fence .. => fence .. | .fenceI => fenceI .. | .addiw .. => addiw .. | .slliw .. => slliw ..
  | .srliw .. => srliw .. | .sraiw .. => sraiw .. | .uret => uret .. | .mret => mret .. | .sret => sret ..
  | .sfenceVma .. => sfenceVma .. | .wfi => wfi .. | .div .. => div .. | .divu .. => divu .. | .mul .. => mul ..
  | .mulh .. => mulh .. | .mulhsu .. => mulhsu .. | .mulhu .. => mulhu .. | .rem .. => rem .. | .remu .. => remu ..
  | .mulw .. => mulw .. | .divw .. => divw .. | .divuw .. => divuw .. | .remw .. => remw .. | .remuw .. => remuw ..

end Sys2Proof.Laws.EncodeSelectsRow
end

section
/-! PROOFS. What the decoder answers: the one inversion of the decoder, by its sub-decoders. -/

namespace Sys2Proof

/-! ### The word made of its fields, where the decoder has read some of them -/

section
variable {w : InstrWord} {f7 op : BitVec 7} {f3 : BitVec 3}

theorem encR_eq_of_fields (h7 : func7Of w = f7) (h3 : func3Of w = f3) (hop : opcodeOf w = op) :
    encR f7 (rs2Of w) (rs1Of w) f3 (rdOf w) op = w := by
  rw [← h7, ← h3, ← hop, encR_fields]

theorem encI_eq_of_fields (h3 : func3Of w = f3) (hop : opcodeOf w = op) :
    encI (imm12Of w) (rs1Of w) f3 (rdOf w) op = w := by
  rw [← h3, ← hop, encI_fields]

theorem encS_eq_of_fields (h3 : func3Of w = f3) (hop : opcodeOf w = op) :
    encS (immSOf w) (rs2Of w) (rs1Of w) f3 op = w := by
  rw [← h3, ← hop, encS_fields]

theorem encB_eq_of_fields (h3 : func3Of w = f3) (hop : opcodeOf w = op) :
    encB (immBOf w) (rs2Of w) (rs1Of w) f3 op = w := by
  rw [← h3, ← hop, encB_fields]

theorem encU_eq_of_fields (hop : opcodeOf w = op) : encU (imm20Of w) (rdOf w) op = w := by
  rw [← hop, encU_fields]

theorem encJ_eq_of_fields (hop : opcodeOf w = op) : encJ (immJOf w) (rdOf w) op = w := by
  rw [← hop, encJ_fields]

theorem encI_shift6_eq_of_fields {f6 : BitVec 6} (h6 : func6Of w = f6) (h3 : func3Of w = f3) (hop : opcodeOf w = op) :
    encI (f6 ++ shamt6Of w) (rs1Of w) f3 (rdOf w) op = w := by
  rw [← h6, imm12Of_shift6, encI_eq_of_fields h3 hop]

theorem encI_shift5_eq_of_fields (h7 : func7Of w = f7) (h3 : func3Of w = f3) (hop : opcodeOf w = op) :
    encI (f7 ++ rs2Of w) (rs1Of w) f3 (rdOf w) op = w := by
  rw [← h7, imm12Of_shift5, encI_eq_of_fields h3 hop]

/-- A word all of whose I-format fields are constants. -/
theorem encI_eq_of_constants {imm : BitVec 12} {rs1 rd : Reg} (himm : imm12Of w = imm) (hrs1 : rs1Of w = rs1)
    (h3 : func3Of w = f3) (hrd : rdOf w = rd) (hop : opcodeOf w = op) : encI imm rs1 f3 rd op = w := by
  rw [← himm, ← hrs1, ← hrd, encI_eq_of_fields h3 hop]

end

/-! ### The decoder, one opcode at a time -/

section
variable {p : Params} {w : InstrWord}

theorem decodeInstr_of_load (hop : opcodeOf w = 0b0000011#7) : decodeInstr p w = decodeLoad w := by
  simp [decodeInstr, hop]

theorem decodeInstr_of_fence (hop : opcodeOf w = 0b0001111#7) : decodeInstr p w = decodeFence p w := by
  simp [decodeInstr, hop]

theorem decodeInstr_of_opImm (hop : opcodeOf w = 0b0010011#7) : decodeInstr p w = decodeOpImm w := by
  simp [decodeInstr, hop]

theorem decodeInstr_of_opImm32 (hop : opcodeOf w = 0b0011011#7) : decodeInstr p w = decodeOpImm32 w := by
  simp [decodeInstr, hop]

theorem decodeInstr_of_store (hop : opcodeOf w = 0b0100011#7) : decodeInstr p w = decodeStore w := by
  simp [decodeInstr, hop]

theorem decodeInstr_of_op (hop : opcodeOf w = 0b0110011#7) : decodeInstr p w = decodeOp p w := by
  simp [decodeInstr, hop]

theorem decodeInstr_of_op32 (hop : opcodeOf w = 0b0111011#7) : decodeInstr p w = decodeOp32 p w := by
  simp [decodeInstr, hop]

theorem decodeInstr_of_branch (hop : opcodeOf w = 0b1100011#7) : decodeInstr p w = decodeBranch w := by
  simp [decodeInstr, hop]

theorem decodeInstr_of_system (hop : opcodeOf w = 0b1110011#7) : decodeInstr p w = decodeSystem w := by
  simp [decodeInstr, hop]

theorem decodeInstr_of_mulDiv (hop : opcodeOf w = 0b0110011#7) (h7 : func7Of w = 0b0000001#7) :
    decodeInstr p w = decodeMulDiv p w := by
  simp [decodeInstr_of_op hop, decodeOp, h7]

theorem decodeInstr_of_mulDiv32 (hop : opcodeOf w = 0b0111011#7) (h7 : func7Of w = 0b0000001#7) :
    decodeInstr p w = decodeMulDiv32 p w := by
  simp [decodeInstr_of_op32 hop, decodeOp32, h7]

theorem decode_eq_illegal_iff : decode p w = .illegal w ↔ decodeInstr p w = none := by
  unfold decode
  cases decodeInstr p w <;> simp

end

/-! ### Which words decode to which instruction -/

/-- What a word stands for: an instruction, well-formed and admitted, whose encoding it is; or, where
`FENCE_STRICT` is false, the `fence` or `fence.i` of its opcode and func3, whatever its reserved fields
(30_encoding.md R66, R70). -/
inductive StandsFor (p : Params) (w : InstrWord) : Instr → Prop where
  | encoding {i : Instr} : i.wf = true → i.admitted p = true → encode i = w → StandsFor p w i
  | laxFence : p.fenceStrict = false → opcodeOf w = 0b0001111#7 → func3Of w = 0b000#3 →
      StandsFor p w (.fence (predOf w) (succOf w))
  | laxFenceI : p.fenceStrict = false → opcodeOf w = 0b0001111#7 → func3Of w = 0b001#3 → StandsFor p w .fenceI

section
variable {p : Params} {w : InstrWord} {i : Instr}

theorem standsFor_of_decodeLoad (hop : opcodeOf w = 0b0000011#7) (h : decodeLoad w = some i) : StandsFor p w i := by
  unfold decodeLoad at h
  split at h <;> cases h
  all_goals exact .encoding rfl rfl (encI_eq_of_fields ‹_› hop)

theorem standsFor_of_decodeFence (hop : opcodeOf w = 0b0001111#7) (h : decodeFence p w = some i) :
    StandsFor p w i := by
  unfold decodeFence at h
  split at h
  case h_1 h3 =>
    obtain ⟨hlax | ⟨hmode, hrs1, hrd⟩, ⟨⟩⟩ := Option.ite_none_right_eq_some.1 h
    · exact .laxFence hlax hop h3
    · exact .encoding rfl rfl (encI_eq_of_constants (hmode ▸ (imm12Of_fence w).symm) hrs1 h3 hrd hop)
  case h_2 h3 =>
    obtain ⟨hlax | ⟨himm, hrs1, hrd⟩, ⟨⟩⟩ := Option.ite_none_right_eq_some.1 h
    · exact .laxFenceI hlax hop h3
    · exact .encoding rfl rfl (encI_eq_of_constants himm hrs1 h3 hrd hop)
  case h_3 => cases h

theorem standsFor_of_decodeOpImm (hop : opcodeOf w = 0b0010011#7) (h : decodeOpImm w = some i) :
    StandsFor p w i := by
  unfold decodeOpImm at h
  split at h
  case h_2 | h_6 =>
    split at h <;> cases h
    all_goals exact .encoding rfl rfl (encI_shift6_eq_of_fields ‹_› ‹_› hop)
  all_goals cases h
  all_goals exact .encoding rfl rfl (encI_eq_of_fields ‹_› hop)

theorem standsFor_of_decodeOpImm32 (hop : opcodeOf w = 0b0011011#7) (h : decodeOpImm32 w = some i) :
    StandsFor p w i := by
  unfold decodeOpImm32 at h
  split at h
  case h_2 | h_3 =>
    split at h <;> cases h
    all_goals exact .encoding rfl rfl (encI_shift5_eq_of_fields ‹_› ‹_› hop)
  all_goals cases h
  all_goals exact .encoding rfl rfl (encI_eq_of_fields ‹_› hop)

theorem standsFor_of_decodeStore (hop : opcodeOf w = 0b0100011#7) (h : decodeStore w = some i) :
    StandsFor p w i := by
  unfold decodeStore at h
  split at h <;> cases h
  all_goals exact .encoding rfl rfl (encS_eq_of_fields ‹_› hop)

theorem standsFor_of_decodeMulDiv (hop : opcodeOf w = 0b0110011#7) (h7 : func7Of w = 0b0000001#7)
    (h : decodeMulDiv p w = some i) : StandsFor p w i := by
  unfold decodeMulDiv at h
  split at h
  case h_1 | h_2 => cases h; exact .encoding rfl rfl (encR_eq_of_fields h7 ‹_› hop)
  case h_3 =>
    obtain ⟨hfull, h⟩ := Option.ite_none_right_eq_some.1 h
    split at h <;> cases h
    all_goals exact .encoding rfl hfull (encR_eq_of_fields h7 ‹_› hop)

theorem standsFor_of_decodeMulDiv32 (hop : opcodeOf w = 0b0111011#7) (h7 : func7Of w = 0b0000001#7)
    (h : decodeMulDiv32 p w = some i) : StandsFor p w i := by
  unfold decodeMulDiv32 at h
  obtain ⟨hfull, h⟩ := Option.ite_none_right_eq_some.1 h
  split at h <;> cases h
  all_goals exact .encoding rfl hfull (encR_eq_of_fields h7 ‹_› hop)

theorem standsFor_of_decodeOp (hop : opcodeOf w = 0b0110011#7) (h : decodeOp p w = some i) : StandsFor p w i := by
  unfold decodeOp at h
  split at h
  case h_1 | h_2 =>
    split at h <;> cases h
    all_goals exact .encoding rfl rfl (encR_eq_of_fields ‹_› ‹_› hop)
  case h_3 h7 => exact standsFor_of_decodeMulDiv hop h7 h
  case h_4 => cases h

theorem standsFor_of_decodeOp32 (hop : opcodeOf w = 0b0111011#7) (h : decodeOp32 p w = some i) :
    StandsFor p w i := by
  unfold decodeOp32 at h
  split at h
  case h_1 | h_2 =>
    split at h <;> cases h
    all_goals exact .encoding rfl rfl (encR_eq_of_fields ‹_› ‹_› hop)
  case h_3 h7 => exact standsFor_of_decodeMulDiv32 hop h7 h
  case h_4 => cases h

theorem standsFor_of_decodeBranch (hop : opcodeOf w = 0b1100011#7) (h : decodeBranch w = some i) :
    StandsFor p w i := by
  unfold decodeBranch at h
  split at h <;> cases h
  all_goals exact .encoding (evenOffset_immBOf w) rfl (encB_eq_of_fields ‹_› hop)

theorem standsFor_of_decodePrivileged (hop : opcodeOf w = 0b1110011#7) (h3 : func3Of w = 0b000#3)
    (h : decodePrivileged w = some i) : StandsFor p w i := by
  unfold decodePrivileged at h
  split at h
  case h_1 h7 => cases h; exact .encoding rfl rfl (encR_eq_of_fields h7 h3 hop)
  case h_2 =>
    obtain ⟨⟨hrs1, hrd⟩, h⟩ := Option.ite_none_right_eq_some.1 h
    split at h <;> cases h
    all_goals exact .encoding rfl rfl (encI_eq_of_constants ‹_› hrs1 h3 hrd hop)

theorem standsFor_of_decodeSystem (hop : opcodeOf w = 0b1110011#7) (h : decodeSystem w = some i) :
    StandsFor p w i := by
  unfold decodeSystem at h
  split at h
  case h_1 h3 => exact standsFor_of_decodePrivileged hop h3 h
  all_goals cases h
  all_goals exact .encoding rfl rfl (encI_eq_of_fields ‹_› hop)

/-- The decoder by opcode: every sub-decoder answers what the word stands for. -/
theorem standsFor_of_decodeInstr (h : decodeInstr p w = some i) : StandsFor p w i := by
  unfold decodeInstr at h
  split at h
  case h_1 hop => exact standsFor_of_decodeLoad hop h
  case h_2 hop => exact standsFor_of_decodeFence hop h
  case h_3 hop => exact standsFor_of_decodeOpImm hop h
  case h_4 hop => cases h; exact .encoding rfl rfl (encU_eq_of_fields hop)
  case h_5 hop => exact standsFor_of_decodeOpImm32 hop h
  case h_6 hop => exact standsFor_of_decodeStore hop h
  case h_7 hop => exact standsFor_of_decodeOp hop h
  case h_8 hop => cases h; exact .encoding rfl rfl (encU_eq_of_fields hop)
  case h_9 hop => exact standsFor_of_decodeOp32 hop h
  case h_10 hop => exact standsFor_of_decodeBranch hop h
  case h_11 hop =>
    split at h <;> cases h
    exact .encoding rfl rfl (encI_eq_of_fields ‹_› hop)
  case h_12 hop => cases h; exact .encoding (evenOffset_immJOf w) rfl (encJ_eq_of_fields hop)
  case h_13 hop => exact standsFor_of_decodeSystem hop h
  case h_14 => cases h

/-- The decoder answers exactly what the word stands for. -/
theorem decode_eq_instr_iff : decode p w = .instr i ↔ StandsFor p w i := by
  constructor
  · intro h
    unfold decode at h
    split at h <;> cases h
    exact standsFor_of_decodeInstr ‹_›
  · rintro (⟨hwf, hadm, rfl⟩ | ⟨hlax, hop, h3⟩ | ⟨hlax, hop, h3⟩)
    · exact decode_encode hwf hadm
    · simp [decode, decodeInstr_of_fence hop, decodeFence, h3, hlax]
    · simp [decode, decodeInstr_of_fence hop, decodeFence, h3, hlax]

theorem StandsFor.admitted (h : StandsFor p w i) : i.admitted p = true := by
  cases h with
  | encoding _ hadm _ => exact hadm
  | laxFence | laxFenceI => rfl

theorem StandsFor.wf (h : StandsFor p w i) : i.wf = true := by
  cases h with
  | encoding hwf _ _ => exact hwf
  | laxFence | laxFenceI => rfl

/-- A word is selected by the row of the instruction it stands for. -/
theorem StandsFor.selects (h : StandsFor p w i) : (i.opcodeRow p).selects w = true := by
  cases h with
  | encoding _ _ henc => exact henc ▸ Laws.EncodeSelectsRow.opcodeRow_selects_encode i p
  | laxFence hlax hop h3 | laxFenceI hlax hop h3 =>
    rw [Instr.opcodeRow, hlax]
    exact Laws.selects_func3 rfl h3 hop

/-- Only a `fence` or `fence.i` word with ignored fields stands for an instruction that encodes to another
word. -/
theorem StandsFor.encode_eq (h : StandsFor p w i) (hne : p.fenceStrict = true ∨ opcodeOf w ≠ 0b0001111#7) :
    encode i = w := by
  cases h with
  | encoding _ _ henc => exact henc
  | laxFence hlax hop _ | laxFenceI hlax hop _ => simp [hlax, hop] at hne

end

end Sys2Proof
end

section
/-! PROOFS. O1, O2 and O3: the decoder, the encoder and the opcode table agree. -/

namespace Sys2Proof

section
variable {p : Params} {w bits : InstrWord} {i : Instr}

/-! ### What a row says about the fields of a word it selects (30_encoding.md R67) -/

theorem fields_of_selects_func7 (h : OpcodeRow.selects ⟨0xfe00707f#32, bits⟩ w = true) :
    func7Of w = func7Of bits ∧ func3Of w = func3Of bits ∧ opcodeOf w = opcodeOf bits := by
  have hmask := (mask_func7_func3_opcode w _ _ _).2 ⟨rfl, rfl, rfl⟩
  obtain rfl := hmask.symm.trans (beq_iff_eq.1 h)
  simp

theorem fields_of_selects_func6 (h : OpcodeRow.selects ⟨0xfc00707f#32, bits⟩ w = true) :
    func6Of w = func6Of bits ∧ func3Of w = func3Of bits ∧ opcodeOf w = opcodeOf bits := by
  have hmask := (mask_func6_func3_opcode w _ _ _).2 ⟨rfl, rfl, rfl⟩
  obtain rfl := hmask.symm.trans (beq_iff_eq.1 h)
  simp [func6Of_shift]

theorem fields_of_selects_func3 (h : OpcodeRow.selects ⟨0x0000707f#32, bits⟩ w = true) :
    func3Of w = func3Of bits ∧ opcodeOf w = opcodeOf bits := by
  have hmask := (mask_func3_opcode w _ _).2 ⟨rfl, rfl⟩
  obtain rfl := hmask.symm.trans (beq_iff_eq.1 h)
  simp

theorem fields_of_selects_opcode (h : OpcodeRow.selects ⟨0x0000007f#32, bits⟩ w = true) :
    opcodeOf w = opcodeOf bits := by
  have hmask := (mask_opcode w _).2 rfl
  obtain rfl := hmask.symm.trans (beq_iff_eq.1 h)
  simp

theorem eq_of_selects_all (h : OpcodeRow.selects ⟨0xffffffff#32, bits⟩ w = true) : w = bits :=
  (mask_all w).symm.trans (beq_iff_eq.1 h)

/-! ### A word that a row selects decodes to an instruction of that row -/

/-- A word that the row of `fence` selects is a `fence`; the row asks for zeros in the reserved bits exactly where
`FENCE_STRICT` does (R70). -/
theorem decodeInstr_of_selects_fence {pred succ : BitVec 4}
    (h : ((Instr.fence pred succ).opcodeRow p).selects w = true) :
    decodeInstr p w = some (.fence (predOf w) (succOf w)) := by
  rw [Instr.opcodeRow] at h
  split at h
  · have hmask : w &&& 0xf00fffff#32 = encI (0#4 ++ 0#4 ++ 0#4) 0#5 0b000#3 0#5 0b0001111#7 := beq_iff_eq.1 h
    obtain ⟨hmode, hrs1, h3, hrd, hop⟩ := (mask_fence w _ _ _ _ _).1 hmask
    simp [decodeInstr_of_fence hop, decodeFence, hmode, hrs1, h3, hrd]
  · next hlax =>
    obtain ⟨h3, hop⟩ : func3Of w = 0b000#3 ∧ opcodeOf w = 0b0001111#7 := fields_of_selects_func3 h
    simp [decodeInstr_of_fence hop, decodeFence, h3, hlax]

theorem decodeInstr_of_selects_fenceI (h : (Instr.fenceI.opcodeRow p).selects w = true) :
    decodeInstr p w = some .fenceI := by
  rw [Instr.opcodeRow] at h
  split at h
  · obtain rfl : w = encode .fenceI := eq_of_selects_all h
    exact decodeInstr_encode rfl rfl
  · next hlax =>
    obtain ⟨h3, hop⟩ : func3Of w = 0b001#3 ∧ opcodeOf w = 0b0001111#7 := fields_of_selects_func3 h
    simp [decodeInstr_of_fence hop, decodeFence, h3, hlax]

/-- The instructions by the mask of their row and by opcode: the row fixes the fields that the decoder reads to
choose the constructor. -/
theorem exists_decodeInstr_of_selects (hadm : i.admitted p = true) (h : (i.opcodeRow p).selects w = true) :
    ∃ j, decodeInstr p w = some j ∧ j.opcodeRow p = i.opcodeRow p := by
  cases i
  case fence => exact ⟨_, decodeInstr_of_selects_fence h, rfl⟩
  case fenceI => exact ⟨_, decodeInstr_of_selects_fenceI h, rfl⟩
  case ecall | ebreak | uret | mret | sret | wfi =>
    obtain rfl := eq_of_selects_all h
    exact ⟨_, rfl, rfl⟩
  case lui | auipc | jal =>
    have hop := fields_of_selects_opcode h
    exact ⟨_, by rw [decodeInstr, hop]; rfl, by rfl⟩
  case jalr =>
    obtain ⟨h3, hop⟩ := fields_of_selects_func3 h
    exact ⟨_, by rw [decodeInstr, h3, hop]; rfl, by rfl⟩
  case lb | lh | lw | lbu | lhu | lwu | ld =>
    obtain ⟨h3, hop⟩ := fields_of_selects_func3 h
    exact ⟨_, by rw [decodeInstr_of_load hop, decodeLoad, h3]; rfl, by rfl⟩
  case sb | sh | sw | sd =>
    obtain ⟨h3, hop⟩ := fields_of_selects_func3 h
    exact ⟨_, by rw [decodeInstr_of_store hop, decodeStore, h3]; rfl, by rfl⟩
  case beq | bne | blt | bltu | bge | bgeu =>
    obtain ⟨h3, hop⟩ := fields_of_selects_func3 h
    exact ⟨_, by rw [decodeInstr_of_branch hop, decodeBranch, h3]; rfl, by rfl⟩
  case addi | slti | sltiu | andi | ori | xori =>
    obtain ⟨h3, hop⟩ := fields_of_selects_func3 h
    exact ⟨_, by rw [decodeInstr_of_opImm hop, decodeOpImm, h3]; rfl, by rfl⟩
  case slli | srli | srai =>
    obtain ⟨h6, h3, hop⟩ := fields_of_selects_func6 h
    exact ⟨_, by rw [decodeInstr_of_opImm hop, decodeOpImm, h6, h3]; rfl, by rfl⟩
  case addiw =>
    obtain ⟨h3, hop⟩ := fields_of_selects_func3 h
    exact ⟨_, by rw [decodeInstr_of_opImm32 hop, decodeOpImm32, h3]; rfl, by rfl⟩
  case slliw | srliw | sraiw =>
    obtain ⟨h7, h3, hop⟩ := fields_of_selects_func7 h
    exact ⟨_, by rw [decodeInstr_of_opImm32 hop, decodeOpImm32, h7, h3]; rfl, by rfl⟩
  case csrrw | csrrs | csrrc | csrrwi | csrrsi | csrrci =>
    obtain ⟨h3, hop⟩ := fields_of_selects_func3 h
    exact ⟨_, by rw [decodeInstr_of_system hop, decodeSystem, h3]; rfl, by rfl⟩
  case sfenceVma =>
    obtain ⟨h7, h3, hop⟩ := fields_of_selects_func7 h
    exact ⟨_, by rw [decodeInstr_of_system hop, decodeSystem, decodePrivileged, h7, h3]; rfl, by rfl⟩
  case add | sub | sll | srl | sra | slt | sltu | and | or | xor =>
    obtain ⟨h7, h3, hop⟩ := fields_of_selects_func7 h
    exact ⟨_, by rw [decodeInstr_of_op hop, decodeOp, h7, h3]; rfl, by rfl⟩
  case addw | subw | sllw | srlw | sraw =>
    obtain ⟨h7, h3, hop⟩ := fields_of_selects_func7 h
    exact ⟨_, by rw [decodeInstr_of_op32 hop, decodeOp32, h7, h3]; rfl, by rfl⟩
  case div | divu =>
    obtain ⟨h7, h3, hop⟩ := fields_of_selects_func7 h
    exact ⟨_, by rw [decodeInstr_of_mulDiv hop h7, decodeMulDiv, h3]; rfl, by rfl⟩
  case mul | mulh | mulhsu | mulhu | rem | remu =>
    have hfull : p.rv64mFull = true := hadm
    obtain ⟨h7, h3, hop⟩ := fields_of_selects_func7 h
    exact ⟨_, by rw [decodeInstr_of_mulDiv hop h7, decodeMulDiv, hfull, h3]; rfl, by rfl⟩
  case mulw | divw | divuw | remw | remuw =>
    have hfull : p.rv64mFull = true := hadm
    obtain ⟨h7, h3, hop⟩ := fields_of_selects_func7 h
    exact ⟨_, by rw [decodeInstr_of_mulDiv32 hop h7, decodeMulDiv32, hfull, h3]; rfl, by rfl⟩

/-- A word is illegal exactly where no admitted row selects it (R66, R68). -/
theorem matchesNoRow_iff : Machine.matchesNoRow p w ↔ decodeInstr p w = none := by
  constructor
  · intro h
    by_contra hsome
    obtain ⟨j, hj⟩ := Option.ne_none_iff_exists'.1 hsome
    have hstands := standsFor_of_decodeInstr hj
    simpa [h j hstands.admitted] using hstands.selects
  · intro h i hadm
    by_contra hsel
    obtain ⟨j, hj, -⟩ := exists_decodeInstr_of_selects hadm (by simpa using hsel)
    simp [h] at hj

end

/-- Settles O1, by `decode_encode`: each field of an encoding is the operand. -/
theorem decodeOfEncode : Obligations.DecodeOfEncode :=
  fun _ _ hwf hadm => decode_encode hwf hadm

/-- Settles O2: the decoder answers what the word stands for. -/
theorem encodeOfDecode : Obligations.EncodeOfDecode := by
  intro p w i h
  have hstands := decode_eq_instr_iff.1 h
  exact ⟨hstands.wf, hstands.admitted, hstands.encode_eq⟩

/-- Settles O3: a row fixes what the decoder reads, and a word is selected by the row of what it stands for. -/
theorem decodeFollowsOpcodeTable : Obligations.DecodeFollowsOpcodeTable := by
  intro p w
  refine ⟨fun i hadm hsel => ?_, fun j h => ?_, fun h => ?_⟩
  · obtain ⟨j, hj, hrow⟩ := exists_decodeInstr_of_selects hadm hsel
    exact ⟨j, by rw [decode, hj], hrow⟩
  · have hstands := decode_eq_instr_iff.1 h
    exact ⟨hstands.admitted, hstands.selects⟩
  · exact decode_eq_illegal_iff.2 (matchesNoRow_iff.1 h)

end Sys2Proof
end

section
/-! PROOFS. O4, O5 and O6: the words that are illegal. -/

namespace Sys2Proof

section
variable {p : Params} {w : InstrWord}

/-- The thirteen opcodes of the table (30_encoding.md R65). -/
def listedOpcodes : List (BitVec 7) :=
  [0b0000011#7, 0b0001111#7, 0b0010011#7, 0b0010111#7, 0b0011011#7, 0b0100011#7, 0b0110011#7, 0b0110111#7,
    0b0111011#7, 0b1100011#7, 0b1100111#7, 0b1101111#7, 0b1110011#7]

theorem decodeInstr_of_unlisted_opcode (h : opcodeOf w ∉ listedOpcodes) : decodeInstr p w = none := by
  unfold decodeInstr
  split
  case h_14 => rfl
  all_goals
    rw [‹opcodeOf w = _›] at h
    exact absurd (by decide) h

theorem low_bits_of_listed_opcode (h : opcodeOf w ∈ listedOpcodes) : w.extractLsb' 0 2 = 0b11#2 := by
  have hlow : (opcodeOf w).extractLsb' 0 2 = w.extractLsb' 0 2 := BitVec.extractLsb'_extractLsb'_of_le (by omega)
  have hall : ∀ op ∈ listedOpcodes, op.extractLsb' 0 2 = 0b11#2 := by decide
  rw [← hlow, hall _ h]

/-- Under opcode 1110011 and func3 000 a word is one of the six fixed ones, or it has the func7 of `sfence.vma`. -/
theorem decodePrivileged_of_unlisted (hop : opcodeOf w = 0b1110011#7) (h3 : func3Of w = 0b000#3)
    (hw : w ∉ [0x00000073#32, 0x00100073#32, 0x00200073#32, 0x10200073#32, 0x30200073#32, 0x10500073#32])
    (h7 : func7Of w ≠ 0b0001001#7) : decodePrivileged w = none := by
  unfold decodePrivileged
  split
  case h_1 h => exact absurd h h7
  case h_2 =>
    split
    case isFalse => rfl
    case isTrue h =>
      obtain ⟨hrs1, hrd⟩ := h
      split
      case h_7 => rfl
      all_goals
        rw [← encI_eq_of_constants ‹imm12Of w = _› hrs1 h3 hrd hop] at hw
        exact absurd (by decide) hw

end

/-- Settles O4: each kind of word that R68 lists falls through to the last arm of its sub-decoder. -/
theorem unlistedWordTraps : Obligations.UnlistedWordTraps := by
  refine ⟨fun s w hfetch hrow => ?_, fun p w h => matchesNoRow_iff.2 ?_⟩
  · have hillegal := decode_eq_illegal_iff.2 (matchesNoRow_iff.1 hrow)
    simp only [Machine.step, hfetch, hillegal]
    rfl
  · rcases h with hlow | (hop : opcodeOf w ∉ listedOpcodes) |
      ⟨(hop : opcodeOf w = _), (h7 : func7Of w = _), (h3 : func3Of w = _)⟩ |
      ⟨(hop : opcodeOf w = _), (h3 : func3Of w ∈ _)⟩ | ⟨(hop : opcodeOf w = _), (h3 : func3Of w = _)⟩ |
      ⟨(hop : opcodeOf w = _), (h3 : func3Of w ∈ _)⟩ | ⟨(hop : opcodeOf w = _), (h3 : func3Of w ≠ _)⟩ |
      ⟨(hop : opcodeOf w = _), (h3 : func3Of w = _)⟩ | ⟨(hop : opcodeOf w = _), (h3 : func3Of w ∉ _)⟩ |
      ⟨(hop : opcodeOf w = _), (h3 : func3Of w ∉ _)⟩ |
      ⟨(hop : opcodeOf w = _), (h3 : func3Of w = _), hw, (h7 : func7Of w ≠ _)⟩ | rfl | rfl
    · exact decodeInstr_of_unlisted_opcode fun hop => hlow (low_bits_of_listed_opcode hop)
    · exact decodeInstr_of_unlisted_opcode hop
    · simp [decodeInstr_of_op hop, decodeOp, h7, h3]
    · rw [decodeInstr_of_branch hop]
      simp only [List.mem_cons, List.not_mem_nil, or_false] at h3
      rcases h3 with h3 | h3 <;> simp [decodeBranch, h3]
    · simp [decodeInstr_of_load hop, decodeLoad, h3]
    · rw [decodeInstr_of_store hop]
      simp only [List.mem_cons, List.not_mem_nil, or_false] at h3
      rcases h3 with h3 | h3 | h3 | h3 <;> simp [decodeStore, h3]
    · simp [decodeInstr, hop]
    · simp [decodeInstr_of_system hop, decodeSystem, h3]
    · rw [decodeInstr_of_opImm32 hop]
      simp only [List.mem_cons, List.not_mem_nil, or_false, not_or] at h3
      obtain ⟨h0, h1, h5⟩ := h3
      simp [decodeOpImm32]
    · rw [decodeInstr_of_fence hop]
      simp only [List.mem_cons, List.not_mem_nil, or_false, not_or] at h3
      obtain ⟨h0, h1⟩ := h3
      simp [decodeFence]
    · simp [decodeInstr_of_system hop, decodeSystem, h3, decodePrivileged_of_unlisted hop h3 hw h7]
    · exact decodeInstr_of_unlisted_opcode (by decide)
    · exact decodeInstr_of_unlisted_opcode (by decide)

/-- Settles O5: a constant that R69 does not list falls through to the last arm of the shifts, whose other arms the
hypotheses rule out. -/
theorem shiftImmediateConstants : Obligations.ShiftImmediateConstants := by
  intro p w
  simp only [decode_eq_illegal_iff]
  refine ⟨fun (hop : opcodeOf w = _) (h3 : func3Of w = _) (h6 : func6Of w ≠ _) => ?_,
    fun (hop : opcodeOf w = _) (h3 : func3Of w = _) (hlogical : func6Of w ≠ _) (harith : func6Of w ≠ _) => ?_,
    fun (hop : opcodeOf w = _) (h3 : func3Of w = _) (h7 : func7Of w ≠ _) => ?_,
    fun (hop : opcodeOf w = _) (h3 : func3Of w = _) (hlogical : func7Of w ≠ _) (harith : func7Of w ≠ _) => ?_⟩
  · simp [decodeInstr_of_opImm hop, decodeOpImm, h3]
  · simp [decodeInstr_of_opImm hop, decodeOpImm, h3]
  · simp [decodeInstr_of_opImm32 hop, decodeOpImm32, h3]
  · simp [decodeInstr_of_opImm32 hop, decodeOpImm32, h3]

/-- Settles O6, by the two values of `FENCE_STRICT`: the strict decoder asks for zeros in the reserved fields, and
without it the word stands for a `fence` or `fence.i` by its func3. -/
theorem fenceReservedFields : Obligations.FenceReservedFields := by
  intro p w (hop : opcodeOf w = _)
  refine ⟨fun (h3 : func3Of w = _) hstrict
      (hset : fenceModeOf w ≠ 0#4 ∨ rs1Of w ≠ 0#5 ∨ rdOf w ≠ 0#5) => ?_,
    fun (h3 : func3Of w = _) hstrict
      (hset : imm12Of w ≠ 0#12 ∨ rs1Of w ≠ 0#5 ∨ rdOf w ≠ 0#5) => ?_,
    fun (h3 : func3Of w = _) hlax => decode_eq_instr_iff.2 (.laxFence hlax hop h3),
    fun (h3 : func3Of w = _) hlax => decode_eq_instr_iff.2 (.laxFenceI hlax hop h3)⟩
  · rw [decode_eq_illegal_iff, decodeInstr_of_fence hop]
    simpa [decodeFence, h3, hstrict, imp_iff_not_or] using hset
  · rw [decode_eq_illegal_iff, decodeInstr_of_fence hop]
    simpa [decodeFence, h3, hstrict, imp_iff_not_or] using hset

end Sys2Proof
end

section
/-! PROOFS. O8 and O9: the immediates as numbers, and the sample words. -/

namespace Sys2Proof

open Machine

/-! ### The immediates of a word as numbers (30_encoding.md R58 to R62) -/

section
variable (w : InstrWord)

/-- A slice that ends at bit 31, as a signed number: bit 31 is its sign. -/
theorem toInt_top_slice {lo len : Nat} (h : lo + len = 32) (hlen : 0 < len) :
    (w.extractLsb' lo len).toInt = (w.extractLsb' lo len).toNat - 2 ^ len * (w.extractLsb' 31 1).toNat := by
  have hmsb : (w.extractLsb' lo len).msb = w.getLsbD 31 := by
    simp [h, hlen, BitVec.getMsbD]
  have hbit : (w.extractLsb' 31 1).toNat = (w.getLsbD 31).toNat := by
    rw [BitVec.extractLsb'_toNat, BitVec.getLsbD, Nat.toNat_testBit, Nat.shiftRight_eq_div_pow]
  rw [BitVec.toInt_eq_msb_cond, hmsb, hbit]
  cases w.getLsbD 31 <;> simp

theorem toInt_signExtend64 {n : Nat} (v : BitVec n) (h : n ≤ 64) : (signExtend64 v).toInt = v.toInt :=
  BitVec.toInt_signExtend_of_le h

/-- The I-immediate (R58). -/
theorem imm12Of_value :
    (signExtend64 (imm12Of w)).toInt = (w.extractLsb' 20 12).toNat - 2 ^ 12 * (w.extractLsb' 31 1).toNat ∧
      -2048 ≤ (signExtend64 (imm12Of w)).toInt ∧ (signExtend64 (imm12Of w)).toInt ≤ 2047 := by
  rw [toInt_signExtend64 _ (by omega)]
  exact ⟨toInt_top_slice w rfl (by omega), BitVec.le_toInt _, Int.le_sub_one_of_lt BitVec.toInt_lt⟩

/-- The S-immediate (R59). -/
theorem immSOf_value :
    (signExtend64 (immSOf w)).toInt = 2 ^ 5 * (w.extractLsb' 25 7).toNat + (w.extractLsb' 7 5).toNat
        - 2 ^ 12 * (w.extractLsb' 31 1).toNat ∧
      -2048 ≤ (signExtend64 (immSOf w)).toInt ∧ (signExtend64 (immSOf w)).toInt ≤ 2047 := by
  rw [toInt_signExtend64 _ (by omega)]
  refine ⟨?_, BitVec.le_toInt _, Int.le_sub_one_of_lt BitVec.toInt_lt⟩
  rw [immSOf, BitVec.toInt_append, toInt_top_slice w (lo := 25) rfl (by omega)]
  simp
  ring

/-- The B-offset (R60). -/
theorem immBOf_value :
    (signExtend64 (immBOf w)).toInt = 2 ^ 11 * (w.extractLsb' 7 1).toNat + 2 ^ 5 * (w.extractLsb' 25 6).toNat
        + 2 * (w.extractLsb' 8 4).toNat - 2 ^ 12 * (w.extractLsb' 31 1).toNat ∧
      (signExtend64 (immBOf w)).toInt % 2 = 0 ∧
      -4096 ≤ (signExtend64 (immBOf w)).toInt ∧ (signExtend64 (immBOf w)).toInt ≤ 4094 := by
  have hvalue : (immBOf w).toInt = 2 ^ 11 * (w.extractLsb' 7 1).toNat + 2 ^ 5 * (w.extractLsb' 25 6).toNat
        + 2 * (w.extractLsb' 8 4).toNat - 2 ^ 12 * (w.extractLsb' 31 1).toNat := by
    simp only [immBOf, BitVec.toInt_append, toInt_top_slice w (lo := 31) (len := 1) rfl (by omega)]
    simp
    ring
  have hlow : -2 ^ 12 ≤ (immBOf w).toInt := BitVec.le_toInt _
  have hhigh : (immBOf w).toInt < 2 ^ 12 := BitVec.toInt_lt
  rw [toInt_signExtend64 _ (by omega)]
  omega

/-- The U-immediate (R61). -/
theorem upperImm_imm20Of_value :
    (upperImm (imm20Of w)).toInt = 2 ^ 12 * (w.extractLsb' 12 20).toNat - 2 ^ 32 * (w.extractLsb' 31 1).toNat ∧
      (upperImm (imm20Of w)).toInt % 4096 = 0 ∧
      -2 ^ 31 ≤ (upperImm (imm20Of w)).toInt ∧ (upperImm (imm20Of w)).toInt ≤ 2 ^ 31 - 4096 := by
  have hvalue : (upperImm (imm20Of w)).toInt = 2 ^ 12 * (imm20Of w).toInt := by
    rw [upperImm, toInt_signExtend64 _ (by omega), BitVec.toInt_append]
    simp
  have hfield : (imm20Of w).toInt = (w.extractLsb' 12 20).toNat - 2 ^ 20 * (w.extractLsb' 31 1).toNat :=
    toInt_top_slice w rfl (by omega)
  have hlow : -2 ^ 19 ≤ (imm20Of w).toInt := BitVec.le_toInt _
  have hhigh : (imm20Of w).toInt < 2 ^ 19 := BitVec.toInt_lt
  omega

/-- The J-offset (R62). -/
theorem immJOf_value :
    (signExtend64 (immJOf w)).toInt = 2 ^ 12 * (w.extractLsb' 12 8).toNat + 2 ^ 11 * (w.extractLsb' 20 1).toNat
        + 2 * (w.extractLsb' 21 10).toNat - 2 ^ 20 * (w.extractLsb' 31 1).toNat ∧
      (signExtend64 (immJOf w)).toInt % 2 = 0 ∧
      -1048576 ≤ (signExtend64 (immJOf w)).toInt ∧ (signExtend64 (immJOf w)).toInt ≤ 1048574 := by
  have hvalue : (immJOf w).toInt = 2 ^ 12 * (w.extractLsb' 12 8).toNat + 2 ^ 11 * (w.extractLsb' 20 1).toNat
        + 2 * (w.extractLsb' 21 10).toNat - 2 ^ 20 * (w.extractLsb' 31 1).toNat := by
    simp only [immJOf, BitVec.toInt_append, toInt_top_slice w (lo := 31) (len := 1) rfl (by omega)]
    simp
    ring
  have hlow : -2 ^ 20 ≤ (immJOf w).toInt := BitVec.le_toInt _
  have hhigh : (immJOf w).toInt < 2 ^ 20 := BitVec.toInt_lt
  rw [toInt_signExtend64 _ (by omega)]
  omega

end

/-! ### The immediate of an instruction is that field of its encoding -/

section
variable {i : Instr}

theorem imm12Of_encode {imm : BitVec 12} (h : iImmediateOf i = some imm) : imm12Of (encode i) = imm := by
  unfold iImmediateOf at h
  split at h <;> cases h
  all_goals exact imm12Of_encI ..

theorem immSOf_encode {imm : BitVec 12} (h : sImmediateOf i = some imm) : immSOf (encode i) = imm := by
  unfold sImmediateOf at h
  split at h <;> cases h
  all_goals exact immSOf_encS ..

theorem immBOf_encode {offset : BitVec 13} (hwf : i.wf = true) (h : bImmediateOf i = some offset) :
    immBOf (encode i) = offset := by
  unfold bImmediateOf at h
  split at h <;> cases h
  all_goals exact immBOf_encB _ _ _ _ _ hwf

theorem imm20Of_encode {imm20 : BitVec 20} (h : uImmediateOf i = some imm20) : imm20Of (encode i) = imm20 := by
  unfold uImmediateOf at h
  split at h <;> cases h
  all_goals exact imm20Of_encU ..

theorem immJOf_encode {offset : BitVec 21} (hwf : i.wf = true) (h : jImmediateOf i = some offset) :
    immJOf (encode i) = offset := by
  unfold jImmediateOf at h
  split at h <;> cases h
  exact immJOf_encJ _ _ _ hwf

end

/-- Settles O8: a decoded word is the encoding of its instruction, whose immediate is a field of it; a `fence` or
`fence.i` that is not its word's encoding has no immediate. -/
theorem immediateValues : Obligations.ImmediateValues := by
  intro p w i h
  cases decode_eq_instr_iff.1 h with
  | encoding hwf _ henc =>
    subst henc
    refine ⟨fun imm hi => ?_, fun imm hs => ?_, fun offset hb => ?_, fun imm20 hu => ?_, fun offset hj => ?_⟩
    · exact imm12Of_encode hi ▸ imm12Of_value (encode i)
    · exact immSOf_encode hs ▸ immSOf_value (encode i)
    · exact immBOf_encode hwf hb ▸ immBOf_value (encode i)
    · exact imm20Of_encode hu ▸ upperImm_imm20Of_value (encode i)
    · exact immJOf_encode hwf hj ▸ immJOf_value (encode i)
  | laxFence | laxFenceI => simp [iImmediateOf, sImmediateOf, bImmediateOf, uImmediateOf, jImmediateOf]

/-- Settles O9: the decoder evaluates on each word. -/
theorem sampleWordsDecode : Obligations.SampleWordsDecode := by
  unfold Obligations.SampleWordsDecode
  decide

end Sys2Proof
end

section
/-! PROOFS. A row of the R format read off the encoder: exactly the words that match decode to the instruction. -/

namespace Sys2Proof

section
variable {p : Params} {w bits : InstrWord} {i : Instr} {f7 op : BitVec 7} {f3 : BitVec 3} {rd rs1 rs2 : Reg}

/-- Outside opcode 0001111, where `FENCE_STRICT` may let bits be ignored, a word stands for the instruction whose
encoding it is (30_encoding.md R66, R70). -/
theorem decode_eq_instr_iff_encode_eq (hop : opcodeOf (encode i) ≠ 0b0001111#7) :
    decode p w = .instr i ↔ i.wf = true ∧ i.admitted p = true ∧ encode i = w := by
  rw [decode_eq_instr_iff]
  constructor
  · intro h
    cases h with
    | encoding hwf hadm henc => exact ⟨hwf, hadm, henc⟩
    | laxFence | laxFenceI => simp at hop
  · rintro ⟨hwf, hadm, henc⟩
    exact .encoding hwf hadm henc

/-- The R format loses nothing and adds nothing: a word is an R encoding exactly where its six fields are the six
given (R51). -/
theorem encR_eq_iff : encR f7 rs2 rs1 f3 rd op = w ↔
    (func7Of w = f7 ∧ func3Of w = f3 ∧ opcodeOf w = op) ∧ rd = rdOf w ∧ rs1 = rs1Of w ∧ rs2 = rs2Of w := by
  constructor
  · rintro rfl
    simp
  · rintro ⟨⟨h7, h3, hop⟩, rfl, rfl, rfl⟩
    exact encR_eq_of_fields h7 h3 hop

/-- The three constants of an R encoding are what the row's mask and match ask for (R67). -/
theorem encR_eq_iff_mask (hbits : encR f7 0#5 0#5 f3 0#5 op = bits) : encR f7 rs2 rs1 f3 rd op = w ↔
    w &&& 0xfe00707f#32 = bits ∧ rd = rdOf w ∧ rs1 = rs1Of w ∧ rs2 = rs2Of w := by
  rw [encR_eq_iff, ← hbits, mask_func7_func3_opcode]

/-- An R-format constructor that every parameter admits has the row of its encoding's constants; the side
conditions evaluate on each constructor. -/
theorem rowR_of_encode {mk : Reg → Reg → Reg → Instr}
    (henc : ∀ rd rs1 rs2, encode (mk rd rs1 rs2) = encR f7 rs2 rs1 f3 rd op)
    (hmk : ∀ p rd rs1 rs2, (mk rd rs1 rs2).wf = true ∧ (mk rd rs1 rs2).admitted p = true := by
      exact fun _ _ _ _ => ⟨rfl, rfl⟩)
    (hop : op ≠ 0b0001111#7 := by decide) (hbits : encR f7 0#5 0#5 f3 0#5 op = bits := by rfl) :
    Machine.RowR mk 0xfe00707f#32 bits := by
  intro p w rd rs1 rs2
  obtain ⟨hwf, hadm⟩ := hmk p rd rs1 rs2
  have hdecode : decode p w = .instr (mk rd rs1 rs2) ↔ encode (mk rd rs1 rs2) = w := by
    rw [decode_eq_instr_iff_encode_eq (by rwa [henc, opcodeOf_encR])]
    simp [hwf, hadm]
  rw [hdecode, henc]
  exact encR_eq_iff_mask hbits

end

end Sys2Proof
end

section
/-! PROOFS. The results of the arithmetic and shift operations as the numbers the claims name, in every width. -/

namespace Sys2Proof.Machine

section
variable {n : Nat} (a b : BitVec n) (k : Nat)

theorem sub_eq_ofInt : a - b = BitVec.ofInt n ((a.toNat : Int) - b.toNat) := by
  rw [Int.sub_eq_add_neg, BitVec.ofInt_add, BitVec.ofInt_neg, BitVec.sub_eq_add_neg]
  simp

/-- Logical left shift is multiplication by a power of two, modulo `2 ^ n`. -/
theorem shiftLeft_eq_ofNat : a <<< k = BitVec.ofNat n (a.toNat * 2 ^ k) := by
  apply BitVec.eq_of_toNat_eq
  rw [BitVec.toNat_shiftLeft, Nat.shiftLeft_eq, BitVec.toNat_ofNat]

/-- Logical right shift is the unsigned quotient by a power of two. -/
theorem ushiftRight_eq_ofNat : a >>> k = BitVec.ofNat n (a.toNat / 2 ^ k) := by
  rw [← Nat.shiftRight_eq_div_pow, ← BitVec.toNat_ushiftRight, BitVec.ofNat_toNat, BitVec.setWidth_eq]

/-- Arithmetic right shift is the floor of the signed quotient by a power of two. -/
theorem sshiftRight_eq_ofInt : a.sshiftRight k = BitVec.ofInt n (a.toInt / 2 ^ k) := by
  rw [BitVec.sshiftRight_eq, Int.shiftRight_eq_div_pow]
  simp

end

/-- What a comparison writes (40_r_type.md R86, R87). -/
theorem flagWord_decide (c : Prop) [Decidable c] : flagWord (decide c) = if c then 1#64 else 0#64 := by
  by_cases h : c <;> simp [flagWord, h]

section
variable (a b : Word) (k : Nat)

/-- A 32-bit result that is an integer modulo 2^32 is written sign-extended (40_r_type.md R91). -/
theorem signExtend64_of_eq_ofInt {r : BitVec 32} {x : Int} (h : r = BitVec.ofInt 32 x) :
    signExtend64 r = wordResult x := by
  apply signExtend64_eq_wordResult
  rw [h, BitVec.toNat_ofInt]
  omega

theorem signExtend64_lowWord_add :
    signExtend64 (lowWord a + lowWord b) = wordResult ((lowU a : Int) + lowU b) := by
  apply signExtend64_of_eq_ofInt
  rw [BitVec.add_def, lowWord_toNat, lowWord_toNat, ← Int.natCast_add, BitVec.ofInt_natCast]

theorem signExtend64_lowWord_sub :
    signExtend64 (lowWord a - lowWord b) = wordResult ((lowU a : Int) - lowU b) := by
  apply signExtend64_of_eq_ofInt
  rw [sub_eq_ofInt, lowWord_toNat, lowWord_toNat]

theorem signExtend64_lowWord_shiftLeft : signExtend64 (lowWord a <<< k) = wordResult (lowU a * 2 ^ k) := by
  apply signExtend64_of_eq_ofInt
  rw [shiftLeft_eq_ofNat, lowWord_toNat, ← BitVec.ofInt_natCast]
  simp

theorem signExtend64_lowWord_ushiftRight : signExtend64 (lowWord a >>> k) = wordResult (lowU a / 2 ^ k) := by
  apply signExtend64_of_eq_ofInt
  rw [ushiftRight_eq_ofNat, lowWord_toNat, ← BitVec.ofInt_natCast]
  simp

theorem signExtend64_lowWord_sshiftRight :
    signExtend64 ((lowWord a).sshiftRight k) = wordResult (lowS a / 2 ^ k) := by
  apply signExtend64_of_eq_ofInt
  rw [sshiftRight_eq_ofInt, lowWord_toInt]

end

end Sys2Proof.Machine
end

section
/-! PROOFS. O30 to O35: the register-register instructions. Each writes its result and goes on, so what is to be
shown is its row and that the result is the number the claim names. -/

namespace Sys2Proof.Machine

/-- Settles O30: addition and subtraction of words are those of their numbers modulo 2^64. -/
theorem addAndSub : Obligations.AddAndSub := by
  refine ⟨rowR_of_encode encode_add, rowR_of_encode encode_sub, fun s rd rs1 rs2 => ⟨?add, ?sub⟩⟩
  case add => exact completes_of_writeAndAdvance (exec_add ..) (BitVec.add_def ..)
  case sub => exact completes_of_writeAndAdvance (exec_sub ..) (sub_eq_ofInt ..)

/-- Settles O31: the low 6 bits of the count register are its value modulo 64. -/
theorem shiftsByRegister : Obligations.ShiftsByRegister := by
  refine ⟨rowR_of_encode encode_sll, rowR_of_encode encode_srl, rowR_of_encode encode_sra, ?results⟩
  intro s rd rs1 rs2 a n
  have hcount : shiftCount (s.readReg rs2) = n := shiftCount_eq _
  refine ⟨?sll, ?srl, ?sra⟩
  case sll => exact completes_of_writeAndAdvance (exec_sll ..) (hcount ▸ shiftLeft_eq_ofNat ..)
  case srl => exact completes_of_writeAndAdvance (exec_srl ..) (hcount ▸ ushiftRight_eq_ofNat ..)
  case sra => exact completes_of_writeAndAdvance (exec_sra ..) (hcount ▸ sshiftRight_eq_ofInt ..)

/-- Settles O32: the flag written is the comparison decided. -/
theorem setLessThan : Obligations.SetLessThan := by
  refine ⟨rowR_of_encode encode_slt, rowR_of_encode encode_sltu, fun s rd rs1 rs2 => ⟨?slt, ?sltu⟩⟩
  case slt => exact completes_of_writeAndAdvance (exec_slt ..) (flagWord_decide _)
  case sltu => exact completes_of_writeAndAdvance (exec_sltu ..) (flagWord_decide _)

/-- Settles O33: the value written is the model's word operation, read bit by bit. -/
theorem bitwiseLogic : Obligations.BitwiseLogic := by
  refine ⟨rowR_of_encode encode_and, rowR_of_encode encode_or, rowR_of_encode encode_xor,
    fun s rd rs1 rs2 => ⟨?and, ?or, ?xor⟩⟩
  case and => exact ⟨_, completes_of_writeAndAdvance (exec_and ..) rfl, fun _ _ => BitVec.getLsbD_and⟩
  case or => exact ⟨_, completes_of_writeAndAdvance (exec_or ..) rfl, fun _ _ => BitVec.getLsbD_or⟩
  case xor => exact ⟨_, completes_of_writeAndAdvance (exec_xor ..) rfl, fun _ _ => BitVec.getLsbD_xor⟩

/-- Settles O34: as O30, on the low words and modulo 2^32. -/
theorem addAndSubWord : Obligations.AddAndSubWord := by
  refine ⟨rowR_of_encode encode_addw, rowR_of_encode encode_subw, fun s rd rs1 rs2 => ⟨?addw, ?subw⟩⟩
  case addw => exact completes_of_writeAndAdvance (exec_addw ..) (signExtend64_lowWord_add ..)
  case subw => exact completes_of_writeAndAdvance (exec_subw ..) (signExtend64_lowWord_sub ..)

/-- Settles O35: the low 5 bits of the count register are its value modulo 32. -/
theorem shiftsByRegisterWord : Obligations.ShiftsByRegisterWord := by
  refine ⟨rowR_of_encode encode_sllw, rowR_of_encode encode_srlw, rowR_of_encode encode_sraw, ?results⟩
  intro s rd rs1 rs2 a n
  have hcount : shiftCountW (s.readReg rs2) = n := shiftCountW_eq _
  refine ⟨?sllw, ?srlw, ?sraw⟩
  case sllw => exact completes_of_writeAndAdvance (exec_sllw ..) (hcount ▸ signExtend64_lowWord_shiftLeft ..)
  case srlw => exact completes_of_writeAndAdvance (exec_srlw ..) (hcount ▸ signExtend64_lowWord_ushiftRight ..)
  case sraw => exact completes_of_writeAndAdvance (exec_sraw ..) (hcount ▸ signExtend64_lowWord_sshiftRight ..)

end Sys2Proof.Machine
end

section
/-! PROOFS. A row of the U format read off the encoder: exactly the words that match decode to the instruction. -/

namespace Sys2Proof

section
variable {w bits : InstrWord} {op : BitVec 7} {rd : Reg} {imm20 : BitVec 20}

/-- The U format loses nothing and adds nothing: a word is a U encoding exactly where its three fields are the three
given (R55). -/
theorem encU_eq_iff : encU imm20 rd op = w ↔ opcodeOf w = op ∧ rd = rdOf w ∧ imm20 = imm20Of w := by
  constructor
  · rintro rfl
    simp
  · rintro ⟨hop, rfl, rfl⟩
    exact encU_eq_of_fields hop

/-- The opcode, a U encoding's only constant, is what the row's mask and match ask for (R67). -/
theorem encU_eq_iff_mask (hbits : encR 0#7 0#5 0#5 0#3 0#5 op = bits) : encU imm20 rd op = w ↔
    w &&& 0x0000007f#32 = bits ∧ rd = rdOf w ∧ imm20 = imm20Of w := by
  rw [encU_eq_iff, ← hbits, mask_opcode]

/-- A U-format constructor that every parameter admits has the row of its opcode; the side conditions evaluate on
each constructor. -/
theorem rowU_of_encode {mk : Reg → BitVec 20 → Instr} (henc : ∀ rd imm20, encode (mk rd imm20) = encU imm20 rd op)
    (hmk : ∀ p rd imm20, (mk rd imm20).wf = true ∧ (mk rd imm20).admitted p = true := by
      exact fun _ _ _ => ⟨rfl, rfl⟩)
    (hop : op ≠ 0b0001111#7 := by decide) (hbits : encR 0#7 0#5 0#5 0#3 0#5 op = bits := by rfl) :
    Machine.RowU mk 0x0000007f#32 bits := by
  intro p w rd imm20
  obtain ⟨hwf, hadm⟩ := hmk p rd imm20
  have hdecode : decode p w = .instr (mk rd imm20) ↔ encode (mk rd imm20) = w := by
    rw [decode_eq_instr_iff_encode_eq (by rwa [henc, opcodeOf_encU])]
    simp [hwf, hadm]
  rw [hdecode, henc]
  exact encU_eq_iff_mask hbits

end

end Sys2Proof
end

section
/-! PROOFS. O36: the upper immediates. -/

namespace Sys2Proof.Machine

/-- Adding a signed offset to an address, modulo `2 ^ n`. -/
theorem add_eq_ofInt {n : Nat} (a b : BitVec n) : a + b = BitVec.ofInt n (a.toNat + b.toInt) := by
  rw [BitVec.ofInt_add, BitVec.ofInt_natCast, BitVec.ofNat_toNat, BitVec.setWidth_eq, BitVec.ofInt_toInt]

/-- Twelve zeros after the field multiply it by 4096, and bit 31 is the sign of the 32 bits (R61). -/
theorem upperImm_eq_wordResult (imm20 : BitVec 20) : upperImm imm20 = wordResult (imm20.toNat * 4096) := by
  have hvalue : (imm20 ++ 0#12 : BitVec 32).toNat = imm20.toNat * 4096 := by
    rw [BitVec.toNat_append, Nat.shiftLeft_eq]
    simp
  apply signExtend64_eq_wordResult
  rw [hvalue, Nat.cast_mul, Nat.cast_ofNat]

/-- Settles O36: each row is that of its encoding; `lui` writes the upper immediate and `auipc` its sum with the pc,
here read as the numbers the claim names. -/
theorem upperImmediates : Obligations.UpperImmediates := by
  refine ⟨rowU_of_encode encode_lui, rowU_of_encode encode_auipc, fun s rd imm20 => ?results⟩
  rw [← upperImm_eq_wordResult]
  refine ⟨?lui, ?auipc⟩
  case lui => exact completes_of_writeAndAdvance (exec_lui ..) rfl
  case auipc => exact completes_of_writeAndAdvance (exec_auipc ..) (add_eq_ofInt ..)

end Sys2Proof.Machine
end

section
/-! PROOFS. A row of the J format read off the encoder: exactly the words that match decode to the instruction. -/

namespace Sys2Proof

section
variable {w bits : InstrWord} {op : BitVec 7} {rd : Reg} {offset : BitVec 21}

/-- Being even is a fact about the one bit of the offset that no word holds (R60, R62). -/
theorem evenOffset_iff_slice_0 {n : Nat} {offset : BitVec n} :
    evenOffset offset = true ↔ offset.extractLsb' 0 1 = 0#1 := by
  refine ⟨slice_0_of_even, fun h => ?_⟩
  have hbit : (offset.extractLsb' 0 1).getLsbD 0 = false := by rw [h]; rfl
  simpa [evenOffset] using hbit

/-- The J-offset bit by bit. An offset with the word's bits in the four places of R56 has the word for its J encoding,
and the encoding gives an even offset back. -/
theorem eq_immJOf_iff : offset = immJOf w ↔
    offset.extractLsb' 20 1 = w.extractLsb' 31 1 ∧ offset.extractLsb' 12 8 = w.extractLsb' 12 8 ∧
      offset.extractLsb' 11 1 = w.extractLsb' 20 1 ∧ offset.extractLsb' 1 10 = w.extractLsb' 21 10 ∧
      offset.extractLsb' 0 1 = 0#1 := by
  constructor
  · rintro rfl
    exact ⟨immJOf_slice_20 w, immJOf_slice_12 w, immJOf_slice_11 w, immJOf_slice_1 w,
      slice_0_of_even (evenOffset_immJOf w)⟩
  · rintro ⟨h20, h12, h11, h1, h0⟩
    have henc : encJ offset (rdOf w) (opcodeOf w) = w := by
      rw [encJ, h20, h12, h11, h1, ← immJOf_slice_20, ← immJOf_slice_12, ← immJOf_slice_11, ← immJOf_slice_1]
      exact encJ_fields w
    rw [← immJOf_encJ offset (rdOf w) (opcodeOf w) (evenOffset_iff_slice_0.2 h0), henc]

/-- The J format loses nothing but bit 0 of the offset and adds nothing: a word is the J encoding of an even offset
exactly where its three fields are the three given (R56). -/
theorem encJ_eq_iff : evenOffset offset = true ∧ encJ offset rd op = w ↔
    opcodeOf w = op ∧ rd = rdOf w ∧ offset = immJOf w := by
  constructor
  · rintro ⟨heven, rfl⟩
    simp [heven]
  · rintro ⟨hop, rfl, rfl⟩
    exact ⟨evenOffset_immJOf w, encJ_eq_of_fields hop⟩

/-- The opcode, a J encoding's only constant, is what the row's mask and match ask for (R67). -/
theorem encJ_eq_iff_mask (hbits : encR 0#7 0#5 0#5 0#3 0#5 op = bits) :
    evenOffset offset = true ∧ encJ offset rd op = w ↔
      w &&& 0x0000007f#32 = bits ∧ rd = rdOf w ∧ offset = immJOf w := by
  rw [encJ_eq_iff, ← hbits, mask_opcode]

/-- A J-format constructor that is well formed at every even offset and that every parameter admits has the row of
its opcode; the side conditions evaluate on each constructor. -/
theorem rowJ_of_encode {mk : Reg → BitVec 21 → Instr} (henc : ∀ rd offset, encode (mk rd offset) = encJ offset rd op)
    (hmk : ∀ p rd offset, (mk rd offset).wf = evenOffset offset ∧ (mk rd offset).admitted p = true := by
      exact fun _ _ _ => ⟨rfl, rfl⟩)
    (hop : op ≠ 0b0001111#7 := by decide) (hbits : encR 0#7 0#5 0#5 0#3 0#5 op = bits := by rfl) :
    Machine.RowJ mk 0x0000007f#32 bits := by
  intro p w rd offset
  obtain ⟨hwf, hadm⟩ := hmk p rd offset
  have hdecode : decode p w = .instr (mk rd offset) ↔ evenOffset offset = true ∧ encJ offset rd op = w := by
    rw [decode_eq_instr_iff_encode_eq (by rwa [henc, opcodeOf_encJ]), henc]
    simp [hwf, hadm]
  rw [hdecode, ← eq_immJOf_iff]
  exact encJ_eq_iff_mask hbits

end

end Sys2Proof
end

section
/-! PROOFS. O37: the jump `jal`. -/

namespace Sys2Proof.Machine

/-- Settles O37: the row is that of its encoding; `jal` is the shared jump to its pc-relative target, here read as the
integer sum the claim names. -/
theorem jumpAndLink : Obligations.JumpAndLink := by
  refine ⟨rowJ_of_encode encode_jal, fun s rd offset => ?meaning⟩
  case meaning => exact jumpMeaning_of_jumpAndLink (exec_jal ..) (relativeTarget_eq s offset (by omega))

end Sys2Proof.Machine
end

section
/-! PROOFS. A row of the S format read off the encoder: exactly the words that match decode to the instruction. -/

namespace Sys2Proof

section
variable {w bits : InstrWord} {op : BitVec 7} {f3 : BitVec 3} {rs2 rs1 : Reg} {imm : BitVec 12}

/-- The S-immediate piece by piece: its seven high and its five low bits stand apart in the word, and together they
are all of it (R59). -/
theorem eq_immSOf_iff : imm = immSOf w ↔
    imm.extractLsb' 5 7 = w.extractLsb' 25 7 ∧ imm.extractLsb' 0 5 = w.extractLsb' 7 5 := by
  constructor
  · rintro rfl
    exact ⟨immSOf_slice_5 w, immSOf_slice_0 w⟩
  · rintro ⟨hhigh, hlow⟩
    rw [immSOf, ← hhigh, ← hlow, BitVec.extractLsb'_append_extractLsb'_eq_extractLsb' (by omega)]
    simp

/-- The S format loses nothing and adds nothing: a word is an S encoding exactly where its five fields are the five
given (R53). -/
theorem encS_eq_iff : encS imm rs2 rs1 f3 op = w ↔
    (func3Of w = f3 ∧ opcodeOf w = op) ∧ rs2 = rs2Of w ∧ rs1 = rs1Of w ∧ imm = immSOf w := by
  constructor
  · rintro rfl
    simp
  · rintro ⟨⟨h3, hop⟩, rfl, rfl, rfl⟩
    exact encS_eq_of_fields h3 hop

/-- The two constants of an S encoding are what the row's mask and match ask for (R67). -/
theorem encS_eq_iff_mask (hbits : encR 0#7 0#5 0#5 f3 0#5 op = bits) : encS imm rs2 rs1 f3 op = w ↔
    w &&& 0x0000707f#32 = bits ∧ rs2 = rs2Of w ∧ rs1 = rs1Of w ∧ imm = immSOf w := by
  rw [encS_eq_iff, ← hbits, mask_func3_opcode]

/-- An S-format constructor that every parameter admits has the row of its encoding's constants; the side
conditions evaluate on each constructor. -/
theorem rowS_of_encode {mk : Reg → Reg → BitVec 12 → Instr}
    (henc : ∀ rs2 rs1 imm, encode (mk rs2 rs1 imm) = encS imm rs2 rs1 f3 op)
    (hmk : ∀ p rs2 rs1 imm, (mk rs2 rs1 imm).wf = true ∧ (mk rs2 rs1 imm).admitted p = true := by
      exact fun _ _ _ _ => ⟨rfl, rfl⟩)
    (hop : op ≠ 0b0001111#7 := by decide) (hbits : encR 0#7 0#5 0#5 f3 0#5 op = bits := by rfl) :
    Machine.RowS mk 0x0000707f#32 bits := by
  intro p w rs2 rs1 imm
  obtain ⟨hwf, hadm⟩ := hmk p rs2 rs1 imm
  have hdecode : decode p w = .instr (mk rs2 rs1 imm) ↔ encode (mk rs2 rs1 imm) = w := by
    rw [decode_eq_instr_iff_encode_eq (by rwa [henc, opcodeOf_encS])]
    simp [hwf, hadm]
  rw [hdecode, henc, ← eq_immSOf_iff]
  exact encS_eq_iff_mask hbits

end

end Sys2Proof
end

section
/-! PROOFS. O39: the stores. -/

namespace Sys2Proof.Machine

/-- Settles O39: each row is that of its encoding, the address is the integer sum the claim names, and each store is
the shared one of its width at that address. -/
theorem storesWriteLowBytes : Obligations.StoresWriteLowBytes := by
  refine ⟨rowS_of_encode encode_sb, rowS_of_encode encode_sh, rowS_of_encode encode_sw, rowS_of_encode encode_sd,
    fun s rs2 rs1 imm => ⟨effectiveAddress_eq s rs1 imm, ?sb, ?sh, ?sw, ?sd⟩⟩
  case sb => exact storeMeaning_of_store (by omega) (exec_sb ..)
  case sh => exact storeMeaning_of_store (by omega) (exec_sh ..)
  case sw => exact storeMeaning_of_store (by omega) (exec_sw ..)
  case sd => exact storeMeaning_of_store (by omega) (exec_sd ..)

end Sys2Proof.Machine
end

section
/-! PROOFS. A row of the B format read off the encoder: exactly the words that match decode to the instruction. -/

namespace Sys2Proof

section
variable {w bits : InstrWord} {op : BitVec 7} {f3 : BitVec 3} {rs2 rs1 : Reg} {offset : BitVec 13}

/-- The B-offset bit by bit. An offset with the word's bits in the four places of R54 has the word for its B encoding,
and the encoding gives an even offset back. -/
theorem eq_immBOf_iff : offset = immBOf w ↔
    offset.extractLsb' 12 1 = w.extractLsb' 31 1 ∧ offset.extractLsb' 11 1 = w.extractLsb' 7 1 ∧
      offset.extractLsb' 5 6 = w.extractLsb' 25 6 ∧ offset.extractLsb' 1 4 = w.extractLsb' 8 4 ∧
      offset.extractLsb' 0 1 = 0#1 := by
  constructor
  · rintro rfl
    exact ⟨immBOf_slice_12 w, immBOf_slice_11 w, immBOf_slice_5 w, immBOf_slice_1 w,
      slice_0_of_even (evenOffset_immBOf w)⟩
  · rintro ⟨h12, h11, h5, h1, h0⟩
    have henc : encB offset (rs2Of w) (rs1Of w) (func3Of w) (opcodeOf w) = w := by
      rw [encB, h12, h11, h5, h1, ← immBOf_slice_12, ← immBOf_slice_11, ← immBOf_slice_5, ← immBOf_slice_1]
      exact encB_fields w
    rw [← immBOf_encB offset _ _ _ _ (evenOffset_iff_slice_0.2 h0), henc]

/-- The B format loses nothing but bit 0 of the offset and adds nothing: a word is the B encoding of an even offset
exactly where its five fields are the five given (R54). -/
theorem encB_eq_iff : evenOffset offset = true ∧ encB offset rs2 rs1 f3 op = w ↔
    (func3Of w = f3 ∧ opcodeOf w = op) ∧ rs1 = rs1Of w ∧ rs2 = rs2Of w ∧ offset = immBOf w := by
  constructor
  · rintro ⟨heven, rfl⟩
    simp [heven]
  · rintro ⟨⟨h3, hop⟩, rfl, rfl, rfl⟩
    exact ⟨evenOffset_immBOf w, encB_eq_of_fields h3 hop⟩

/-- The two constants of a B encoding are what the row's mask and match ask for (R67). -/
theorem encB_eq_iff_mask (hbits : encR 0#7 0#5 0#5 f3 0#5 op = bits) :
    evenOffset offset = true ∧ encB offset rs2 rs1 f3 op = w ↔
      w &&& 0x0000707f#32 = bits ∧ rs1 = rs1Of w ∧ rs2 = rs2Of w ∧ offset = immBOf w := by
  rw [encB_eq_iff, ← hbits, mask_func3_opcode]

/-- A B-format constructor that is well formed at every even offset and that every parameter admits has the row of
its encoding's constants; the side conditions evaluate on each constructor. -/
theorem rowB_of_encode {mk : Reg → Reg → BitVec 13 → Instr}
    (henc : ∀ rs1 rs2 offset, encode (mk rs1 rs2 offset) = encB offset rs2 rs1 f3 op)
    (hmk : ∀ p rs1 rs2 offset,
        (mk rs1 rs2 offset).wf = evenOffset offset ∧ (mk rs1 rs2 offset).admitted p = true := by
      exact fun _ _ _ _ => ⟨rfl, rfl⟩)
    (hop : op ≠ 0b0001111#7 := by decide) (hbits : encR 0#7 0#5 0#5 f3 0#5 op = bits := by rfl) :
    Machine.RowB mk 0x0000707f#32 bits := by
  intro p w rs1 rs2 offset
  obtain ⟨hwf, hadm⟩ := hmk p rs1 rs2 offset
  have hdecode : decode p w = .instr (mk rs1 rs2 offset) ↔
      evenOffset offset = true ∧ encB offset rs2 rs1 f3 op = w := by
    rw [decode_eq_instr_iff_encode_eq (by rwa [henc, opcodeOf_encB]), henc]
    simp [hwf, hadm]
  rw [hdecode, ← eq_immBOf_iff]
  exact encB_eq_iff_mask hbits

end

end Sys2Proof
end

section
/-! PROOFS. O42 and O43: the conditional branches. Each is the shared branch to its pc-relative target, so what is to
be shown is its row and that its test holds where the claim says. -/

namespace Sys2Proof.Machine

section
variable {a b : Word}

theorem ltSigned_iff : ltSigned a b = true ↔ a.toInt < b.toInt := by simp [ltSigned]

theorem ltUnsigned_iff : ltUnsigned a b = true ↔ a.toNat < b.toNat := by simp [ltUnsigned]

theorem geSigned_iff : geSigned a b = true ↔ a.toInt ≥ b.toInt := by simp [geSigned, ltSigned]

theorem geUnsigned_iff : geUnsigned a b = true ↔ a.toNat ≥ b.toNat := by simp [geUnsigned, ltUnsigned]

end

/-- Settles O42: two registers are equal in all 64 bits exactly where they are equal as numbers. -/
theorem branchesOnEquality : Obligations.BranchesOnEquality := by
  refine ⟨rowB_of_encode encode_beq, rowB_of_encode encode_bne, fun s rs1 rs2 offset => ⟨?beq, ?bne⟩⟩
  case beq => exact branchMeaning_of_branchTo (exec_beq ..) (decide_eq_true_iff.trans BitVec.toNat_inj.symm)
  case bne => exact branchMeaning_of_branchTo (exec_bne ..) (decide_eq_true_iff.trans BitVec.toNat_ne_iff_ne.symm)

/-- Settles O43: the two orders are those of the signed and of the unsigned numbers, and `bge` and `bgeu` branch
where `blt` and `bltu` do not. -/
theorem branchesOnOrder : Obligations.BranchesOnOrder := by
  refine ⟨rowB_of_encode encode_blt, rowB_of_encode encode_bltu, rowB_of_encode encode_bge,
    rowB_of_encode encode_bgeu, fun s rs1 rs2 offset => ⟨?blt, ?bltu, ?bge, ?bgeu⟩⟩
  case blt => exact branchMeaning_of_branchTo (exec_blt ..) ltSigned_iff
  case bltu => exact branchMeaning_of_branchTo (exec_bltu ..) ltUnsigned_iff
  case bge => exact branchMeaning_of_branchTo (exec_bge ..) geSigned_iff
  case bgeu => exact branchMeaning_of_branchTo (exec_bgeu ..) geUnsigned_iff

end Sys2Proof.Machine
end

section
/-! PROOFS. A row of the I format read off the encoder, its 12-bit field an immediate or a constant above a shift
amount: exactly the words that match decode to the instruction. -/

namespace Sys2Proof

section
variable {w mask bits : InstrWord} {f7 op : BitVec 7} {f6 : BitVec 6} {f3 : BitVec 3} {rd rs1 : Reg} {imm : BitVec 12}

/-- The I format loses nothing and adds nothing: a word is an I encoding exactly where its five fields are the five
given (R52). -/
theorem encI_eq_iff : encI imm rs1 f3 rd op = w ↔
    (func3Of w = f3 ∧ opcodeOf w = op) ∧ rd = rdOf w ∧ rs1 = rs1Of w ∧ imm = imm12Of w := by
  constructor
  · rintro rfl
    simp
  · rintro ⟨⟨h3, hop⟩, rfl, rfl, rfl⟩
    exact encI_eq_of_fields h3 hop

/-- The two constants of an I encoding are what the row's mask and match ask for (R67). -/
theorem encI_eq_iff_mask (hbits : encR 0#7 0#5 0#5 f3 0#5 op = bits) : encI imm rs1 f3 rd op = w ↔
    w &&& 0x0000707f#32 = bits ∧ rd = rdOf w ∧ rs1 = rs1Of w ∧ imm = imm12Of w := by
  rw [encI_eq_iff, ← hbits, mask_func3_opcode]

/-- The 64-bit immediate shifts fix six bits above the shift amount as well (R67, R69). -/
theorem encI_shift6_eq_iff_mask {shamt : BitVec 6} (hbits : encI (f6 ++ 0#6) 0#5 f3 0#5 op = bits) :
    encI (f6 ++ shamt) rs1 f3 rd op = w ↔
      w &&& 0xfc00707f#32 = bits ∧ rd = rdOf w ∧ rs1 = rs1Of w ∧ shamt = shamt6Of w := by
  rw [← hbits, mask_func6_func3_opcode]
  constructor
  · rintro rfl
    simp [func6Of_shift, shamt6Of_shift]
  · rintro ⟨⟨h6, h3, hop⟩, rfl, rfl, rfl⟩
    exact encI_shift6_eq_of_fields h6 h3 hop

/-- The 32-bit immediate shifts have the shift amount where the R format has `rs2` (R52), and fix the bits that format
fixes (R67, R69). -/
theorem encI_shift5_eq_iff_mask {shamt : BitVec 5} (hbits : encR f7 0#5 0#5 f3 0#5 op = bits) :
    encI (f7 ++ shamt) rs1 f3 rd op = w ↔
      w &&& 0xfe00707f#32 = bits ∧ rd = rdOf w ∧ rs1 = rs1Of w ∧ shamt = rs2Of w := by
  rw [← hbits, mask_func7_func3_opcode]
  constructor
  · rintro rfl
    simp [func7Of_shift, rs2Of_shift]
  · rintro ⟨⟨h7, h3, hop⟩, rfl, rfl, rfl⟩
    exact encI_shift5_eq_of_fields h7 h3 hop

/-- A constructor that is well formed and admitted for every operand, and whose I encodings are the words of a row, has
that row. -/
theorem rowShift_of_encI_eq_iff {n : Nat} {mk : Reg → Reg → BitVec n → Instr} {field : BitVec n → BitVec 12}
    (henc : ∀ rd rs1 x, encode (mk rd rs1 x) = encI (field x) rs1 f3 rd op)
    (hmk : ∀ p rd rs1 x, (mk rd rs1 x).wf = true ∧ (mk rd rs1 x).admitted p = true)
    (hop : op ≠ 0b0001111#7)
    (hrow : ∀ w rd rs1 x, encI (field x) rs1 f3 rd op = w ↔
      w &&& mask = bits ∧ rd = rdOf w ∧ rs1 = rs1Of w ∧ x = w.extractLsb' 20 n) :
    Machine.RowShift n mk mask bits := by
  intro p w rd rs1 x
  obtain ⟨hwf, hadm⟩ := hmk p rd rs1 x
  have hdecode : decode p w = .instr (mk rd rs1 x) ↔ encode (mk rd rs1 x) = w := by
    rw [decode_eq_instr_iff_encode_eq (by rwa [henc, opcodeOf_encI])]
    simp [hwf, hadm]
  rw [hdecode, henc]
  exact hrow w rd rs1 x

/-- The row of an instruction with a 12-bit immediate: its field is the immediate itself. The side conditions of this
lemma and of the next two evaluate on each constructor. -/
theorem rowI_of_encode {mk : Reg → Reg → BitVec 12 → Instr}
    (henc : ∀ rd rs1 imm, encode (mk rd rs1 imm) = encI imm rs1 f3 rd op)
    (hmk : ∀ p rd rs1 imm, (mk rd rs1 imm).wf = true ∧ (mk rd rs1 imm).admitted p = true := by
      exact fun _ _ _ _ => ⟨rfl, rfl⟩)
    (hop : op ≠ 0b0001111#7 := by decide) (hbits : encR 0#7 0#5 0#5 f3 0#5 op = bits := by rfl) :
    Machine.RowI mk 0x0000707f#32 bits :=
  rowShift_of_encI_eq_iff henc hmk hop fun _ _ _ _ => encI_eq_iff_mask hbits

theorem rowShift6_of_encode {mk : Reg → Reg → BitVec 6 → Instr}
    (henc : ∀ rd rs1 shamt, encode (mk rd rs1 shamt) = encI (f6 ++ shamt) rs1 f3 rd op)
    (hmk : ∀ p rd rs1 shamt, (mk rd rs1 shamt).wf = true ∧ (mk rd rs1 shamt).admitted p = true := by
      exact fun _ _ _ _ => ⟨rfl, rfl⟩)
    (hop : op ≠ 0b0001111#7 := by decide) (hbits : encI (f6 ++ 0#6) 0#5 f3 0#5 op = bits := by rfl) :
    Machine.RowShift 6 mk 0xfc00707f#32 bits :=
  rowShift_of_encI_eq_iff henc hmk hop fun _ _ _ _ => encI_shift6_eq_iff_mask hbits

theorem rowShift5_of_encode {mk : Reg → Reg → BitVec 5 → Instr}
    (henc : ∀ rd rs1 shamt, encode (mk rd rs1 shamt) = encI (f7 ++ shamt) rs1 f3 rd op)
    (hmk : ∀ p rd rs1 shamt, (mk rd rs1 shamt).wf = true ∧ (mk rd rs1 shamt).admitted p = true := by
      exact fun _ _ _ _ => ⟨rfl, rfl⟩)
    (hop : op ≠ 0b0001111#7 := by decide) (hbits : encR f7 0#5 0#5 f3 0#5 op = bits := by rfl) :
    Machine.RowShift 5 mk 0xfe00707f#32 bits :=
  rowShift_of_encI_eq_iff henc hmk hop fun _ _ _ _ => encI_shift5_eq_iff_mask hbits

end

end Sys2Proof
end

section
/-! PROOFS. O44 to O47: arithmetic, logic and shifts with an immediate. Each writes its result and goes on, so what is
to be shown is its row and that the result, the immediate sign-extended, is the number the claim names. -/

namespace Sys2Proof.Machine

/-! ### The sign-extended immediate (30_encoding.md R58) -/

section
variable {n : Nat} (imm : BitVec n)

/-- Read as unsigned, the sign-extended immediate is its signed value modulo 2^64. -/
theorem toNat_signExtend64 : ((signExtend64 imm).toNat : Int) = imm.toInt % 2 ^ 64 := by
  rw [signExtend64, BitVec.signExtend, BitVec.toNat_ofInt]
  omega

/-- The immediate's top bit, its sign, stands for every higher bit. -/
theorem getLsbD_signExtend64 {k : Nat} (hk : k < 64) :
    (signExtend64 imm).getLsbD k = imm.getLsbD (min k (n - 1)) := by
  rw [signExtend64, BitVec.getLsbD_signExtend, BitVec.msb_eq_getLsbD_last]
  by_cases h : k < n
  · rw [min_eq_left (by omega)]
    simp [hk, h]
  · rw [min_eq_right (by omega)]
    simp [hk, h]

theorem add_signExtend64_eq_ofInt (a : Word) (hn : n ≤ 64) :
    a + signExtend64 imm = BitVec.ofInt 64 (a.toNat + imm.toInt) := by
  rw [add_eq_ofInt, toInt_signExtend64 imm hn]

end

/-! ### Results as numbers -/

/-- What a comparison writes, by what it says of the numbers. -/
theorem flagWord_of_iff {b : Bool} {c : Prop} [Decidable c] (h : b = true ↔ c) :
    flagWord b = if c then 1#64 else 0#64 := by
  rw [← flagWord_decide, Bool.eq_iff_iff.2 (h.trans decide_eq_true_iff.symm)]

/-- The low 32 bits of an integer modulo 2^64 are that integer modulo 2^32. -/
theorem lowWord_ofInt (x : Int) : lowWord (BitVec.ofInt 64 x) = BitVec.ofInt 32 x := by
  apply BitVec.eq_of_toNat_eq
  rw [lowWord_toNat, lowU, BitVec.toNat_ofInt, BitVec.toNat_ofInt]
  omega

/-! ### The claims -/

/-- Settles O44: `slti` and `sltiu` compare with the sign-extended immediate, whose signed value is the immediate's and
whose unsigned value is that modulo 2^64. -/
theorem addAndCompareImmediate : Obligations.AddAndCompareImmediate := by
  refine ⟨rowI_of_encode encode_addi, rowI_of_encode encode_slti, rowI_of_encode encode_sltiu, ?results⟩
  intro s rd rs1 imm a
  have hsigned : ltSigned a (signExtend64 imm) = true ↔ a.toInt < imm.toInt := by
    rw [ltSigned_iff, toInt_signExtend64 imm (by omega)]
  have hunsigned : ltUnsigned a (signExtend64 imm) = true ↔ (a.toNat : Int) < imm.toInt % 2 ^ 64 := by
    rw [ltUnsigned_iff, ← toNat_signExtend64, Int.ofNat_lt]
  refine ⟨?addi, ?slti, ?sltiu⟩
  case addi => exact completes_of_writeAndAdvance (exec_addi ..) (add_signExtend64_eq_ofInt imm a (by omega))
  case slti => exact completes_of_writeAndAdvance (exec_slti ..) (flagWord_of_iff hsigned)
  case sltiu => exact completes_of_writeAndAdvance (exec_sltiu ..) (flagWord_of_iff hunsigned)

/-- Settles O45: the value written is the model's word operation, read bit by bit, with bit 11 of the immediate for
every higher one. -/
theorem bitwiseLogicImmediate : Obligations.BitwiseLogicImmediate := by
  refine ⟨rowI_of_encode encode_andi, rowI_of_encode encode_ori, rowI_of_encode encode_xori, ?results⟩
  intro s rd rs1 imm a
  refine ⟨⟨_, completes_of_writeAndAdvance (exec_andi ..) rfl, fun k hk => ?and⟩,
    ⟨_, completes_of_writeAndAdvance (exec_ori ..) rfl, fun k hk => ?or⟩,
    ⟨_, completes_of_writeAndAdvance (exec_xori ..) rfl, fun k hk => ?xor⟩⟩
  case and => rw [BitVec.getLsbD_and, getLsbD_signExtend64 imm hk]
  case or => rw [BitVec.getLsbD_or, getLsbD_signExtend64 imm hk]
  case xor => rw [BitVec.getLsbD_xor, getLsbD_signExtend64 imm hk]

/-- Settles O46: as O31, the shift amount being the count. -/
theorem shiftsByImmediate : Obligations.ShiftsByImmediate := by
  refine ⟨rowShift6_of_encode encode_slli, rowShift6_of_encode encode_srli, rowShift6_of_encode encode_srai,
    fun s rd rs1 shamt => ⟨?slli, ?srli, ?srai⟩⟩
  case slli => exact completes_of_writeAndAdvance (exec_slli ..) (shiftLeft_eq_ofNat ..)
  case srli => exact completes_of_writeAndAdvance (exec_srli ..) (ushiftRight_eq_ofNat ..)
  case srai => exact completes_of_writeAndAdvance (exec_srai ..) (sshiftRight_eq_ofInt ..)

/-- Settles O47: `addiw` is the low word of the sum of O44, and the shifts are those of O35, the shift amount being the
count. -/
theorem immediateWordInstructions : Obligations.ImmediateWordInstructions := by
  refine ⟨rowI_of_encode encode_addiw, rowShift5_of_encode encode_slliw, rowShift5_of_encode encode_srliw,
    rowShift5_of_encode encode_sraiw, fun s rd rs1 imm => ?addiw, fun s rd rs1 shamt => ⟨?slliw, ?srliw, ?sraiw⟩⟩
  case addiw =>
    have hsum : lowWord (s.readReg rs1 + signExtend64 imm) = BitVec.ofInt 32 ((s.readReg rs1).toNat + imm.toInt) := by
      rw [add_signExtend64_eq_ofInt imm _ (by omega), lowWord_ofInt]
    exact completes_of_writeAndAdvance (exec_addiw ..) (signExtend64_of_eq_ofInt hsum)
  case slliw => exact completes_of_writeAndAdvance (exec_slliw ..) (signExtend64_lowWord_shiftLeft ..)
  case srliw => exact completes_of_writeAndAdvance (exec_srliw ..) (signExtend64_lowWord_ushiftRight ..)
  case sraiw => exact completes_of_writeAndAdvance (exec_sraiw ..) (signExtend64_lowWord_sshiftRight ..)

end Sys2Proof.Machine
end

section
/-! PROOFS. What the six CSR instructions share: the row read off the encoder, the word they record when illegal, and
that a completed or illegal access is what the claims say. -/

namespace Sys2Proof.Machine

/-- The row of a CSR instruction is that of an I format whose immediate is the CSR's address and whose `rs1` field is
the source (30_encoding.md R52, R63). -/
theorem rowCsr_of_encode {mk : Reg → CsrAddr → BitVec 5 → Instr} {f3 : BitVec 3} {bits : InstrWord}
    (henc : ∀ rd c src, encode (mk rd c src) = encI c src f3 rd 0b1110011#7)
    (hmk : ∀ p rd c src, (mk rd c src).wf = true ∧ (mk rd c src).admitted p = true := by
      exact fun _ _ _ _ => ⟨rfl, rfl⟩)
    (hbits : encR 0#7 0#5 0#5 f3 0#5 0b1110011#7 = bits := by rfl) : RowCsr mk 0x0000707f#32 bits := by
  have hrow : RowI (fun rd src c => mk rd c src) 0x0000707f#32 bits :=
    rowI_of_encode (fun rd src c => henc rd c src) (fun p rd src c => hmk p rd c src) (hbits := hbits)
  intro p w rd c src
  rw [hrow p w rd src c, and_comm (a := src = _)]

section
variable {i : Instr} {c : CsrAddr} {s : State}

theorem opcodeOf_encode_of_csrOf (hc : csrOf i = some c) : opcodeOf (encode i) = 0b1110011#7 := by
  cases i <;> cases hc
  case csrrw | csrrs | csrrc | csrrwi | csrrsi | csrrci => simp

/-- The word that an illegal CSR instruction records, its encoding, is the word it was decoded from (46_i_type_csr.md
R157). -/
theorem eq_encode_of_decode_of_csrOf {p : Params} {w : InstrWord} (hc : csrOf i = some c)
    (hd : decode p w = .instr i) : w = encode i := by
  have hop : opcodeOf (encode i) ≠ 0b0001111#7 := by
    rw [opcodeOf_encode_of_csrOf hc]
    decide
  obtain ⟨-, -, henc⟩ := (decode_eq_instr_iff_encode_eq hop).1 hd
  exact henc.symm

/-- An instruction that accesses its CSR under its own encoding means what R150 and R157 say. -/
theorem csrMeaning_of_exec {rd : Reg} {wr : Bool} {writes : Prop} {new : Word → Word} {v : Word}
    (h : exec i s = s.accessCsr (encode i) rd c wr new) (hc : csrOf i = some c) (hw : wr = true ↔ writes)
    (hv : new (s.readCsr c) = v) : CsrMeaning i s rd c writes v :=
  csrMeaning_of_accessCsr h hw hv fun _ hd => eq_encode_of_decode_of_csrOf hc hd

end

/-- `zimm`, zero-extended, is its number (R154 to R156). -/
theorem zeroExtend64_eq_ofNat {n : Nat} (v : BitVec n) : zeroExtend64 v = BitVec.ofNat 64 v.toNat :=
  (BitVec.ofNat_toNat 64 v).symm

end Sys2Proof.Machine
end

section
/-! PROOFS. O48 to O51: the CSR instructions. -/

namespace Sys2Proof.Machine

/-- Settles O48: the new value does not depend on the old one, and there is no form that does not write. -/
theorem csrReadAndWrite : Obligations.CsrReadAndWrite := by
  refine ⟨rowCsr_of_encode encode_csrrw, rowCsr_of_encode encode_csrrwi, fun s rd src c => ⟨?csrrw, ?csrrwi⟩⟩
  case csrrw => exact csrMeaning_of_exec (exec_csrrw ..) rfl (iff_of_true rfl trivial) rfl
  case csrrwi => exact csrMeaning_of_exec (exec_csrrwi ..) rfl (iff_of_true rfl trivial) (zeroExtend64_eq_ofNat src)

/-- Settles O49: the old value with the source's bits set, written where the source field is not 0. -/
theorem csrReadAndSet : Obligations.CsrReadAndSet := by
  refine ⟨rowCsr_of_encode encode_csrrs, rowCsr_of_encode encode_csrrsi, fun s rd src c => ⟨?csrrs, ?csrrsi⟩⟩
  case csrrs => exact csrMeaning_of_exec (exec_csrrs ..) rfl decide_eq_true_iff rfl
  case csrrsi =>
    exact csrMeaning_of_exec (exec_csrrsi ..) rfl decide_eq_true_iff (by rw [zeroExtend64_eq_ofNat])

/-- Settles O50: as O49, with the source's bits cleared. -/
theorem csrReadAndClear : Obligations.CsrReadAndClear := by
  refine ⟨rowCsr_of_encode encode_csrrc, rowCsr_of_encode encode_csrrci, fun s rd src c => ⟨?csrrc, ?csrrci⟩⟩
  case csrrc => exact csrMeaning_of_exec (exec_csrrc ..) rfl decide_eq_true_iff rfl
  case csrrci =>
    exact csrMeaning_of_exec (exec_csrrci ..) rfl decide_eq_true_iff (by rw [zeroExtend64_eq_ofNat])

/-! ### Legality, of the six at once (46_i_type_csr.md R157) -/

/-- A CSR instruction completes or is illegal as R150 and R157 say, `csrWrittenBy` telling whether it writes: by its
form, or by its source field. -/
theorem csrMeaning_of_csrOf {i : Instr} {c : CsrAddr} (hc : csrOf i = some c) (s : State) :
    ∃ rd new, CsrMeaning i s rd c (csrWrittenBy i = some c) new := by
  cases i <;> cases hc
  case csrrw => exact ⟨_, _, csrMeaning_of_exec (exec_csrrw ..) rfl (iff_of_true rfl rfl) rfl⟩
  case csrrwi => exact ⟨_, _, csrMeaning_of_exec (exec_csrrwi ..) rfl (iff_of_true rfl rfl) rfl⟩
  case csrrs => exact ⟨_, _, csrMeaning_of_exec (exec_csrrs ..) rfl (by simp [csrWrittenBy]) rfl⟩
  case csrrsi => exact ⟨_, _, csrMeaning_of_exec (exec_csrrsi ..) rfl (by simp [csrWrittenBy]) rfl⟩
  case csrrc => exact ⟨_, _, csrMeaning_of_exec (exec_csrrc ..) rfl (by simp [csrWrittenBy]) rfl⟩
  case csrrci => exact ⟨_, _, csrMeaning_of_exec (exec_csrrci ..) rfl (by simp [csrWrittenBy]) rfl⟩

/-- Settles O51: the clauses on legality are read off that meaning; with `rd = x0` the frame of O19 keeps every register
that is not `x[0]`, which reads 0 before and after. -/
theorem csrLegality : Obligations.CsrLegality := by
  intro i s c hc
  obtain ⟨rd, new, hlegal, hillegal⟩ := csrMeaning_of_csrOf hc s
  refine ⟨fun habsent => hillegal fun ⟨hexists, _⟩ => habsent hexists,
    fun _ hreadonly hwrites => hillegal fun ⟨_, hwritable⟩ => hwritable hwrites hreadonly,
    fun hexists hnone => ?readOnlyForm, ?alwaysWrites, ?writesUnlessZero, fun hd t hexec q => ?discarded⟩
  case readOnlyForm =>
    have hkeeps : csrWrittenBy i ≠ some c := by simp [hnone]
    obtain ⟨t, hexec, haccess⟩ := hlegal ⟨hexists, fun hwrites => absurd hwrites hkeeps⟩
    refine ⟨t, hexec, fun e => ?_⟩
    by_cases he : e = c
    · rw [he, haccess.unwritten hkeeps]
    · exact haccess.others e he
  case alwaysWrites => rintro ⟨rd, src, rfl | rfl⟩ <;> rfl
  case writesUnlessZero => rintro rd src (rfl | rfl | rfl | rfl) <;> simp [csrWrittenBy]
  case discarded =>
    obtain ⟨hregs, -⟩ := frameOfEveryInstruction i s t hexec
    by_cases hq : q = 0#5
    · rw [hq, readReg_zero, readReg_zero]
    · exact hregs q (by simp [hd, Ne.symm hq])

end Sys2Proof.Machine
end

section
/-! PROOFS. O38, O40 and O41: the loads and `jalr`. Each is the shared load or jump, so what is to be shown is its row
and that the address and the result are the numbers the claims name. -/

namespace Sys2Proof.Machine

/-! ### The value read, as it is extended (20_memory.md R30, R35) -/

/-- Sign-extending an `n`-byte value reads it as signed. -/
theorem extendSigned_eq_ofInt (n v : Nat) :
    extendSigned n v = BitVec.ofInt 64 ((v : Int).bmod (2 ^ (8 * n))) := by
  rw [extendSigned, BitVec.signExtend, BitVec.toInt_ofNat']

/-- The value of `n` bytes fits in `n` bytes, whichever order they are read in. -/
theorem valueAt_lt (s : State) (a : Word) (n : Nat) : s.valueAt a n < 256 ^ n := by
  have hlt := valueOfBytes_lt (arrangeBytes s.params.byteOrder ((accessBytes a n).map s.readByte))
  rw [length_arrangeBytes, List.length_map, length_accessBytes] at hlt
  rwa [← memValue_eq_valueAt]

/-- Zero-extending the value of `n` bytes keeps it, since `n` bytes hold it. -/
theorem extendUnsigned_valueAt (s : State) (a : Word) (n : Nat) :
    extendUnsigned n (s.valueAt a n) = BitVec.ofNat 64 (s.valueAt a n) := by
  have hfits : s.valueAt a n < 2 ^ (8 * n) := (valueAt_lt s a n).trans_eq (pow_mul 2 8 n).symm
  rw [extendUnsigned, ← BitVec.ofNat_toNat, BitVec.toNat_ofNat, Nat.mod_eq_of_lt hfits]

/-! ### The target of `jalr` (47_i_type_loads_jalr.md R173) -/

/-- Clearing bit 0 rounds down to an even number. -/
theorem and_clearBit0_eq_ofNat (v : Word) :
    v &&& 0xFFFFFFFFFFFFFFFE#64 = BitVec.ofNat 64 (2 * (v.toNat / 2)) := by
  have hmask : 0xFFFFFFFFFFFFFFFE#64 = BitVec.allOnes 64 <<< 1 := rfl
  rw [hmask, ← BitVec.shiftLeft_ushiftRight, shiftLeft_eq_ofNat, BitVec.toNat_ushiftRight,
    Nat.shiftRight_eq_div_pow, pow_one, mul_comm]

/-- The target as an integer: the address is reduced modulo 2^64 before bit 0 is cleared, and 2^64 being even that
comes to clearing it first. -/
theorem indirectTarget_eq (s : State) (rs1 : Reg) (imm : BitVec 12) :
    s.indirectTarget rs1 imm = BitVec.ofInt 64 (2 * (((s.readReg rs1).toNat + imm.toInt) / 2)) := by
  rw [State.indirectTarget, and_clearBit0_eq_ofNat, effectiveAddress_eq]
  apply BitVec.eq_of_toNat_eq
  rw [BitVec.toNat_ofNat, BitVec.toNat_ofInt, BitVec.toNat_ofInt]
  omega

/-! ### The claims -/

/-- Settles O38: `jalr` is the shared jump to its indirect target, which is computed in the state before `rd` is
written. -/
theorem jumpAndLinkRegister : Obligations.JumpAndLinkRegister := by
  refine ⟨rowI_of_encode encode_jalr, fun s rd rs1 imm => ?meaning⟩
  case meaning => exact jumpMeaning_of_jumpAndLink (exec_jalr ..) (indirectTarget_eq ..)

/-- Settles O40: each of the three is the shared load of its width at the effective address, its value read as
signed. -/
theorem signedLoads : Obligations.SignedLoads := by
  refine ⟨rowI_of_encode encode_lb, rowI_of_encode encode_lh, rowI_of_encode encode_lw,
    fun s rd rs1 imm => ⟨effectiveAddress_eq s rs1 imm, ?lb, ?lh, ?lw⟩⟩
  case lb => exact loadMeaning_of_load (exec_lb ..) (extendSigned_eq_ofInt 1 _)
  case lh => exact loadMeaning_of_load (exec_lh ..) (extendSigned_eq_ofInt 2 _)
  case lw => exact loadMeaning_of_load (exec_lw ..) (extendSigned_eq_ofInt 4 _)

/-- Settles O41: as O40, but the value is kept; `ld` fills the register, so its extension is none. -/
theorem unsignedLoads : Obligations.UnsignedLoads := by
  refine ⟨rowI_of_encode encode_lbu, rowI_of_encode encode_lhu, rowI_of_encode encode_lwu, rowI_of_encode encode_ld,
    fun s rd rs1 imm => ⟨effectiveAddress_eq s rs1 imm, ?lbu, ?lhu, ?lwu, ?ld⟩⟩
  case lbu => exact loadMeaning_of_load (exec_lbu ..) (extendUnsigned_valueAt ..)
  case lhu => exact loadMeaning_of_load (exec_lhu ..) (extendUnsigned_valueAt ..)
  case lwu => exact loadMeaning_of_load (exec_lwu ..) (extendUnsigned_valueAt ..)
  case ld => exact loadMeaning_of_load (exec_ld ..) (extendUnsigned_valueAt ..)

end Sys2Proof.Machine
end

section
/-! PROOFS. The rows that are one fixed word, the rows that only `RV64M_FULL` adds, and the rows of `fence` and
`fence.i`, whose mask is that of `FENCE_STRICT`. -/

namespace Sys2Proof

section
variable {p : Params} {w bits : InstrWord} {i : Instr} {f7 op : BitVec 7} {f3 : BitVec 3}

/-- An instruction without operands, outside opcode 0001111, has one word: its encoding. -/
theorem rowWord_of_encode (henc : encode i = bits)
    (hi : ∀ p, i.wf = true ∧ i.admitted p = true := by exact fun _ => ⟨rfl, rfl⟩)
    (hop : opcodeOf (encode i) ≠ 0b0001111#7 := by decide) : Machine.RowWord i bits := by
  intro p w
  obtain ⟨hwf, hadm⟩ := hi p
  rw [decode_eq_instr_iff_encode_eq hop, henc]
  simp [hwf, hadm, eq_comm]

/-- An R-format constructor that `RV64M_FULL` admits has, where it is set, the row of its encoding's constants; the
side conditions evaluate on each constructor (49_rv64m.md R214). -/
theorem rowRFull_of_encode {mk : Reg → Reg → Reg → Instr}
    (henc : ∀ rd rs1 rs2, encode (mk rd rs1 rs2) = encR f7 rs2 rs1 f3 rd op)
    (hmk : ∀ p rd rs1 rs2, (mk rd rs1 rs2).wf = true ∧ (mk rd rs1 rs2).admitted p = p.rv64mFull := by
      exact fun _ _ _ _ => ⟨rfl, rfl⟩)
    (hop : op ≠ 0b0001111#7 := by decide) (hbits : encR f7 0#5 0#5 f3 0#5 op = bits := by rfl) :
    Machine.RowRFull mk 0xfe00707f#32 bits := by
  intro p w rd rs1 rs2
  obtain ⟨hwf, hadm⟩ := hmk p rd rs1 rs2
  have hdecode : decode p w = .instr (mk rd rs1 rs2) ↔ p.rv64mFull = true ∧ encode (mk rd rs1 rs2) = w := by
    rw [decode_eq_instr_iff_encode_eq (by rwa [henc, opcodeOf_encR])]
    simp [hwf, hadm]
  rw [hdecode, henc]
  exact and_congr_right fun _ => encR_eq_iff_mask hbits

/-! ### `fence` and `fence.i` (30_encoding.md R70) -/

theorem selects_fence_iff {pred succ : BitVec 4} : ((Instr.fence pred succ).opcodeRow p).selects w = true ↔
    w &&& (if p.fenceStrict then 0xf00fffff#32 else 0x0000707f#32) = 0x0000000f#32 := by
  rw [Instr.opcodeRow]
  split <;> exact beq_iff_eq

theorem selects_fenceI_iff : (Instr.fenceI.opcodeRow p).selects w = true ↔
    w &&& (if p.fenceStrict then 0xffffffff#32 else 0x0000707f#32) = 0x0000100f#32 := by
  rw [Instr.opcodeRow]
  split <;> exact beq_iff_eq

/-- The words that decode to a `fence` are those its row selects, and its fields are the word's: an ignored field is
not kept in the instruction (log entry 17). -/
theorem decode_eq_fence_iff {pred succ : BitVec 4} : decode p w = .instr (.fence pred succ) ↔
    ((Instr.fence pred succ).opcodeRow p).selects w = true ∧ pred = predOf w ∧ succ = succOf w := by
  constructor
  · intro h
    have hsel := (decode_eq_instr_iff.1 h).selects
    rw [decode, decodeInstr_of_selects_fence hsel] at h
    cases h
    exact ⟨hsel, rfl, rfl⟩
  · rintro ⟨hsel, rfl, rfl⟩
    rw [decode, decodeInstr_of_selects_fence hsel]

theorem decode_eq_fenceI_iff : decode p w = .instr .fenceI ↔ (Instr.fenceI.opcodeRow p).selects w = true := by
  constructor
  · intro h
    exact (decode_eq_instr_iff.1 h).selects
  · intro hsel
    rw [decode, decodeInstr_of_selects_fenceI hsel]

end

end Sys2Proof
end

section
/-! PROOFS. O52 to O55: the system instructions. -/

namespace Sys2Proof.Machine

/-- Settles O52: each is one word, and its meaning is the exception. -/
theorem environmentCallAndBreakpoint : Obligations.EnvironmentCallAndBreakpoint := by
  refine ⟨rowWord_of_encode rfl, rowWord_of_encode rfl, fun s => ⟨?ecall, ?ebreak⟩⟩
  case ecall => exact exec_ecall s
  case ebreak => exact exec_ebreak s

/-- Settles O53: each has the row of its encoding, and its meaning is the refusal under its own name. -/
theorem privilegedAreRefused : Obligations.PrivilegedAreRefused := by
  refine ⟨rowWord_of_encode rfl, rowWord_of_encode rfl, rowWord_of_encode rfl, rowR_of_encode encode_sfenceVma,
    rowWord_of_encode rfl, fun s => ⟨?uret, ?mret, ?sret, fun rd rs1 rs2 => ?sfenceVma, ?wfi⟩⟩
  case uret => exact exec_uret s
  case mret => exact exec_mret s
  case sret => exact exec_sret s
  case sfenceVma => exact exec_sfenceVma rd rs1 rs2 s
  case wfi => exact exec_wfi s

/-- Settles O54: a `fence` word is one that its row selects, and `fence` only advances the pc. -/
theorem fenceChangesOnlyPc : Obligations.FenceChangesOnlyPc := by
  refine ⟨fun p w pred succ => ?row, fun s pred succ => ?effect⟩
  case row =>
    rw [decode_eq_fence_iff, selects_fence_iff]
    rfl
  case effect =>
    exact ⟨s.advance, exec_fence pred succ s, (nextPc_eq s).symm, fun _ => rfl, fun _ => rfl, fun _ => rfl, rfl,
      rfl⟩

/-- Settles O55: a `fence.i` word is one that its row selects, and `fence.i` empties `dirty` and advances the pc. -/
theorem fenceIEmptiesDirty : Obligations.FenceIEmptiesDirty := by
  refine ⟨fun p w => ?row, fun s => ?effect⟩
  case row => rw [decode_eq_fenceI_iff, selects_fenceI_iff]
  case effect =>
    exact ⟨s.clearDirty.advance, exec_fenceI s, rfl, (nextPc_eq s).symm, fun _ => rfl, fun _ => rfl, fun _ => rfl,
      rfl⟩

end Sys2Proof.Machine
end

section
/-! PROOFS. O7: which words with func7 = 0000001 are instructions. -/

namespace Sys2Proof

section
variable {p : Params} {w : InstrWord}

theorem func3_cases (f : BitVec 3) : f = 0b000#3 ∨ f = 0b001#3 ∨ f = 0b010#3 ∨ f = 0b011#3 ∨ f = 0b100#3 ∨
    f = 0b101#3 ∨ f = 0b110#3 ∨ f = 0b111#3 := by
  decide +revert

/-- Without `RV64M_FULL` only `div` and `divu` are left of the eight. -/
theorem decodeMulDiv_of_not_full (hfull : p.rv64mFull = false) (hdiv : func3Of w ≠ 0b100#3)
    (hdivu : func3Of w ≠ 0b101#3) : decodeMulDiv p w = none := by
  unfold decodeMulDiv
  split
  case h_1 h3 => exact absurd h3 hdiv
  case h_2 h3 => exact absurd h3 hdivu
  case h_3 => simp [hfull]

theorem exists_decodeMulDiv_of_full (hfull : p.rv64mFull = true) : ∃ i, decodeMulDiv p w = some i := by
  rcases func3_cases (func3Of w) with h3 | h3 | h3 | h3 | h3 | h3 | h3 | h3 <;> simp [decodeMulDiv, h3, hfull]

theorem exists_decodeMulDiv32_of_full (hfull : p.rv64mFull = true)
    (h3 : func3Of w ∉ [0b001#3, 0b010#3, 0b011#3]) : ∃ i, decodeMulDiv32 p w = some i := by
  rcases func3_cases (func3Of w) with h | h | h | h | h | h | h | h <;> simp_all [decodeMulDiv32]

theorem decodeMulDiv32_of_unlisted (h3 : func3Of w ∈ [0b001#3, 0b010#3, 0b011#3]) : decodeMulDiv32 p w = none := by
  simp only [List.mem_cons, List.not_mem_nil, or_false] at h3
  rcases h3 with h3 | h3 | h3 <;> simp [decodeMulDiv32, h3]

theorem decode_eq_instr_of_decodeInstr {i : Instr} (h : decodeInstr p w = some i) : decode p w = .instr i := by
  rw [decode, h]

end

/-- Settles O7, by func3 and `RV64M_FULL`, the two things that the sub-decoders of func7 = 0000001 ask. -/
theorem rv64mAdmission : Obligations.Rv64mAdmission := by
  intro p w (h7 : func7Of w = _)
  refine ⟨fun (hop : opcodeOf w = _) (h3 : func3Of w = _) => ?div,
    fun (hop : opcodeOf w = _) (h3 : func3Of w = _) => ?divu,
    fun hfull (hop : opcodeOf w = _) (h3 : func3Of w ∉ _) => ?notFull, fun hfull (hop : opcodeOf w = _) => ?notFull32,
    fun hfull (hop : opcodeOf w = _) => ?full, fun hfull (hop : opcodeOf w = _) (h3 : func3Of w ∉ _) => ?full32,
    fun (hop : opcodeOf w = _) (h3 : func3Of w ∈ _) => ?unlisted32⟩
  case div =>
    apply decode_eq_instr_of_decodeInstr
    rw [decodeInstr_of_mulDiv hop h7, decodeMulDiv, h3]
    rfl
  case divu =>
    apply decode_eq_instr_of_decodeInstr
    rw [decodeInstr_of_mulDiv hop h7, decodeMulDiv, h3]
    rfl
  case notFull =>
    simp only [List.mem_cons, List.not_mem_nil, or_false, not_or] at h3
    obtain ⟨hdiv, hdivu⟩ := h3
    rw [decode_eq_illegal_iff, decodeInstr_of_mulDiv hop h7, decodeMulDiv_of_not_full hfull hdiv hdivu]
  case notFull32 =>
    rw [decode_eq_illegal_iff, decodeInstr_of_mulDiv32 hop h7, decodeMulDiv32, hfull]
    rfl
  case full =>
    obtain ⟨i, hi⟩ := exists_decodeMulDiv_of_full (w := w) hfull
    exact ⟨i, decode_eq_instr_of_decodeInstr ((decodeInstr_of_mulDiv hop h7).trans hi)⟩
  case full32 =>
    obtain ⟨i, hi⟩ := exists_decodeMulDiv32_of_full hfull h3
    exact ⟨i, decode_eq_instr_of_decodeInstr ((decodeInstr_of_mulDiv32 hop h7).trans hi)⟩
  case unlisted32 =>
    rw [decode_eq_illegal_iff, decodeInstr_of_mulDiv32 hop h7, decodeMulDiv32_of_unlisted h3]

end Sys2Proof
end

section
/-! PROOFS. Quotients, remainders and products as the numbers the claims name, in every width where the operation has
one, and the identities between them. -/

namespace Sys2Proof.Machine

/-! ### Quotients and remainders (49_rv64m.md R200 to R202, R207, R208) -/

section
variable {n : Nat} (a b : BitVec n)

theorem toInt_eq_zero_iff : b.toInt = 0 ↔ b = 0#n := by
  rw [← BitVec.toInt_inj, BitVec.toInt_zero]

theorem toNat_eq_zero_iff : b.toNat = 0 ↔ b = 0#n := by
  rw [← BitVec.toNat_inj, BitVec.toNat_ofNat, Nat.zero_mod]

/-- The signed quotient, its three cases told by the numbers. -/
theorem quotientSigned_eq : quotientSigned a b =
    if b.toInt = 0 then BitVec.allOnes n
    else if a.toInt = (BitVec.intMin n).toInt ∧ b.toInt = (BitVec.allOnes n).toInt then BitVec.intMin n
    else BitVec.ofInt n (a.toInt.tdiv b.toInt) := by
  simp only [quotientSigned, toInt_eq_zero_iff, BitVec.toInt_inj]

theorem remainderSigned_eq : remainderSigned a b =
    if b.toInt = 0 then a
    else if a.toInt = (BitVec.intMin n).toInt ∧ b.toInt = (BitVec.allOnes n).toInt then 0#n
    else BitVec.ofInt n (a.toInt - b.toInt * a.toInt.tdiv b.toInt) := by
  simp only [remainderSigned, toInt_eq_zero_iff, BitVec.toInt_inj]

theorem quotientUnsigned_eq : quotientUnsigned a b =
    if b.toNat = 0 then BitVec.allOnes n else BitVec.ofNat n (a.toNat / b.toNat) := by
  simp only [quotientUnsigned, toNat_eq_zero_iff]

theorem remainderUnsigned_eq : remainderUnsigned a b =
    if b.toNat = 0 then a else BitVec.ofNat n (a.toNat % b.toNat) := by
  simp only [remainderUnsigned, toNat_eq_zero_iff]

/-- By zero the quotient's factor is 0 and the remainder is the dividend; on overflow the quotient is the dividend,
which is its own negative; else the numbers satisfy the identity. -/
theorem quotientSigned_mul_add_remainderSigned : quotientSigned a b * b + remainderSigned a b = a := by
  unfold quotientSigned remainderSigned
  split
  case isTrue hzero => simp [hzero]
  case isFalse =>
    split
    case isTrue hoverflow =>
      obtain ⟨rfl, rfl⟩ := hoverflow
      rw [← BitVec.neg_one_eq_allOnes, BitVec.mul_neg, BitVec.mul_one, BitVec.neg_intMin, BitVec.add_zero]
    case isFalse =>
      calc BitVec.ofInt n (a.toInt.tdiv b.toInt) * b + BitVec.ofInt n (a.toInt - b.toInt * a.toInt.tdiv b.toInt)
        _ = BitVec.ofInt n (a.toInt.tdiv b.toInt) * BitVec.ofInt n b.toInt +
            BitVec.ofInt n (a.toInt - b.toInt * a.toInt.tdiv b.toInt) := by rw [BitVec.ofInt_toInt]
        _ = BitVec.ofInt n (a.toInt.tdiv b.toInt * b.toInt + (a.toInt - b.toInt * a.toInt.tdiv b.toInt)) := by
            rw [BitVec.ofInt_add, BitVec.ofInt_mul]
        _ = BitVec.ofInt n a.toInt := by ring_nf
        _ = a := BitVec.ofInt_toInt

theorem quotientUnsigned_mul_add_remainderUnsigned : quotientUnsigned a b * b + remainderUnsigned a b = a := by
  unfold quotientUnsigned remainderUnsigned
  split
  case isTrue hzero => simp [hzero]
  case isFalse =>
    apply BitVec.eq_of_toNat_eq
    simp [Nat.div_add_mod', Nat.mod_eq_of_lt a.isLt]

end

/-! ### Products (R203 to R206) -/

theorem mul_eq_ofNat {n : Nat} (a b : BitVec n) : a * b = BitVec.ofNat n (a.toNat * b.toNat) := by
  rw [BitVec.ofNat_mul, BitVec.ofNat_toNat, BitVec.ofNat_toNat, BitVec.setWidth_eq, BitVec.setWidth_eq]

/-- Bits 127 to 64 of a product are the floor of its quotient by 2^64. -/
theorem highProduct_eq (x : Int) : highProduct x = BitVec.ofInt 64 (x / 2 ^ 64) := by
  apply BitVec.eq_of_toNat_eq
  rw [highProduct, BitVec.extractLsb'_toNat, Nat.shiftRight_eq_div_pow, BitVec.toNat_ofInt, BitVec.toNat_ofInt]
  omega

/-- The halves of a signed product make the whole: the product of two words lies between -2^126 and 2^126, so its high
half, read as signed, is the floor, and its low half is what is left. -/
theorem toInt_highProduct_mul_add_toNat_mul (a b : Word) :
    (highProduct (a.toInt * b.toInt)).toInt * 2 ^ 64 + (a * b).toNat = a.toInt * b.toInt := by
  have hle : a.toInt * b.toInt ≤ 2 ^ 126 := BitVec.toInt_mul_toInt_le
  have hge : -(2 ^ 126) ≤ a.toInt * b.toInt := BitVec.le_toInt_mul_toInt
  have hhigh : (highProduct (a.toInt * b.toInt)).toInt = a.toInt * b.toInt / 2 ^ 64 := by
    rw [highProduct_eq, BitVec.toInt_ofInt, Int.bmod_eq_of_le] <;> omega
  have hlow : ((a * b).toNat : Int) = a.toInt * b.toInt % 2 ^ 64 := by
    have hmul : a * b = BitVec.ofInt 64 (a.toInt * b.toInt) := by
      rw [BitVec.ofInt_mul, BitVec.ofInt_toInt, BitVec.ofInt_toInt]
    rw [hmul, BitVec.toNat_ofInt]
    omega
  rw [hhigh, hlow]
  exact Int.ediv_mul_add_emod _ _

/-! ### Results of 32 bits (R209 to R213) -/

section
variable (a b : Word)

theorem signExtend64_lowWord_mul : signExtend64 (lowWord a * lowWord b) = wordResult (lowU a * lowU b) := by
  apply signExtend64_of_eq_ofInt
  rw [mul_eq_ofNat, lowWord_toNat, lowWord_toNat, ← Int.natCast_mul, BitVec.ofInt_natCast]

theorem signExtend64_lowWord_quotientSigned : signExtend64 (quotientSigned (lowWord a) (lowWord b)) = wordResult
    (if lowS b = 0 then 0xFFFFFFFF
      else if lowS a = -2 ^ 31 ∧ lowS b = -1 then 0x80000000
      else (lowS a).tdiv (lowS b)) := by
  apply signExtend64_of_eq_ofInt
  rw [quotientSigned_eq, lowWord_toInt, lowWord_toInt, apply_ite (BitVec.ofInt 32), apply_ite (BitVec.ofInt 32)]
  rfl

theorem signExtend64_lowWord_quotientUnsigned : signExtend64 (quotientUnsigned (lowWord a) (lowWord b)) = wordResult
    (if lowU b = 0 then 0xFFFFFFFF else ((lowU a / lowU b : Nat) : Int)) := by
  apply signExtend64_of_eq_ofInt
  rw [quotientUnsigned_eq, lowWord_toNat, lowWord_toNat, apply_ite (BitVec.ofInt 32), BitVec.ofInt_natCast]
  rfl

theorem signExtend64_lowWord_remainderSigned : signExtend64 (remainderSigned (lowWord a) (lowWord b)) = wordResult
    (if lowS b = 0 then lowS a
      else if lowS a = -2 ^ 31 ∧ lowS b = -1 then 0
      else lowS a - lowS b * (lowS a).tdiv (lowS b)) := by
  apply signExtend64_of_eq_ofInt
  rw [remainderSigned_eq, lowWord_toInt, lowWord_toInt, apply_ite (BitVec.ofInt 32), apply_ite (BitVec.ofInt 32),
    ← lowWord_toInt a, BitVec.ofInt_toInt]
  rfl

theorem signExtend64_lowWord_remainderUnsigned : signExtend64 (remainderUnsigned (lowWord a) (lowWord b)) = wordResult
    (if lowU b = 0 then (lowU a : Int) else ((lowU a % lowU b : Nat) : Int)) := by
  apply signExtend64_of_eq_ofInt
  rw [remainderUnsigned_eq, lowWord_toNat, lowWord_toNat, apply_ite (BitVec.ofInt 32), BitVec.ofInt_natCast,
    BitVec.ofInt_natCast, ← lowWord_toNat a, BitVec.ofNat_toNat, BitVec.setWidth_eq]

end

end Sys2Proof.Machine
end

section
/-! PROOFS. O56 to O60: multiplication and division. Each writes its result and goes on, so what is to be shown is its
row and that the result is the number the claim names. -/

namespace Sys2Proof.Machine

/-- Settles O56: `0x8000000000000000` is the word whose signed value is -2^63, and all ones the one of -1. -/
theorem division : Obligations.Division := by
  refine ⟨rowR_of_encode encode_div, rowR_of_encode encode_divu, fun s rd rs1 rs2 => ⟨?div, ?divu⟩⟩
  case div => exact completes_of_writeAndAdvance (exec_div ..) (quotientSigned_eq ..)
  case divu => exact completes_of_writeAndAdvance (exec_divu ..) (quotientUnsigned_eq ..)

/-- Settles O57: the high half of a product is the floor of its quotient by 2^64. -/
theorem multiplication : Obligations.Multiplication := by
  refine ⟨rowRFull_of_encode encode_mul, rowRFull_of_encode encode_mulh, rowRFull_of_encode encode_mulhsu,
    rowRFull_of_encode encode_mulhu, fun s rd rs1 rs2 => ⟨?mul, ?mulh, ?mulhsu, ?mulhu⟩⟩
  case mul => exact completes_of_writeAndAdvance (exec_mul ..) (mul_eq_ofNat ..)
  case mulh => exact completes_of_writeAndAdvance (exec_mulh ..) (highProduct_eq _)
  case mulhsu => exact completes_of_writeAndAdvance (exec_mulhsu ..) (highProduct_eq _)
  case mulhu =>
    refine completes_of_writeAndAdvance (exec_mulhu ..) ((highProduct_eq _).trans ?_)
    rw [← BitVec.ofInt_natCast]
    simp

/-- Settles O58, as O56. -/
theorem remainder : Obligations.Remainder := by
  refine ⟨rowRFull_of_encode encode_rem, rowRFull_of_encode encode_remu, fun s rd rs1 rs2 => ⟨?rem, ?remu⟩⟩
  case rem => exact completes_of_writeAndAdvance (exec_rem ..) (remainderSigned_eq ..)
  case remu => exact completes_of_writeAndAdvance (exec_remu ..) (remainderUnsigned_eq ..)

/-- Settles O59: the operations of O56 to O58 in 32 bits, on the low words. -/
theorem mulDivWord : Obligations.MulDivWord := by
  refine ⟨rowRFull_of_encode encode_mulw, rowRFull_of_encode encode_divw, rowRFull_of_encode encode_divuw,
    rowRFull_of_encode encode_remw, rowRFull_of_encode encode_remuw,
    fun s rd rs1 rs2 => ⟨?mulw, ?divw, ?divuw, ?remw, ?remuw⟩⟩
  case mulw => exact completes_of_writeAndAdvance (exec_mulw ..) (signExtend64_lowWord_mul ..)
  case divw => exact completes_of_writeAndAdvance (exec_divw ..) (signExtend64_lowWord_quotientSigned ..)
  case divuw => exact completes_of_writeAndAdvance (exec_divuw ..) (signExtend64_lowWord_quotientUnsigned ..)
  case remw => exact completes_of_writeAndAdvance (exec_remw ..) (signExtend64_lowWord_remainderSigned ..)
  case remuw => exact completes_of_writeAndAdvance (exec_remuw ..) (signExtend64_lowWord_remainderUnsigned ..)

/-- The result is read back from a destination other than `x0`. -/
theorem readReg_of_writeAndAdvance {i : Instr} {s t : State} {rd : Reg} {v : Word} (hrd : rd ≠ 0#5)
    (hi : exec i s = s.writeAndAdvance rd v) (hexec : exec i s = .next t) : t.readReg rd = v := by
  obtain rfl := writeAndAdvance_eq_next.1 (hi.symm.trans hexec)
  rw [readReg_advance, regsWritten_writeReg, if_neg hrd, if_pos rfl]

/-- Settles O60: the identities hold of the operations, and the results read back are theirs. -/
theorem divisionAndProductIdentities : Obligations.DivisionAndProductIdentities := by
  intro s t u rd rs1 rs2 hrd a b
  refine ⟨fun ht hu => ?signed, fun ht hu => ?unsigned, fun ht hu => ?product⟩
  case signed =>
    rw [readReg_of_writeAndAdvance hrd (exec_div ..) ht, readReg_of_writeAndAdvance hrd (exec_rem ..) hu]
    exact quotientSigned_mul_add_remainderSigned a b
  case unsigned =>
    rw [readReg_of_writeAndAdvance hrd (exec_divu ..) ht, readReg_of_writeAndAdvance hrd (exec_remu ..) hu]
    exact quotientUnsigned_mul_add_remainderUnsigned a b
  case product =>
    rw [readReg_of_writeAndAdvance hrd (exec_mulh ..) ht, readReg_of_writeAndAdvance hrd (exec_mul ..) hu]
    exact toInt_highProduct_mul_add_toNat_mul a b

end Sys2Proof.Machine
end

section
/-! PROOFS. What an instruction can answer: the next state, or one of the exceptions and refusals, with the condition
for it. Every claim about where a step traps, is refused or completes is read off this one inversion. -/

namespace Sys2Proof.Machine

section
variable {i : Instr} {s : State}

/-! ### The CSR instructions (46_i_type_csr.md R157) -/

/-- An illegal CSR instruction raises with its own word. -/
theorem exec_of_illegal_csr {c : CsrAddr} (hc : csrOf i = some c) (hill : ¬ s.csrLegal c (csrWrittenBy i = some c)) :
    exec i s = .fault (.trapped .illegalInstruction s.pc ((encode i).setWidth 64)) := by
  obtain ⟨rd, new, -, hillegal⟩ := csrMeaning_of_csrOf hc s
  apply hillegal hill
  cases i <;> cases hc
  case csrrw | csrrs | csrrc | csrrwi | csrrsi | csrrci => exact decode_encode rfl rfl

theorem exec_of_legal_csr {c : CsrAddr} (hc : csrOf i = some c) (hleg : s.csrLegal c (csrWrittenBy i = some c)) :
    ∃ t, exec i s = .next t := by
  obtain ⟨rd, new, hlegal, -⟩ := csrMeaning_of_csrOf hc s
  obtain ⟨t, hexec, -⟩ := hlegal hleg
  exact ⟨t, hexec⟩

/-! ### The five privileged instructions (48_i_type_system_fence_privileged.md R185) -/

/-- The name under which an instruction is refused, if it is one of the five. -/
def privilegedRefusal : Instr → Option Refusal
  | .uret => some .uret
  | .mret => some .mret
  | .sret => some .sret
  | .sfenceVma .. => some .sfenceVma
  | .wfi => some .wfi
  | _ => none

theorem mem_or_eq_of_privileged {r : Refusal} (h : privilegedRefusal i = some r) :
    i ∈ [Instr.uret, .mret, .sret, .wfi] ∨ ∃ rd rs1 rs2, i = .sfenceVma rd rs1 rs2 := by
  cases i <;> cases h
  case uret | mret | sret | wfi => exact .inl (by simp)
  case sfenceVma rd rs1 rs2 => exact .inr ⟨rd, rs1, rs2, rfl⟩

theorem exec_of_privileged {r : Refusal} (h : privilegedRefusal i = some r) : exec i s = .refused r := by
  cases i <;> cases h
  case uret => exact exec_uret s
  case mret => exact exec_mret s
  case sret => exact exec_sret s
  case sfenceVma => exact exec_sfenceVma ..
  case wfi => exact exec_wfi s

theorem destOf_of_exec_eq_refused {r : Refusal} (h : exec i s = .refused r) : destOf i = none := by
  have shape := execShape i s
  generalize exec i s = o at h shape
  cases shape with
  | result => exact absurd h writeAndAdvance_ne_refused
  | load => exact absurd h load_ne_refused
  | store => exact absurd h store_ne_refused
  | jump => exact absurd h jumpAndLink_ne_refused
  | branch => exact absurd h branchTo_ne_refused
  | csr => exact absurd h accessCsr_ne_refused
  | fence | fenceI | fault => cases h
  | refused _ hd => exact hd

/-- No other instruction is refused. -/
theorem privilegedRefusal_of_exec_eq_refused {r : Refusal} (h : exec i s = .refused r) :
    privilegedRefusal i = some r := by
  have hd := destOf_of_exec_eq_refused h
  cases i <;> cases hd
  case sb | sh | sw | sd => exact absurd h store_ne_refused
  case beq | bne | blt | bltu | bge | bgeu => exact absurd h branchTo_ne_refused
  case ecall | ebreak | fence | fenceI => cases h
  case uret | mret | sret | sfenceVma | wfi => cases h; rfl

/-! ### The inversion of `exec` -/

/-- The outcomes of an instruction (60_exceptions.md R220, R228). -/
inductive ExecOutcome (i : Instr) (s : State) : Outcome → Prop where
  | next (t : State) : ExecOutcome i s (.next t)
  | misalignedTarget (a : Word) : targetOf s i = some a → a.toNat % 4 ≠ 0 →
      ExecOutcome i s (.fault (.trapped .instructionAddressMisaligned s.pc a))
  | misaligned (k : AccessKind) (a : Word) (n : Nat) : accessOf s i = some (k, a, n) → s.misalignedAt a n →
      ExecOutcome i s (.fault (.trapped k.misaligned s.pc a))
  | outside (k : AccessKind) (a : Word) (n : Nat) : accessOf s i = some (k, a, n) → ¬ s.misalignedAt a n →
      ¬ s.existsAt a n → ExecOutcome i s (.fault (.trapped k.accessFault s.pc a))
  | illegalCsr (c : CsrAddr) : csrOf i = some c → ¬ s.csrLegal c (csrWrittenBy i = some c) →
      ExecOutcome i s (.fault (.trapped .illegalInstruction s.pc ((encode i).setWidth 64)))
  | environmentCall : i = .ecall → ExecOutcome i s (.fault (.trapped .environmentCall s.pc 0#64))
  | breakpoint : i = .ebreak → ExecOutcome i s (.fault (.trapped .breakpoint s.pc s.pc))
  | privileged (r : Refusal) : privilegedRefusal i = some r → ExecOutcome i s (.refused r)

theorem execOutcome_of_exists_next (h : ∃ t, exec i s = .next t) : ExecOutcome i s (exec i s) := by
  obtain ⟨t, hexec⟩ := h
  exact hexec ▸ .next t

theorem execOutcome_of_targetOf {a : Word} (h : targetOf s i = some a) : ExecOutcome i s (exec i s) := by
  by_cases ha : a.toNat % 4 = 0
  · apply execOutcome_of_exists_next
    rcases exec_of_targetOf h with ⟨rd, hexec⟩ | hexec
    · exact ⟨_, hexec.trans (jumpAndLink_eq_next.2 ⟨isInstrAligned_iff.2 ha, rfl⟩)⟩
    · exact ⟨_, hexec.trans (branchTo_eq_next.2 (.inl ⟨rfl, isInstrAligned_iff.2 ha, rfl⟩))⟩
  · exact exec_of_targetOf_misaligned h ha ▸ .misalignedTarget a h ha

theorem execOutcome_of_accessOf {k : AccessKind} {a : Word} {n : Nat} (h : accessOf s i = some (k, a, n)) :
    ExecOutcome i s (exec i s) := by
  by_cases hm : s.misalignedAt a n
  · exact exec_of_misaligned h hm ▸ .misaligned k a n h hm
  · by_cases he : s.existsAt a n
    · exact execOutcome_of_exists_next
        (exec_of_accessCheck_eq_none h ((accessCheck_eq_none_iff s k a n).2 ⟨hm, he⟩))
    · exact exec_of_outside h hm he ▸ .outside k a n h hm he

theorem execOutcome_of_csrOf {c : CsrAddr} (h : csrOf i = some c) : ExecOutcome i s (exec i s) := by
  by_cases hleg : s.csrLegal c (csrWrittenBy i = some c)
  · exact execOutcome_of_exists_next (exec_of_legal_csr h hleg)
  · exact exec_of_illegal_csr h hleg ▸ .illegalCsr c h hleg

/-- Every instruction answers in one of these ways, by the shape of its effect. -/
theorem execOutcome (i : Instr) (s : State) : ExecOutcome i s (exec i s) := by
  have shape := execShape i s
  generalize ho : exec i s = o at shape
  cases shape with
  | result | fence | fenceI => exact .next _
  | load _ _ _ _ _ hacc | store _ _ _ _ hacc => exact ho ▸ execOutcome_of_accessOf hacc
  | jump _ _ _ _ ht => exact ho ▸ execOutcome_of_targetOf ht
  | branch taken a _ _ ht =>
    cases taken with
    | true => exact ho ▸ execOutcome_of_targetOf ht
    | false => exact .next _
  | csr _ _ _ _ _ _ _ _ hc => exact ho ▸ execOutcome_of_csrOf hc
  | fault f hi =>
    rcases hi with rfl | rfl
    · rw [← ho]; exact .environmentCall rfl
    · rw [← ho]; exact .breakpoint rfl
  | refused r _ => exact .privileged r (privilegedRefusal_of_exec_eq_refused ho)

/-- Settles O15. An instruction that completes meets no condition under which it would raise or be refused; and each
of those is excluded by one of the claim's. -/
theorem completesExactlyWhenNothingIsRaised : Obligations.CompletesExactlyWhenNothingIsRaised := by
  intro i s
  constructor
  · rintro ⟨t, hexec⟩
    refine ⟨fun hi => ?fixedWord, fun rd rs1 rs2 hi => ?sfenceVma,
      fun a ht => targetOf_aligned_of_exec_eq_next hexec ht, fun k a n hacc => ?access, fun c hc => ?csr⟩
    case fixedWord =>
      simp only [List.mem_cons, List.not_mem_nil, or_false] at hi
      rcases hi with rfl | rfl | rfl | rfl | rfl | rfl <;> cases hexec
    case sfenceVma => subst hi; cases hexec
    case access =>
      have hm : ¬ s.misalignedAt a n := by
        intro hm
        cases (exec_of_misaligned hacc hm).symm.trans hexec
      refine ⟨hm, ?_⟩
      by_contra ho
      cases (exec_of_outside hacc hm ho).symm.trans hexec
    case csr =>
      by_contra hill
      cases (exec_of_illegal_csr hc hill).symm.trans hexec
  · rintro ⟨hfixed, hsfenceVma, htarget, haccess, hcsr⟩
    have houtcome := execOutcome i s
    generalize exec i s = o at houtcome
    cases houtcome with
    | next t => exact ⟨t, rfl⟩
    | misalignedTarget a ht ha => exact absurd (htarget a ht) ha
    | misaligned k a n hacc hm => exact absurd hm (haccess k a n hacc).1
    | outside k a n hacc _ ho => exact absurd (haccess k a n hacc).2 ho
    | illegalCsr c hc hill => exact absurd (hcsr c hc) hill
    | environmentCall hi | breakpoint hi => exact absurd (by simp [hi]) hfixed
    | privileged r hr =>
      rcases mem_or_eq_of_privileged hr with hi | ⟨rd, rs1, rs2, hi⟩
      · exact absurd (List.mem_cons_of_mem _ (List.mem_cons_of_mem _ hi)) hfixed
      · exact absurd hi (hsfenceVma rd rs1 rs2)

end

end Sys2Proof.Machine
end

section
/-! PROOFS. O12, O13 and O14: the four outcomes of a fetch, and where a step traps or is refused. -/

namespace Sys2Proof.Machine

section
variable {s : State}

/-! ### The four outcomes of a fetch (60_exceptions.md R223) -/

theorem fetch_of_misaligned (hpc : s.pc.toNat % 4 ≠ 0) : s.fetch = .trap .instructionAddressMisaligned := by
  rw [State.fetch, if_neg (by rwa [isInstrAligned_iff])]

/-- The outcomes of a fetch, each with the checks before it. -/
inductive FetchOutcome (s : State) : Fetched → Prop where
  | misaligned : s.pc.toNat % 4 ≠ 0 → FetchOutcome s (.trap .instructionAddressMisaligned)
  | outside : s.pc.toNat % 4 = 0 → ¬ s.existsAt s.pc 4 → FetchOutcome s (.trap .instructionAccessFault)
  | stale : s.pc.toNat % 4 = 0 → s.existsAt s.pc 4 → (∃ k < 4, byteAddr s.pc k ∈ s.dirty) →
      FetchOutcome s .stale
  | word : s.pc.toNat % 4 = 0 → s.existsAt s.pc 4 → (∀ k < 4, byteAddr s.pc k ∉ s.dirty) →
      FetchOutcome s (.word s.wordAtPc)

theorem fetchOutcome (s : State) : FetchOutcome s s.fetch := by
  by_cases hpc : s.pc.toNat % 4 = 0
  · by_cases he : s.existsAt s.pc 4
    · by_cases hd : ∃ k < 4, byteAddr s.pc k ∈ s.dirty
      · exact fetch_of_stale hpc he hd ▸ .stale hpc he hd
      · simp only [not_exists, not_and] at hd
        exact fetch_of_fresh hpc he hd ▸ .word hpc he hd
    · exact fetch_of_outside hpc he ▸ .outside hpc he
  · exact fetch_of_misaligned hpc ▸ .misaligned hpc

/-- The outcomes of a step: those of the fetch, then the word that matches no row, then those of the instruction. -/
inductive StepOutcome (s : State) : Outcome → Prop where
  | misaligned : s.pc.toNat % 4 ≠ 0 → StepOutcome s (.fault (.trapped .instructionAddressMisaligned s.pc s.pc))
  | outside : s.pc.toNat % 4 = 0 → ¬ s.existsAt s.pc 4 →
      StepOutcome s (.fault (.trapped .instructionAccessFault s.pc s.pc))
  | stale : s.pc.toNat % 4 = 0 → s.existsAt s.pc 4 → (∃ k < 4, byteAddr s.pc k ∈ s.dirty) →
      StepOutcome s (.refused .staleFetch)
  | illegal (w : InstrWord) : s.fetch = .word w → matchesNoRow s.params w →
      StepOutcome s (.fault (.trapped .illegalInstruction s.pc (w.setWidth 64)))
  | runs (w : InstrWord) (i : Instr) : Runs s w i → StepOutcome s (exec i s)

theorem stepOutcome (s : State) : StepOutcome s (step s) := by
  have houtcome := fetchOutcome s
  generalize hfetch : s.fetch = f at houtcome
  cases houtcome with
  | misaligned hpc => exact step_of_fetch_eq_trap hfetch ▸ .misaligned hpc
  | outside hpc ho => exact step_of_fetch_eq_trap hfetch ▸ .outside hpc ho
  | stale hpc he hd => exact step_of_fetch_eq_stale hfetch ▸ .stale hpc he hd
  | word =>
    cases hdecode : decodeInstr s.params s.wordAtPc with
    | none =>
      have hrow : matchesNoRow s.params s.wordAtPc := matchesNoRow_iff.2 hdecode
      exact unlistedWordTraps.1 s _ hfetch hrow ▸ .illegal _ hfetch hrow
    | some i =>
      have hruns : Runs s s.wordAtPc i := ⟨hfetch, decode_eq_instr_of_decodeInstr hdecode⟩
      exact step_of_runs hruns ▸ .runs _ i hruns

/-! ### The table of R220 -/

/-- What the instruction that a step runs raises is in the table. -/
theorem raises_of_exec_eq_fault {w : InstrWord} {i : Instr} {f : Fault} (hruns : Runs s w i)
    (hexec : exec i s = .fault f) : ∃ c info, f = .trapped c s.pc info ∧ Raises s c info := by
  have houtcome := execOutcome i s
  rw [hexec] at houtcome
  cases houtcome with
  | misalignedTarget a ht ha => exact ⟨_, _, rfl, .inr ⟨w, i, hruns, ht, ha⟩⟩
  | misaligned k a n hacc hm => cases k <;> exact ⟨_, _, rfl, w, i, n, hruns, hacc, hm⟩
  | outside k a n hacc hm ho => cases k <;> exact ⟨_, _, rfl, w, i, n, hruns, hacc, hm, ho⟩
  | illegalCsr c hc hill =>
    obtain ⟨hfetch, hdecode⟩ := hruns
    have hword : w = encode i := eq_encode_of_decode_of_csrOf hc hdecode
    exact ⟨_, _, rfl, w, hfetch, by rw [hword], .inr ⟨i, c, hdecode, hc, hill⟩⟩
  | environmentCall hi => exact ⟨_, _, rfl, w, hi ▸ hruns, rfl⟩
  | breakpoint hi => exact ⟨_, _, rfl, w, hi ▸ hruns, rfl⟩

/-- Where the table's condition holds the step raises that exception. -/
theorem step_of_raises {c : Cause} {info : Word} (h : Raises s c info) : step s = .fault (.trapped c s.pc info) := by
  cases c with
  | instructionAddressMisaligned =>
    rcases h with ⟨hpc, rfl⟩ | ⟨w, i, hruns, ht, ha⟩
    · exact step_of_fetch_eq_trap (fetch_of_misaligned hpc)
    · exact (step_of_runs hruns).trans (exec_of_targetOf_misaligned ht ha)
  | instructionAccessFault =>
    obtain ⟨hpc, ho, rfl⟩ := h
    exact step_of_fetch_eq_trap (fetch_of_outside hpc ho)
  | illegalInstruction =>
    obtain ⟨w, hfetch, rfl, hrow | ⟨i, c, hdecode, hc, hill⟩⟩ := h
    · exact unlistedWordTraps.1 s w hfetch hrow
    · rw [step_of_runs ⟨hfetch, hdecode⟩, eq_encode_of_decode_of_csrOf hc hdecode]
      exact exec_of_illegal_csr hc hill
  | breakpoint =>
    obtain ⟨w, hruns, rfl⟩ := h
    exact step_of_runs hruns
  | loadAddressMisaligned | storeAddressMisaligned =>
    obtain ⟨w, i, n, hruns, hacc, hm⟩ := h
    exact (step_of_runs hruns).trans (exec_of_misaligned hacc hm)
  | loadAccessFault | storeAccessFault =>
    obtain ⟨w, i, n, hruns, hacc, hm, ho⟩ := h
    exact (step_of_runs hruns).trans (exec_of_outside hacc hm ho)
  | environmentCall =>
    obtain ⟨w, hruns, rfl⟩ := h
    exact step_of_runs hruns

/-! ### The list of R228 -/

/-- A privileged instruction that the step runs is in the list. -/
theorem refuses_of_privileged {w : InstrWord} {i : Instr} {r : Refusal} (hruns : Runs s w i)
    (hr : privilegedRefusal i = some r) : Refuses s r := by
  cases i <;> cases hr
  case uret | mret | sret | wfi => exact ⟨w, hruns⟩
  case sfenceVma => exact ⟨w, _, _, _, hruns⟩

theorem step_of_refuses {r : Refusal} (h : Refuses s r) : step s = .refused r := by
  cases r with
  | notModelled => exact h.elim
  | staleFetch =>
    obtain ⟨hpc, he, hd⟩ := h
    exact step_of_fetch_eq_stale (fetch_of_stale hpc he hd)
  | uret | mret | sret | wfi =>
    obtain ⟨w, hruns⟩ := h
    exact (step_of_runs hruns).trans (exec_of_privileged rfl)
  | sfenceVma =>
    obtain ⟨w, rd, rs1, rs2, hruns⟩ := h
    exact (step_of_runs hruns).trans (exec_of_privileged rfl)

end

/-! ### The claims -/

/-- Settles O12: the fetch makes its checks in this order, and the word is made of the bytes at the pc. -/
theorem fetchChecksInOrder : Obligations.FetchChecksInOrder := fun _ =>
  ⟨fun hpc => step_of_fetch_eq_trap (fetch_of_misaligned hpc),
    fun hpc ho => step_of_fetch_eq_trap (fetch_of_outside hpc ho),
    fun hpc he hd => step_of_fetch_eq_stale (fetch_of_stale hpc he hd),
    fun hpc he hd => ⟨_, fetch_of_fresh hpc he hd, fun _ hk => extractLsb'_wordAtPc hk⟩⟩

/-- Settles O13: every trap among the outcomes of a step is in the table, and the table's conditions raise. -/
theorem everyTrapIsListed : Obligations.EveryTrapIsListed := by
  intro s f
  constructor
  · intro hstep
    have houtcome := stepOutcome s
    generalize ho : step s = o at houtcome
    cases houtcome with
    | misaligned hpc => cases hstep.symm.trans ho; exact ⟨_, _, rfl, .inl ⟨hpc, rfl⟩⟩
    | outside hpc he => cases hstep.symm.trans ho; exact ⟨_, _, rfl, hpc, he, rfl⟩
    | stale => cases hstep.symm.trans ho
    | illegal w hfetch hrow => cases hstep.symm.trans ho; exact ⟨_, _, rfl, w, hfetch, rfl, .inl hrow⟩
    | runs w i hruns => exact raises_of_exec_eq_fault hruns (ho.symm.trans hstep)
  · rintro ⟨c, info, rfl, hraises⟩
    exact step_of_raises hraises

/-- Settles O14: likewise for the refusals. -/
theorem everyRefusalIsListed : Obligations.EveryRefusalIsListed := by
  intro s r
  refine ⟨fun hstep => ?_, step_of_refuses⟩
  have houtcome := stepOutcome s
  generalize ho : step s = o at houtcome
  cases houtcome with
  | misaligned | outside | illegal => cases hstep.symm.trans ho
  | stale hpc he hd => cases hstep.symm.trans ho; exact ⟨hpc, he, hd⟩
  | runs w i hruns => exact refuses_of_privileged hruns (privilegedRefusal_of_exec_eq_refused (ho.symm.trans hstep))

end Sys2Proof.Machine
end

section
/-! PROOFS. O23: where a run ends, and what holds all along it. -/

namespace Sys2Proof.Machine

section
variable {s f g t : State}

/-! ### The states of a run (10_state.md R23) -/

/-- A run that is not at its start took a first step. -/
theorem reaches_head (h : Reaches s f) : f = s ∨ ∃ t, step s = .next t ∧ Reaches t f := by
  induction h with
  | start => exact .inl rfl
  | next _ hstep ih =>
    right
    rcases ih with rfl | ⟨t, hfirst, hrest⟩
    · exact ⟨_, hstep, .start⟩
    · exact ⟨t, hfirst, hrest.next hstep⟩

/-- The step is a function, so a run has one path: of two states on it one is reached from the other. -/
theorem reaches_total (hf : Reaches s f) (hg : Reaches s g) : Reaches f g ∨ Reaches g f := by
  induction hf with
  | start => exact .inl hg
  | next _ hstep ih =>
    rcases ih with htg | hgt
    · rcases reaches_head htg with rfl | ⟨v, hfirst, hrest⟩
      · exact .inr (.next .start hstep)
      · cases hstep.symm.trans hfirst
        exact .inl hrest
    · exact .inr (hgt.next hstep)

theorem eq_of_reaches_of_final (hfinal : ∀ t, step f ≠ .next t) (h : Reaches f g) : g = f := by
  rcases reaches_head h with heq | ⟨t, hstep, -⟩
  · exact heq
  · exact absurd hstep (hfinal t)

theorem endsIn_unique (hf : EndsIn s f) (hg : EndsIn s g) : f = g := by
  obtain ⟨hreachf, hfinalf⟩ := hf
  obtain ⟨hreachg, hfinalg⟩ := hg
  rcases reaches_total hreachf hreachg with h | h
  · exact (eq_of_reaches_of_final hfinalf h).symm
  · exact eq_of_reaches_of_final hfinalg h

/-- No step changes the parameters (log entry 1). -/
theorem step_params (hstep : step s = .next t) : t.params = s.params := by
  obtain ⟨-, w, i, -, hexec⟩ := runs_of_step_eq_next hstep
  obtain ⟨-, -, -, -, hparams⟩ := frameOfEveryInstruction i s t hexec
  exact hparams

theorem reaches_params (h : Reaches s f) : f.params = s.params :=
  reaches_of_step_kept (P := fun u => u.params = s.params) rfl (fun _ _ hu hstep => (step_params hstep).trans hu) h

/-! ### Where a run ends -/

/-- A step that does not complete traps or is refused, as the tables of R220 and R228 say. -/
theorem step_ne_next_iff : (∀ t, step s ≠ .next t) ↔ (∃ c info, Raises s c info) ∨ ∃ r, Refuses s r := by
  constructor
  · intro hfinal
    cases hstep : step s with
    | next t => exact absurd hstep (hfinal t)
    | fault e =>
      obtain ⟨c, info, -, hraises⟩ := (everyTrapIsListed s e).1 hstep
      exact .inl ⟨c, info, hraises⟩
    | refused r => exact .inr ⟨r, (everyRefusalIsListed s r).1 hstep⟩
  · rintro (⟨c, info, hraises⟩ | ⟨r, hrefuses⟩) t hstep
    · cases (step_of_raises hraises).symm.trans hstep
    · cases (step_of_refuses hrefuses).symm.trans hstep

theorem step_eq_fault_iff_raises {c : Cause} {info : Word} :
    step s = .fault (.trapped c s.pc info) ↔ Raises s c info := by
  refine ⟨fun hstep => ?_, step_of_raises⟩
  obtain ⟨c', info', heq, hraises⟩ := (everyTrapIsListed s _).1 hstep
  cases heq
  exact hraises

theorem runs_word_of_rowWord {i : Instr} {word : InstrWord} (hrow : RowWord i word) :
    (∃ w, Runs s w i) ↔ Runs s word i := by
  refine ⟨?_, fun hruns => ⟨word, hruns⟩⟩
  rintro ⟨w, hfetch, hdecode⟩
  obtain rfl := (hrow s.params w).1 hdecode
  exact ⟨hfetch, hdecode⟩

theorem step_eq_environmentCall_iff :
    step s = .fault (.trapped .environmentCall s.pc 0#64) ↔ Runs s 0x00000073#32 .ecall := by
  rw [step_eq_fault_iff_raises, ← runs_word_of_rowWord environmentCallAndBreakpoint.1]
  simp [Raises]

theorem step_eq_breakpoint_iff :
    step s = .fault (.trapped .breakpoint s.pc s.pc) ↔ Runs s 0x00100073#32 .ebreak := by
  rw [step_eq_fault_iff_raises, ← runs_word_of_rowWord environmentCallAndBreakpoint.2.1]
  simp [Raises]

/-! ### The endless run at `jal x0, 0` (70_reset_and_hazards.md R253) -/

/-- Its link goes to `x0` and its target is its own address, a multiple of 4 since it was fetched there. -/
theorem step_of_jump_to_self (hfetch : s.fetch = .word 0x0000006f#32) : step s = .next s := by
  obtain ⟨hpc, -⟩ := fetch_eq_word.1 hfetch
  have hruns : Runs s 0x0000006f#32 (.jal 0#5 0#21) := ⟨hfetch, rfl⟩
  have htarget : s.relativeTarget 0#21 = s.pc := BitVec.add_zero s.pc
  obtain ⟨-, hdiscard, -⟩ := registerZeroDiscardsWrites s
  rw [step_of_runs hruns, exec_jal, execJal, htarget, jumpAndLink_eq_next, hdiscard]
  exact ⟨hpc, rfl⟩

theorem reaches_of_jump_to_self (hfetch : s.fetch = .word 0x0000006f#32) : Reaches s f ↔ f = s := by
  constructor
  · intro h
    refine reaches_of_step_kept (P := fun u => u = s) rfl (fun u v hu hstep => ?_) h
    subst hu
    cases (step_of_jump_to_self hfetch).symm.trans hstep
    rfl
  · rintro rfl
    exact .start

end

/-- Settles O23, from the tables of O13 and O14, the words of O52, what every step keeps (O16, O19), and that a run
has one path. -/
theorem runEndsWhereRaisedOrRefused : Obligations.RunEndsWhereRaisedOrRefused := by
  intro s f
  refine ⟨and_congr_right fun _ => step_ne_next_iff,
    and_congr_right fun _ => or_congr step_eq_environmentCall_iff step_eq_breakpoint_iff,
    fun hfetch => ⟨reaches_of_jump_to_self hfetch, ?endless⟩,
    fun h => ⟨reaches_params h, fun hinv => ?invariant⟩, fun g => endsIn_unique⟩
  case endless =>
    rintro ⟨hreach, hfinal⟩
    obtain rfl := (reaches_of_jump_to_self hfetch).1 hreach
    exact hfinal f (step_of_jump_to_self hfetch)
  case invariant => exact reaches_of_step_kept hinv stepKeepsInvariant h

end Sys2Proof.Machine
end

section
/-! PROOFS. O17 and O18: the states after reset. -/

namespace Sys2Proof.Machine

theorem resetPc_aligned {p : Params} (h : p.wf = true) : p.resetPc.toNat % 4 = 0 := by
  simp only [Params.wf, Bool.and_eq_true, beq_iff_eq] at h
  obtain ⟨⟨hpc, -⟩, -⟩ := h
  exact hpc

theorem launch_zeroSlot (p : Params) (x : Vector Word 32) (csr : List (Nat × Word)) (mem : Memory) :
    (State.launch p x csr mem).regs.get 0 = 0#64 := by
  simp [State.launch, Vector.get_eq_getElem]

theorem launch_inv {p : Params} {csr : List (Nat × Word)} {mem : Memory} (x : Vector Word 32)
    (h : LaunchPremises p csr mem) : (State.launch p x csr mem).Inv where
  paramsLegal := h.paramsLegal
  pcAligned := resetPc_aligned h.paramsLegal
  zeroSlot := launch_zeroSlot p x csr mem
  csrCanonical := h.csrCanonical
  csrExisting := h.csrExisting
  memCanonical := h.memCanonical
  memExisting := h.memExisting
  dirtyCanonical := .nil
  dirtyExisting := by simp [State.launch]

/-- The default parameters are legal, and nothing is loaded. -/
theorem launchPremises_reset : LaunchPremises Params.default [] [] where
  paramsLegal := by decide
  csrCanonical := ⟨.nil, by simp⟩
  csrExisting := by simp
  memCanonical := ⟨.nil, by simp⟩
  memExisting := by simp

/-- Settles O17: what the invariant says of the parameters, the CSR file and memory is a premise, the rest holds of
every launch; and reset is a launch. -/
theorem launchMeetsInvariant : Obligations.LaunchMeetsInvariant :=
  ⟨fun _ x _ _ h => launch_inv x h, launch_inv _ launchPremises_reset⟩

/-- A launch keeps the given registers but for `x[0]`. -/
theorem readReg_launch {p : Params} {x : Vector Word 32} {csr : List (Nat × Word)} {mem : Memory} {r : Reg}
    (hr : r ≠ 0#5) : (State.launch p x csr mem).readReg r = x.get r.toFin := by
  have hne : 0 ≠ r.toNat := fun h => hr (BitVec.eq_of_toNat_eq h.symm)
  simp [State.readReg, hr, State.launch, Vector.get_eq_getElem, hne]

/-- A state with the three values that reset fixes is the launch of its own registers, CSRs and memory. -/
theorem eq_launch {s : State} (hpc : s.pc = s.params.resetPc) (hzero : s.regs.get 0 = 0#64) (hdirty : s.dirty = []) :
    s = State.launch s.params s.regs s.csr s.mem := by
  have hregs : s.regs.set 0 0#64 = s.regs := by
    rw [← hzero]
    exact Vector.set_getElem_self _
  rw [State.launch, hregs, ← hpc, ← hdirty]

/-- Settles O18: a launch sets the three values and takes the others as given. -/
theorem launchIsStateAfterReset : Obligations.LaunchIsStateAfterReset :=
  ⟨fun p x csr mem => ⟨rfl, readReg_zero _, launch_zeroSlot p x csr mem, rfl, fun _ hr => readReg_launch hr,
      fun _ => rfl, fun _ => rfl⟩,
    fun s hpc hzero hdirty => ⟨s.regs, s.csr, s.mem, eq_launch hpc hzero hdirty⟩⟩

end Sys2Proof.Machine
end
